-- ==== Sys2Proof/Word.lean ====
section
/-! DEFINITION. The machine's two word types (spec/00_scope.md R5, R7): a byte is 8 bits, a word 16 bits, bit 0 least significant. -/

namespace Sys2Proof

/-- A byte, the spec's `u8`. -/
abbrev Byte := BitVec 8

/-- A word, the spec's `u16`: an address, a register pair, `sp` or `pc`. -/
abbrev Word := BitVec 16

end Sys2Proof
end

