-- ==== Sys2Proof/Syntax.lean ====
section
/-! DEFINITION. The instructions, one constructor per row of spec/opcode_table.json in the table's order, and their operand types (spec/30_encoding.md R74 to R77, R81). -/

namespace Sys2Proof

/-- The eight 8-bit register cells (spec/10_state.md R10). -/
inductive Cell where
  | a | f | b | c | d | e | h | l
  deriving DecidableEq, Repr

/-- The register operands of table `R8` (R74): codes 0 to 5 and 7. Code 6, `(HL)`, has instructions of its own. -/
inductive Reg8 where
  | b | c | d | e | h | l | a
  deriving DecidableEq, Repr

/-- What a code of table `R8` stands for (R74): a register, or the byte of memory at HL (code 6). -/
inductive Operand8 where
  | reg (r : Reg8)
  | atHl
  deriving DecidableEq, Repr

/-- Table `RP` (R75): the operand of `LD rr,n16`, `INC rr`, `DEC rr`, `ADD HL,rr`. -/
inductive Reg16 where
  | bc | de | hl | sp
  deriving DecidableEq, Repr

/-- The four register pairs (spec/10_state.md R11), which are also table `RP2` (R76), the operand of PUSH and POP. -/
inductive Pair where
  | bc | de | hl | af
  deriving DecidableEq, Repr

/-- Table `CC` (R77): the conditions. -/
inductive Cond where
  | nz | z | nc | c
  deriving DecidableEq, Repr

/-- The four flags of the cell F (spec/10_state.md R14): Zero, Subtract, Half-Carry, Carry. -/
inductive Flag where
  | z | n | h | c
  deriving DecidableEq, Repr

/-- The instructions. Operand bytes are resolved by the decoder (R81): an `n8`, `e8` or `a8` is the byte itself, an
`n16` or `a16` the assembled word, a bit index or restart number its three bits. -/
inductive Instr where
  | nop
  | ldA16Sp (a16 : Word)
  /-- STOP carries the second byte, which is fetched and ignored (spec/47_system.md R242). -/
  | stop (pad : Byte)
  | jrE8 (e8 : Byte)
  | rlca
  | rrca
  | rla
  | rra
  | daa
  | cpl
  | scf
  | ccf
  | ldBcA
  | ldDeA
  | ldABc
  | ldADe
  | ldHliA
  | ldAHli
  | ldHldA
  | ldAHld
  | incHl
  | decHl
  | ldHlN8 (n8 : Byte)
  | halt
  | addAHl
  | adcAHl
  | subHl
  | sbcAHl
  | andHl
  | xorHl
  | orHl
  | cpHl
  | addAN8 (n8 : Byte)
  | adcAN8 (n8 : Byte)
  | subN8 (n8 : Byte)
  | sbcAN8 (n8 : Byte)
  | andN8 (n8 : Byte)
  | xorN8 (n8 : Byte)
  | orN8 (n8 : Byte)
  | cpN8 (n8 : Byte)
  | jpA16 (a16 : Word)
  | ret
  /-- The escape row with the bitcode it makes the decoder pull (spec/47_system.md R245). The decoder never answers it:
  it answers the secondary row, whose effect is the whole effect of the pair (log 8). -/
  | prefixCb (bitcode : Byte)
  | callA16 (a16 : Word)
  | reti
  | ldhA8A (a8 : Byte)
  | ldhAA8 (a8 : Byte)
  | ldhCA
  | ldhAC
  | addSpE8 (e8 : Byte)
  | ldHlSpE8 (e8 : Byte)
  | jpHl
  | ldSpHl
  | ldA16A (a16 : Word)
  | ldAA16 (a16 : Word)
  | di
  | ei
  /-- The eleven UNKNOWN rows: the variant carrying the raw byte (R86). -/
  | unknown (op : Byte)
  | jrCcE8 (cc : Cond) (e8 : Byte)
  | ldRrN16 (rr : Reg16) (n16 : Word)
  | incRr (rr : Reg16)
  | decRr (rr : Reg16)
  | addHlRr (rr : Reg16)
  | incR (r : Reg8)
  | decR (r : Reg8)
  | ldRN8 (r : Reg8) (n8 : Byte)
  | ldRHl (r : Reg8)
  | ldHlR (r : Reg8)
  | ldRR (dst : Reg8) (src : Reg8)
  | addAR (r : Reg8)
  | adcAR (r : Reg8)
  | subR (r : Reg8)
  | sbcAR (r : Reg8)
  | andR (r : Reg8)
  | xorR (r : Reg8)
  | orR (r : Reg8)
  | cpR (r : Reg8)
  | retCc (cc : Cond)
  | jpCcA16 (cc : Cond) (a16 : Word)
  | callCcA16 (cc : Cond) (a16 : Word)
  | popRr (rr : Pair)
  | pushRr (rr : Pair)
  | rstT (t : BitVec 3)
  | rlcHl
  | rrcHl
  | rlHl
  | rrHl
  | slaHl
  | sraHl
  | swapHl
  | srlHl
  | rlcR (r : Reg8)
  | rrcR (r : Reg8)
  | rlR (r : Reg8)
  | rrR (r : Reg8)
  | slaR (r : Reg8)
  | sraR (r : Reg8)
  | swapR (r : Reg8)
  | srlR (r : Reg8)
  | bitBHl (b : BitVec 3)
  | resBHl (b : BitVec 3)
  | setBHl (b : BitVec 3)
  | bitBR (b : BitVec 3) (r : Reg8)
  | resBR (b : BitVec 3) (r : Reg8)
  | setBR (b : BitVec 3) (r : Reg8)
  deriving DecidableEq, Repr

end Sys2Proof
end

