-- ==== Sys2Proof/WellFormed.lean ====
section
/-! DEFINITION. Which terms of `Instr` an instruction's bytes can stand for. Every operand is in range by its type; two checks are left. -/

namespace Sys2Proof

/-- Why a term is no instruction a decoder can answer. -/
inductive IllFormed where
  /-- `unknown` with a byte that the primary map assigns (spec/30_encoding.md R86 lists the eleven it may carry). -/
  | assignedByte
  /-- The escape row as an instruction of its own: the escape byte is not an instruction by itself (R80, log 8). -/
  | bareEscape
  deriving DecidableEq, Repr

/-- The eleven unassigned first bytes (R86). -/
def unassignedBytes : List Byte :=
  [0xD3#8, 0xDB#8, 0xDD#8, 0xE3#8, 0xE4#8, 0xEB#8, 0xEC#8, 0xED#8, 0xF4#8, 0xFC#8, 0xFD#8]

/-- What is wrong with a term, if anything. -/
def Instr.illFormed : Instr → Option IllFormed
  | .unknown op => if unassignedBytes.contains op then none else some .assignedByte
  | .prefixCb _ => some .bareEscape
  | _ => none

/-- A term that an instruction's bytes can stand for. -/
def Instr.wellFormed (i : Instr) : Bool := i.illFormed.isNone

end Sys2Proof
end

