-- ==== Sys2Proof/Decode.lean ====
section
/-! DEFINITION. The decoder (spec/30_encoding.md R70 to R88) over any pull source, by the field description of the opcode maps (R82, R85); after it the encoder, from the encoding patterns of the instruction rules. -/

namespace Sys2Proof

/-! ## Byte order and fields (R71, R73) -/

/-- `{hi, lo}` (R7, R73): the word with `hi` in the more significant position. -/
def wordOf (hi lo : Byte) : Word := hi ++ lo

/-- `v[7:0]`. -/
def loByte (v : Word) : Byte := v.extractLsb' 0 8

/-- `v[15:8]`. -/
def hiByte (v : Word) : Byte := v.extractLsb' 8 8

/-- Bits 2:0 of an opcode or bitcode (R71: `sss`, `rrr`, `z`). -/
def lowField (v : Byte) : BitVec 3 := v.extractLsb' 0 3

/-- Bits 5:3 of an opcode or bitcode (R71: `ddd`, `bbb`, `ooo`, `ttt`, `y`). -/
def midField (v : Byte) : BitVec 3 := v.extractLsb' 3 3

/-- Bits 7:6 of an opcode or bitcode (R71: the quadrant `x`). -/
def topField (v : Byte) : BitVec 2 := v.extractLsb' 6 2

/-! ## Operand tables (R74 to R77) -/

/-- Table `R8` (R74). -/
def operand8 (code : BitVec 3) : Operand8 :=
  match code.toNat with
  | 0 => .reg .b
  | 1 => .reg .c
  | 2 => .reg .d
  | 3 => .reg .e
  | 4 => .reg .h
  | 5 => .reg .l
  | 6 => .atHl
  | _ => .reg .a

/-- Table `RP` (R75), by the number of the code. -/
def reg16Of (p : Nat) : Reg16 :=
  match p with
  | 0 => .bc
  | 1 => .de
  | 2 => .hl
  | _ => .sp

/-- Table `RP2` (R76), by the number of the code. -/
def pairOf (p : Nat) : Pair :=
  match p with
  | 0 => .bc
  | 1 => .de
  | 2 => .hl
  | _ => .af

/-- Table `CC` (R77), by the number of the code. -/
def condOf (k : Nat) : Cond :=
  match k with
  | 0 => .nz
  | 1 => .z
  | 2 => .nc
  | _ => .c

/-! ## The two opcode maps -/

/-- What the first byte alone settles: the format (R70) and the instruction up to its operand bytes. -/
inductive Opcode where
  | op (i : Instr)
  | n8 (k : Byte → Instr)
  | e8 (k : Byte → Instr)
  | n16 (k : Word → Instr)
  | escape

/-- The ALU block `10ooosss` (R82, x = 2; R166). -/
def aluBlock (y : Nat) (o : Operand8) : Instr :=
  match o with
  | .reg r =>
    match y with
    | 0 => .addAR r
    | 1 => .adcAR r
    | 2 => .subR r
    | 3 => .sbcAR r
    | 4 => .andR r
    | 5 => .xorR r
    | 6 => .orR r
    | _ => .cpR r
  | .atHl =>
    match y with
    | 0 => .addAHl
    | 1 => .adcAHl
    | 2 => .subHl
    | 3 => .sbcAHl
    | 4 => .andHl
    | 5 => .xorHl
    | 6 => .orHl
    | _ => .cpHl

/-- The immediate ALU forms `11ooo110 n8` (R82, x = 3, z = 6; R166). -/
def aluImmediate (y : Nat) : Byte → Instr :=
  match y with
  | 0 => .addAN8
  | 1 => .adcAN8
  | 2 => .subN8
  | 3 => .sbcAN8
  | 4 => .andN8
  | 5 => .xorN8
  | 6 => .orN8
  | _ => .cpN8

/-- The load block `01dddsss` (R82, x = 1); the place of `LD (HL),(HL)` is HALT's. -/
def loadBlock (dst src : Operand8) : Instr :=
  match dst, src with
  | .reg t, .reg r => .ldRR t r
  | .reg t, .atHl => .ldRHl t
  | .atHl, .reg r => .ldHlR r
  | .atHl, .atHl => .halt

/-- The quadrant x = 0 (R82). -/
def quadrant0 (y z : Nat) (o : Operand8) : Opcode :=
  match z with
  | 0 =>
    match y with
    | 0 => .op .nop
    | 1 => .n16 .ldA16Sp
    | 2 => .n8 .stop
    | 3 => .e8 .jrE8
    | k => .e8 (.jrCcE8 (condOf (k - 4)))
  | 1 => if y % 2 = 0 then .n16 (.ldRrN16 (reg16Of (y / 2))) else .op (.addHlRr (reg16Of (y / 2)))
  | 2 =>
    match y with
    | 0 => .op .ldBcA
    | 1 => .op .ldABc
    | 2 => .op .ldDeA
    | 3 => .op .ldADe
    | 4 => .op .ldHliA
    | 5 => .op .ldAHli
    | 6 => .op .ldHldA
    | _ => .op .ldAHld
  | 3 => if y % 2 = 0 then .op (.incRr (reg16Of (y / 2))) else .op (.decRr (reg16Of (y / 2)))
  | 4 => match o with | .reg r => .op (.incR r) | .atHl => .op .incHl
  | 5 => match o with | .reg r => .op (.decR r) | .atHl => .op .decHl
  | 6 => match o with | .reg r => .n8 (.ldRN8 r) | .atHl => .n8 .ldHlN8
  | _ =>
    match y with
    | 0 => .op .rlca
    | 1 => .op .rrca
    | 2 => .op .rla
    | 3 => .op .rra
    | 4 => .op .daa
    | 5 => .op .cpl
    | 6 => .op .scf
    | _ => .op .ccf

/-- The quadrant x = 3 (R82), with the eleven unassigned bytes (R86) and the escape (R80). -/
def quadrant3 (op : Byte) (y z : Nat) (t : BitVec 3) : Opcode :=
  match z with
  | 0 =>
    match y with
    | 4 => .n8 .ldhA8A
    | 5 => .e8 .addSpE8
    | 6 => .n8 .ldhAA8
    | 7 => .e8 .ldHlSpE8
    | k => .op (.retCc (condOf k))
  | 1 =>
    match y with
    | 1 => .op .ret
    | 3 => .op .reti
    | 5 => .op .jpHl
    | 7 => .op .ldSpHl
    | k => .op (.popRr (pairOf (k / 2)))
  | 2 =>
    match y with
    | 4 => .op .ldhCA
    | 5 => .n16 .ldA16A
    | 6 => .op .ldhAC
    | 7 => .n16 .ldAA16
    | k => .n16 (.jpCcA16 (condOf k))
  | 3 =>
    match y with
    | 0 => .n16 .jpA16
    | 1 => .escape
    | 6 => .op .di
    | 7 => .op .ei
    | _ => .op (.unknown op)
  | 4 => if y < 4 then .n16 (.callCcA16 (condOf y)) else .op (.unknown op)
  | 5 =>
    match y with
    | 1 => .n16 .callA16
    | 3 => .op (.unknown op)
    | 5 => .op (.unknown op)
    | 7 => .op (.unknown op)
    | k => .op (.pushRr (pairOf (k / 2)))
  | 6 => .n8 (aluImmediate y)
  | _ => .op (.rstT t)

/-- The primary opcode map (R82, R83). -/
def primary (op : Byte) : Opcode :=
  let y := (midField op).toNat
  let z := (lowField op).toNat
  match (topField op).toNat with
  | 0 => quadrant0 y z (operand8 (midField op))
  | 1 => .op (loadBlock (operand8 (midField op)) (operand8 (lowField op)))
  | 2 => .op (aluBlock y (operand8 (lowField op)))
  | _ => quadrant3 op y z (midField op)

/-- The rotate, shift and swap group of the secondary map (R85, x = 0). -/
def shiftBlock (y : Nat) (o : Operand8) : Instr :=
  match o with
  | .reg r =>
    match y with
    | 0 => .rlcR r
    | 1 => .rrcR r
    | 2 => .rlR r
    | 3 => .rrR r
    | 4 => .slaR r
    | 5 => .sraR r
    | 6 => .swapR r
    | _ => .srlR r
  | .atHl =>
    match y with
    | 0 => .rlcHl
    | 1 => .rrcHl
    | 2 => .rlHl
    | 3 => .rrHl
    | 4 => .slaHl
    | 5 => .sraHl
    | 6 => .swapHl
    | _ => .srlHl

/-- The secondary opcode map (R85): every bitcode is assigned. -/
def secondary (bitcode : Byte) : Instr :=
  let b := midField bitcode
  match (topField bitcode).toNat, operand8 (lowField bitcode) with
  | 0, o => shiftBlock b.toNat o
  | 1, .reg r => .bitBR b r
  | 1, .atHl => .bitBHl b
  | 2, .reg r => .resBR b r
  | 2, .atHl => .resBHl b
  | _, .reg r => .setBR b r
  | _, .atHl => .setBHl b

/-! ## The decoder (R79) -/

/-- `decode()` of R79 over a pull source: `pull k` is the byte `k` places after the first one. It answers the instruction
and how many bytes it consumed, or the error of the first pull that fails; no byte is pulled that the format does not have. -/
def decodeFrom {ε : Type} (pull : Nat → Except ε Byte) : Except ε (Instr × Nat) :=
  match pull 0 with
  | .error e => .error e
  | .ok op =>
    match primary op with
    | .op i => .ok (i, 1)
    | .n8 k =>
      match pull 1 with
      | .error e => .error e
      | .ok n => .ok (k n, 2)
    | .e8 k =>
      match pull 1 with
      | .error e => .error e
      | .ok n => .ok (k n, 2)
    | .n16 k =>
      match pull 1 with
      | .error e => .error e
      | .ok lo =>
        match pull 2 with
        | .error e => .error e
        | .ok hi => .ok (k (wordOf hi lo), 3)
    | .escape =>
      match pull 1 with
      | .error e => .error e
      | .ok bitcode => .ok (secondary bitcode, 2)

/-- Why a list of bytes holds no whole instruction: every byte decodes to something (R88), so only the list can be too short. -/
inductive DecodeError where
  /-- The list ends before the byte at this place, which the instruction has. -/
  | truncated (place : Nat)
  deriving DecidableEq, Repr

/-- The pull source of a list of bytes. -/
def pullList (bytes : List Byte) (k : Nat) : Except DecodeError Byte :=
  match bytes[k]? with
  | some b => .ok b
  | none => .error (.truncated k)

/-- The decoder on a list of bytes: the instruction at its head and the bytes after it. -/
def decode (bytes : List Byte) : Except DecodeError (Instr × List Byte) :=
  match decodeFrom (pullList bytes) with
  | .ok (i, n) => .ok (i, bytes.drop n)
  | .error e => .error e

/-- `n` bytes of a number, bit 0 the least significant bit of the first. -/
def bytesOfNat : Nat → Nat → List Byte
  | 0, _ => []
  | n + 1, w => BitVec.ofNat 8 w :: bytesOfNat n (w / 256)

/-- The decoder on a table word: `nbits` bits of `w`, bit 0 the least significant bit of the FIRST byte, every later bit 0,
up to the three bytes of the longest instruction (R70). -/
def decodeTableWord (nbits w : Nat) : Option Instr :=
  match decode (bytesOfNat 3 (w % 2 ^ nbits)) with
  | .ok (i, _) => some i
  | .error _ => none

/-! ## The encoder -/

/-- The code of a register in table `R8` (R74). -/
def Reg8.code : Reg8 → BitVec 3
  | .b => 0#3
  | .c => 1#3
  | .d => 2#3
  | .e => 3#3
  | .h => 4#3
  | .l => 5#3
  | .a => 7#3

/-- The code of a register in table `RP` (R75). -/
def Reg16.code : Reg16 → BitVec 2
  | .bc => 0#2
  | .de => 1#2
  | .hl => 2#2
  | .sp => 3#2

/-- The code of a pair in table `RP2` (R76). -/
def Pair.code : Pair → BitVec 2
  | .bc => 0#2
  | .de => 1#2
  | .hl => 2#2
  | .af => 3#2

/-- The code of a condition in table `CC` (R77). -/
def Cond.code : Cond → BitVec 2
  | .nz => 0#2
  | .z => 1#2
  | .nc => 2#2
  | .c => 3#2

/-- The bytes of an instruction, by the pattern of bits of its row (the Encoding line of its rule). -/
def encode : Instr → List Byte
  | .nop => [0x00#8]
  | .ldA16Sp a16 => [0x08#8, loByte a16, hiByte a16]
  | .stop pad => [0x10#8, pad]
  | .jrE8 e8 => [0x18#8, e8]
  | .rlca => [0x07#8]
  | .rrca => [0x0F#8]
  | .rla => [0x17#8]
  | .rra => [0x1F#8]
  | .daa => [0x27#8]
  | .cpl => [0x2F#8]
  | .scf => [0x37#8]
  | .ccf => [0x3F#8]
  | .ldBcA => [0x02#8]
  | .ldDeA => [0x12#8]
  | .ldABc => [0x0A#8]
  | .ldADe => [0x1A#8]
  | .ldHliA => [0x22#8]
  | .ldAHli => [0x2A#8]
  | .ldHldA => [0x32#8]
  | .ldAHld => [0x3A#8]
  | .incHl => [0x34#8]
  | .decHl => [0x35#8]
  | .ldHlN8 n8 => [0x36#8, n8]
  | .halt => [0x76#8]
  | .addAHl => [0x86#8]
  | .adcAHl => [0x8E#8]
  | .subHl => [0x96#8]
  | .sbcAHl => [0x9E#8]
  | .andHl => [0xA6#8]
  | .xorHl => [0xAE#8]
  | .orHl => [0xB6#8]
  | .cpHl => [0xBE#8]
  | .addAN8 n8 => [0xC6#8, n8]
  | .adcAN8 n8 => [0xCE#8, n8]
  | .subN8 n8 => [0xD6#8, n8]
  | .sbcAN8 n8 => [0xDE#8, n8]
  | .andN8 n8 => [0xE6#8, n8]
  | .xorN8 n8 => [0xEE#8, n8]
  | .orN8 n8 => [0xF6#8, n8]
  | .cpN8 n8 => [0xFE#8, n8]
  | .jpA16 a16 => [0xC3#8, loByte a16, hiByte a16]
  | .ret => [0xC9#8]
  | .prefixCb bitcode => [0xCB#8, bitcode]
  | .callA16 a16 => [0xCD#8, loByte a16, hiByte a16]
  | .reti => [0xD9#8]
  | .ldhA8A a8 => [0xE0#8, a8]
  | .ldhAA8 a8 => [0xF0#8, a8]
  | .ldhCA => [0xE2#8]
  | .ldhAC => [0xF2#8]
  | .addSpE8 e8 => [0xE8#8, e8]
  | .ldHlSpE8 e8 => [0xF8#8, e8]
  | .jpHl => [0xE9#8]
  | .ldSpHl => [0xF9#8]
  | .ldA16A a16 => [0xEA#8, loByte a16, hiByte a16]
  | .ldAA16 a16 => [0xFA#8, loByte a16, hiByte a16]
  | .di => [0xF3#8]
  | .ei => [0xFB#8]
  | .unknown op => [op]
  | .jrCcE8 cc e8 => [0b001#3 ++ cc.code ++ 0b000#3, e8]
  | .ldRrN16 rr n16 => [0b00#2 ++ rr.code ++ 0b0001#4, loByte n16, hiByte n16]
  | .incRr rr => [0b00#2 ++ rr.code ++ 0b0011#4]
  | .decRr rr => [0b00#2 ++ rr.code ++ 0b1011#4]
  | .addHlRr rr => [0b00#2 ++ rr.code ++ 0b1001#4]
  | .incR r => [0b00#2 ++ r.code ++ 0b100#3]
  | .decR r => [0b00#2 ++ r.code ++ 0b101#3]
  | .ldRN8 r n8 => [0b00#2 ++ r.code ++ 0b110#3, n8]
  | .ldRHl r => [0b01#2 ++ r.code ++ 0b110#3]
  | .ldHlR r => [0b01110#5 ++ r.code]
  | .ldRR dst src => [0b01#2 ++ dst.code ++ src.code]
  | .addAR r => [0b10000#5 ++ r.code]
  | .adcAR r => [0b10001#5 ++ r.code]
  | .subR r => [0b10010#5 ++ r.code]
  | .sbcAR r => [0b10011#5 ++ r.code]
  | .andR r => [0b10100#5 ++ r.code]
  | .xorR r => [0b10101#5 ++ r.code]
  | .orR r => [0b10110#5 ++ r.code]
  | .cpR r => [0b10111#5 ++ r.code]
  | .retCc cc => [0b110#3 ++ cc.code ++ 0b000#3]
  | .jpCcA16 cc a16 => [0b110#3 ++ cc.code ++ 0b010#3, loByte a16, hiByte a16]
  | .callCcA16 cc a16 => [0b110#3 ++ cc.code ++ 0b100#3, loByte a16, hiByte a16]
  | .popRr rr => [0b11#2 ++ rr.code ++ 0b0001#4]
  | .pushRr rr => [0b11#2 ++ rr.code ++ 0b0101#4]
  | .rstT t => [0b11#2 ++ t ++ 0b111#3]
  | .rlcHl => [0xCB#8, 0x06#8]
  | .rrcHl => [0xCB#8, 0x0E#8]
  | .rlHl => [0xCB#8, 0x16#8]
  | .rrHl => [0xCB#8, 0x1E#8]
  | .slaHl => [0xCB#8, 0x26#8]
  | .sraHl => [0xCB#8, 0x2E#8]
  | .swapHl => [0xCB#8, 0x36#8]
  | .srlHl => [0xCB#8, 0x3E#8]
  | .rlcR r => [0xCB#8, 0b00000#5 ++ r.code]
  | .rrcR r => [0xCB#8, 0b00001#5 ++ r.code]
  | .rlR r => [0xCB#8, 0b00010#5 ++ r.code]
  | .rrR r => [0xCB#8, 0b00011#5 ++ r.code]
  | .slaR r => [0xCB#8, 0b00100#5 ++ r.code]
  | .sraR r => [0xCB#8, 0b00101#5 ++ r.code]
  | .swapR r => [0xCB#8, 0b00110#5 ++ r.code]
  | .srlR r => [0xCB#8, 0b00111#5 ++ r.code]
  | .bitBHl b => [0xCB#8, 0b01#2 ++ b ++ 0b110#3]
  | .resBHl b => [0xCB#8, 0b10#2 ++ b ++ 0b110#3]
  | .setBHl b => [0xCB#8, 0b11#2 ++ b ++ 0b110#3]
  | .bitBR b r => [0xCB#8, 0b01#2 ++ b ++ r.code]
  | .resBR b r => [0xCB#8, 0b10#2 ++ b ++ r.code]
  | .setBR b r => [0xCB#8, 0b11#2 ++ b ++ r.code]

end Sys2Proof
end

