-- ==== Sys2Proof/Config.lean ====
section
/-! DEFINITION. The constants of a run (spec/00_scope.md R6, spec/70_reset_and_hazards.md R308) and how a byte store is written down. -/

namespace Sys2Proof

/-- A byte store, written down sparsely: (address, byte) pairs, addresses strictly rising, no entry equal to
`unlistedByte`. The form is `Memory.wf` (Machine/Ops.lean). -/
abbrev Memory := List Host.Cell

/-- What an address that a store does not list reads as, the ONE definition of it.
DESIGN CHOICE (log 1, unsafe): the spec leaves the launch contents of RAM and of the two images open (R6, R30);
any contents can be listed, so a claim about every state assumes nothing of them. -/
def unlistedByte : Byte := 0x00#8

/-- The three constants of the configuration (R308): no instruction can change them. -/
structure Config where
  /-- `BOOT_OVERLAY_LIVE` (R45): the boot overlay, not the cartridge, answers 0x0000-0x00FF. -/
  bootOverlayLive : Bool
  /-- `BOOT_IMAGE` (R42): the 256 bytes of the overlay, keyed by address. -/
  bootImage : Memory
  /-- `CART_ROM` (R43): the 16384 bytes of the cartridge window, keyed by address. -/
  cartRom : Memory
  deriving DecidableEq, Repr

/-- The configuration that `State.reset` is built with. DESIGN CHOICE (log 2 and log 3, unsafe): the spec gives none of the three. -/
def Config.initial : Config := { bootOverlayLive := false, bootImage := [], cartRom := [] }

/-- `RESET_PC` (R6, R32): the first address of working RAM. -/
def Config.resetPc : Word := 0xC000#16

end Sys2Proof
end

