-- ==== Sys2Proof/Machine/State.lean ====
section
/-! DEFINITION. The whole state of the machine (spec/10_state.md), its fault records, its refusals, and the state after reset. -/

namespace Sys2Proof.Machine

/-- The kind of a byte access (spec/60_exceptions.md R261). -/
inductive AccessKind where
  | read | write
  deriving DecidableEq, Repr

/-- The fault record (R261): the two fatal events, and nothing else. -/
inductive Fault where
  /-- Raised by the Router (`State.read8`, `State.write8`) for every byte access it cannot serve: a fetch, a load, a store,
  a stack access (R262). `addr` is the address of the byte that failed. It is the spec's own event, so stopping is safe. -/
  | addressFault (addr : Word) (kind : AccessKind)
  /-- Raised by `execUnknown` for an unassigned opcode byte, with that byte and its address (R263, spec/47_system.md R246).
  It is the spec's own event, so stopping is safe. -/
  | unknownInstructionFault (bytes : List Byte) (pc0 : Word)
  deriving DecidableEq, Repr

/-- Why the model has no meaning for an instruction. -/
inductive Refusal where
  /-- Raised by `exec` alone, in the arm of an instruction that has no meaning yet; safe. No arm raises it now. -/
  | notModelled (mnemonic : String)
  deriving DecidableEq, Repr

/-- The run state (spec/10_state.md R22). The last three are absorbing. -/
inductive RunState where
  | running
  | halted
  | stopped
  | faulted (f : Fault)
  deriving DecidableEq, Repr

/-- The state tuple at the head of spec/10_state.md, with the three constants of the configuration. -/
structure State where
  /-- The accumulator (R10). -/
  a : Byte
  /-- The flag cell (R14): Z bit 7, N bit 6, H bit 5, C bit 4; bits 3:0 plain storage (R16). -/
  f : Byte
  b : Byte
  c : Byte
  d : Byte
  e : Byte
  h : Byte
  l : Byte
  /-- The stack pointer (R17). -/
  sp : Word
  /-- The program counter (R18). -/
  pc : Word
  /-- The interrupt master enable latch (R20). -/
  ime : Bool
  /-- The delay latch of EI (R21). -/
  imePending : Bool
  /-- The run state (R22). -/
  run : RunState
  /-- `vram` and `wram` (R25), keyed by address. -/
  mem : Memory
  /-- `BOOT_IMAGE`, `CART_ROM` and `BOOT_OVERLAY_LIVE` (spec/00_scope.md R6). -/
  config : Config
  deriving DecidableEq, Repr

/-- The state in which the first `tick` after reset runs (spec/70_reset_and_hazards.md R290, R291): the fixed values of
every register and latch, over the launch parameters `config` and `mem` (`VRAM_INIT` and `WRAM_INIT`). -/
def State.launch (config : Config) (mem : Memory) : State :=
  { a := 0x00#8, f := 0x00#8, b := 0x00#8, c := 0x00#8, d := 0x00#8, e := 0x00#8, h := 0x00#8, l := 0x00#8,
    sp := 0x0000#16, pc := Config.resetPc, ime := false, imePending := false, run := .running,
    mem := mem, config := config }

/-- The machine right after reset, no program loaded. DESIGN CHOICE (log 1, 2 and 3, unsafe): the launch parameters, which
the spec leaves open, are the ones where nothing is listed. -/
def State.reset : State := State.launch Config.initial []

/-- A reset of the CPU state (R290, spec/10_state.md R30): `vram`, `wram` and the configuration stay as they are. -/
def State.resetCpu (s : State) : State := State.launch s.config s.mem

end Sys2Proof.Machine
end

