-- ==== Sys2Proof/Machine/Ops.lean ====
section
/-! DEFINITION. The named operations over memory, registers and the stack, raising a fault, and the two ends of a tick. -/

namespace Sys2Proof

/-! ## Byte stores -/

/-- The canonical form: addresses strictly rising, no entry that an unlisted address would read as. -/
def Memory.wf : Memory → Bool
  | [] => true
  | (k, v) :: rest => v != unlistedByte && rest.all (fun entry => k < entry.1) && Memory.wf rest

/-- The byte at an address of a store. -/
def Memory.read : Memory → Nat → Byte
  | [], _ => unlistedByte
  | (k, v) :: rest, a => if k = a then v else Memory.read rest a

/-- The store without any entry for an address. -/
def Memory.erase (m : Memory) (a : Nat) : Memory := m.filter (fun entry => entry.1 != a)

/-- The store with an entry put before the first entry of a higher address. -/
def Memory.insert : Memory → Nat → Byte → Memory
  | [], a, v => [(a, v)]
  | (k, x) :: rest, a, v => if a < k then (a, v) :: (k, x) :: rest else (k, x) :: Memory.insert rest a v

/-- The store with one byte written, in canonical form again: a byte that an unlisted address reads as is left out. -/
def Memory.write (m : Memory) (a : Nat) (v : Byte) : Memory :=
  if v = unlistedByte then m.erase a else (m.erase a).insert a v

/-- The store that holds the bytes of an image from an address on. -/
def Memory.ofBytes : Nat → List Byte → Memory
  | _, [] => []
  | a, v :: rest =>
    if v = unlistedByte then Memory.ofBytes (a + 1) rest else (a, v) :: Memory.ofBytes (a + 1) rest

/-- Every listed address has a property: what keeps a store inside its region. -/
def Memory.within (p : Nat → Bool) (m : Memory) : Bool := m.all (fun entry => p entry.1)

end Sys2Proof

namespace Sys2Proof.Machine

/-- What a step or a meaning answers. -/
abbrev Result := Host.Outcome State Fault Refusal

/-! ## Raising a fault (spec/60_exceptions.md R264, R273) -/

/-- `raise f`: the tick stops here and reports `f`. Nothing is saved, no vector is read, control leaves the machine (R273). The
outcome carries `f` alone, as R265 allows: no other part of the state after a fault is defined (log 4). -/
def raise (f : Fault) : Result := .fault f

/-- The run state after `raise f` (R264): the only part of the state after a fault that is defined (R265). -/
def State.withFault (s : State) (f : Fault) : State := { s with run := .faulted f }

/-! ## Registers (spec/10_state.md R10 to R12, R17) -/

/-- `x[r]` (R7, R10). -/
def State.cell (s : State) : Cell → Byte
  | .a => s.a
  | .f => s.f
  | .b => s.b
  | .c => s.c
  | .d => s.d
  | .e => s.e
  | .h => s.h
  | .l => s.l

/-- `x[r] <- v` (R7, R10). -/
def State.setCell (s : State) (r : Cell) (v : Byte) : State :=
  match r with
  | .a => { s with a := v }
  | .f => { s with f := v }
  | .b => { s with b := v }
  | .c => { s with c := v }
  | .d => { s with d := v }
  | .e => { s with e := v }
  | .h => { s with h := v }
  | .l => { s with l := v }

/-- The high half of a pair (R11). -/
def pairHi : Pair → Cell
  | .bc => .b
  | .de => .d
  | .hl => .h
  | .af => .a

/-- The low half of a pair (R11). -/
def pairLo : Pair → Cell
  | .bc => .c
  | .de => .e
  | .hl => .l
  | .af => .f

/-- `xx[p]` (R11): the high half in the more significant position. -/
def State.pair (s : State) (p : Pair) : Word := wordOf (s.cell (pairHi p)) (s.cell (pairLo p))

/-- `xx[p] <- v` (R12): all 8 bits of each half are stored. -/
def State.setPair (s : State) (p : Pair) (v : Word) : State :=
  (s.setCell (pairHi p) (hiByte v)).setCell (pairLo p) (loByte v)

/-- `sp <- v` (R17). -/
def State.setSp (s : State) (v : Word) : State := { s with sp := v }

/-- `pc <- v` (R18). -/
def State.setPc (s : State) (v : Word) : State := { s with pc := v }

/-! ## The Router (spec/20_memory.md R40 to R50) -/

/-- The four regions of the address map (R41). -/
inductive Region where
  | boot | rom | vram | wram
  deriving DecidableEq, Repr

/-- The region selector (R41), as a function of BOOT_OVERLAY_LIVE and the address. -/
def region (live : Bool) (addr : Word) : Option Region :=
  let n := addr.toNat
  if n ≤ 0x00FF ∧ live = true then some .boot
  else if n ≤ 0x3FFF then some .rom
  else if 0x8000 ≤ n ∧ n ≤ 0x9FFF then some .vram
  else if 0xC000 ≤ n ∧ n ≤ 0xDFFF then some .wram
  else none

/-- The region that answers an address in a state. -/
def State.regionOf (s : State) (addr : Word) : Option Region := region s.config.bootOverlayLive addr

/-- `MemRead(addr, 1)` (R47): an unmapped address raises (R44). -/
def State.read8 (s : State) (addr : Word) : Except Fault Byte :=
  match s.regionOf addr with
  | some .boot => .ok (s.config.bootImage.read addr.toNat)
  | some .rom => .ok (s.config.cartRom.read addr.toNat)
  | some .vram => .ok (s.mem.read addr.toNat)
  | some .wram => .ok (s.mem.read addr.toNat)
  | none => .error (.addressFault addr .read)

/-- `MemWrite(addr, 1, v)` (R48): a read-only (R46) or unmapped (R44) address raises and nothing changes. -/
def State.write8 (s : State) (addr : Word) (v : Byte) : Except Fault State :=
  match s.regionOf addr with
  | some .vram => .ok { s with mem := s.mem.write addr.toNat v }
  | some .wram => .ok { s with mem := s.mem.write addr.toNat v }
  | some .boot => .error (.addressFault addr .write)
  | some .rom => .error (.addressFault addr .write)
  | none => .error (.addressFault addr .write)

/-- `MemRead(addr, 2)` (R49): the byte at `addr` first; `addr + 1` is taken modulo 65536. -/
def State.read16 (s : State) (addr : Word) : Except Fault Word :=
  match s.read8 addr with
  | .error f => .error f
  | .ok lo =>
    match s.read8 (addr + 1#16) with
    | .error f => .error f
    | .ok hi => .ok (wordOf hi lo)

/-- `MemWrite(addr, 2, v)` (R50): the low byte at `addr` first. -/
def State.write16 (s : State) (addr : Word) (v : Word) : Except Fault State :=
  match s.write8 addr (loByte v) with
  | .error f => .error f
  | .ok t => t.write8 (addr + 1#16) (hiByte v)

/-! ## Accesses of an instruction: each ends the tick on a fault (R264) -/

/-- Read a byte and go on with it. -/
def loadByte (s : State) (addr : Word) (k : Byte → Result) : Result :=
  match s.read8 addr with
  | .ok v => k v
  | .error f => raise f

/-- Read a word and go on with it. -/
def loadWord (s : State) (addr : Word) (k : Word → Result) : Result :=
  match s.read16 addr with
  | .ok v => k v
  | .error f => raise f

/-- Write a byte and go on in the state after it. -/
def storeByte (s : State) (addr : Word) (v : Byte) (k : State → Result) : Result :=
  match s.write8 addr v with
  | .ok t => k t
  | .error f => raise f

/-- Write a word and go on in the state after it. -/
def storeWord (s : State) (addr : Word) (v : Word) (k : State → Result) : Result :=
  match s.write16 addr v with
  | .ok t => k t
  | .error f => raise f

/-- The read-modify-write of the byte at HL: the read, then the write to the same address (spec/44_rotate_shift.md R202,
spec/60_exceptions.md R272 step 4); `k` goes on with the old byte in the state after the write. -/
def modifyAtHl (s : State) (g : Byte → Byte) (k : Byte → State → Result) : Result :=
  loadByte s (s.pair .hl) fun v => storeByte s (s.pair .hl) (g v) fun t => k v t

/-- A push (spec/41_load16_stack.md R136): `sp` down by 2 first, then the value at the new `sp`. -/
def pushWord (s : State) (v : Word) (k : State → Result) : Result :=
  storeWord (s.setSp (s.sp - 2#16)) (s.sp - 2#16) v k

/-- A pop (R137): the value at `sp`, then `sp` up by 2. -/
def popWord (s : State) (k : Word → State → Result) : Result :=
  loadWord s s.sp fun v => k v (s.setSp (s.sp + 2#16))

/-! ## Immediates (spec/00_scope.md R7, spec/30_encoding.md R72) -/

/-- `sext_16(b)`: two's-complement sign extension. -/
def signExtend8 (v : Byte) : Word := v.signExtend 16

/-- The high-page address `0xFF00 + b` (R72). -/
def highPage (v : Byte) : Word := wordOf 0xFF#8 v

/-! ## The two ends of a tick (spec/70_reset_and_hazards.md R296) -/

/-- Steps 2 and 5: `ime_pending` is taken down and `pc` advanced over the `n` bytes of the instruction. -/
def State.beginTick (s : State) (n : Nat) : State :=
  { s with pc := s.pc + BitVec.ofNat 16 n, imePending := false }

/-- Whether an instruction cancels the transfer of an EI before it (step 7; spec/47_system.md R243). -/
def cancelsEi (i : Instr) : Bool :=
  match i with
  | .di => true
  | _ => false

/-- Step 7: the transfer of `ime_pending`, as it stood when the tick began, into `ime`. -/
def commitEi (pending : Bool) (i : Instr) (t : State) : State :=
  if pending && !cancelsEi i then { t with ime := true } else t

/-- Step 7 on an answer: a fault skips it (R264). -/
def finishTick (pending : Bool) (i : Instr) (r : Result) : Result :=
  match r with
  | .next t => .next (commitEi pending i t)
  | .fault f => .fault f
  | .refused why => .refused why

/-- The pull source of a tick (spec/30_encoding.md R79, spec/20_memory.md R61): the byte `k` places after `pc`. -/
def State.pull (s : State) (k : Nat) : Except Fault Byte := s.read8 (s.pc + BitVec.ofNat 16 k)

/-! ## Construction of the Router (spec/70_reset_and_hazards.md R291): launch parameters, not effects of a tick -/

/-- A byte put into the store that answers an address, the read-only ones among them: how a launch image is built. -/
def State.place (s : State) (addr : Word) (v : Byte) : State :=
  match s.regionOf addr with
  | some .boot => { s with config := { s.config with bootImage := s.config.bootImage.write addr.toNat v } }
  | some .rom => { s with config := { s.config with cartRom := s.config.cartRom.write addr.toNat v } }
  | some .vram => { s with mem := s.mem.write addr.toNat v }
  | some .wram => { s with mem := s.mem.write addr.toNat v }
  | none => s

/-- Bytes put at rising addresses. -/
def State.placeAll (s : State) (addr : Word) : List Byte → State
  | [] => s
  | v :: rest => (s.place addr v).placeAll (addr + 1#16) rest

/-- Whether `n` addresses from `addr` on are all answered by some region. -/
def State.mapped (s : State) (addr : Word) (n : Nat) : Bool :=
  (List.range n).all fun k => (s.regionOf (addr + BitVec.ofNat 16 k)).isSome

/-- The launch state of five images (R6, R291), refused (`none`) unless each has exactly its size (U9, log 5). -/
def State.ofImages (live : Bool) (boot rom vramInit wramInit : List Byte) : Option State :=
  if boot.length = 256 ∧ rom.length = 16384 ∧ vramInit.length = 8192 ∧ wramInit.length = 8192 then
    some (State.launch
      { bootOverlayLive := live, bootImage := Memory.ofBytes 0 boot, cartRom := Memory.ofBytes 0 rom }
      (Memory.ofBytes 0x8000 vramInit ++ Memory.ofBytes 0xC000 wramInit))
  else none

end Sys2Proof.Machine
end

