-- ==== Sys2Proof/Machine/Operands.lean ====
section
/-! DEFINITION. The operand forms of the instructions (spec/30_encoding.md R74, R75, R78) over the register cells. -/

namespace Sys2Proof.Machine

/-- The cell a register operand of table `R8` names (R74). -/
def cellOf : Reg8 → Cell
  | .b => .b
  | .c => .c
  | .d => .d
  | .e => .e
  | .h => .h
  | .l => .l
  | .a => .a

/-- `x[r]` of a register operand. -/
def State.reg (s : State) (r : Reg8) : Byte := s.cell (cellOf r)

/-- `x[r] <- v` of a register operand. -/
def State.setReg (s : State) (r : Reg8) (v : Byte) : State := s.setCell (cellOf r) v

/-- `val(rr)` (spec/43_alu16.md R184): `sp` when rr is SP, the pair otherwise. -/
def State.val (s : State) : Reg16 → Word
  | .bc => s.pair .bc
  | .de => s.pair .de
  | .hl => s.pair .hl
  | .sp => s.sp

/-- `set(rr, v)` (R184). -/
def State.setVal (s : State) (rr : Reg16) (v : Word) : State :=
  match rr with
  | .bc => s.setPair .bc v
  | .de => s.setPair .de v
  | .hl => s.setPair .hl v
  | .sp => s.setSp v

/-- `read8(o)` (R78). -/
def State.readOperand (s : State) (o : Operand8) : Except Fault Byte :=
  match o with
  | .reg r => .ok (s.reg r)
  | .atHl => s.read8 (s.pair .hl)

/-- `write8(o, v)` (R78). -/
def State.writeOperand (s : State) (o : Operand8) (v : Byte) : Except Fault State :=
  match o with
  | .reg r => .ok (s.setReg r v)
  | .atHl => s.write8 (s.pair .hl) v

/-- The target of a relative jump (spec/46_control.md R223): the displacement added to the already-advanced `pc`. -/
def State.relative (s : State) (e8 : Byte) : Word := s.pc + signExtend8 e8

/-- The target of `RST` (R232): `8 * ttt`. -/
def restartTarget (t : BitVec 3) : Word := BitVec.ofNat 16 (8 * t.toNat)

end Sys2Proof.Machine
end

