-- ==== Sys2Proof/Machine/Flags.lean ====
section
/-! DEFINITION. The flags (spec/10_state.md R14 to R16), the conditions (spec/30_encoding.md R77) and every flag computation of the instruction rules, on unbounded integers as the spec writes them (spec/42_alu8.md R167). -/

namespace Sys2Proof.Machine

/-! ## Reading and writing one flag (R14, R15) -/

/-- The bit of F that holds a flag (R14). -/
def flagBit : Flag → Nat
  | .z => 7
  | .n => 6
  | .h => 5
  | .c => 4

/-- The byte with only a flag's bit set. -/
def flagMask (g : Flag) : Byte := 1#8 <<< flagBit g

/-- A truth value as the number 0 or 1. -/
def bitOf (v : Bool) : Byte := if v then 1#8 else 0#8

/-- `F.g` (R15). -/
def State.flag (s : State) (g : Flag) : Bool := s.f.getLsbD (flagBit g)

/-- `F.g <- v` (R15): that bit of F and no other. -/
def State.setFlag (s : State) (g : Flag) (v : Bool) : State :=
  { s with f := (s.f &&& ~~~flagMask g) ||| (bitOf v <<< flagBit g) }

/-- The four flag writes of an instruction that writes Z, N, H and C. -/
def State.setFlags (s : State) (z n h c : Bool) : State :=
  (((s.setFlag .z z).setFlag .n n).setFlag .h h).setFlag .c c

/-- The three flag writes of an instruction that writes Z, N and H. -/
def State.setZNH (s : State) (z n h : Bool) : State :=
  ((s.setFlag .z z).setFlag .n n).setFlag .h h

/-- The three flag writes of an instruction that writes N, H and C. -/
def State.setNHC (s : State) (n h c : Bool) : State :=
  ((s.setFlag .n n).setFlag .h h).setFlag .c c

/-- `cond(cc)` (R77). -/
def State.cond (s : State) : Cond → Bool
  | .nz => !s.flag .z
  | .z => s.flag .z
  | .nc => !s.flag .c
  | .c => s.flag .c

/-! ## Flag computations -/

/-- Zero of a byte result. -/
def isZero (v : Byte) : Bool := v == 0#8

/-- Half-Carry of `a + v + c` (R150, R151): out of bit 3. -/
def addHalf (a v : Byte) (c : Bool) : Bool := decide (a.toNat % 16 + v.toNat % 16 + c.toNat > 0x0F)

/-- Carry of `a + v + c` (R150, R151): out of bit 7. -/
def addCarry (a v : Byte) (c : Bool) : Bool := decide (a.toNat + v.toNat + c.toNat > 0xFF)

/-- Half-Carry of `a - v - c` (R152, R153): a borrow into bit 3. -/
def subHalf (a v : Byte) (c : Bool) : Bool := decide (a.toNat % 16 < v.toNat % 16 + c.toNat)

/-- Carry of `a - v - c` (R152, R153): the comparison does not wrap `v + c`. -/
def subCarry (a v : Byte) (c : Bool) : Bool := decide (a.toNat < v.toNat + c.toNat)

/-- Half-Carry of an increment (R158), from the low nibble before it. -/
def incHalf (v : Byte) : Bool := decide (v.toNat % 16 = 0x0F)

/-- Half-Carry of a decrement (R160), from the low nibble before it. -/
def decHalf (v : Byte) : Bool := decide (v.toNat % 16 = 0x00)

/-- Half-Carry of `ADD HL,rr` (R180): out of bit 11. -/
def addHalf16 (h v : Word) : Bool := decide (h.toNat % 4096 + v.toNat % 4096 > 0x0FFF)

/-- Carry of `ADD HL,rr` (R180): out of bit 15. -/
def addCarry16 (h v : Word) : Bool := decide (h.toNat + v.toNat > 0xFFFF)

/-- Half-Carry of `sp + e8` (R133, R183): the unsigned addition of the low nibbles. -/
def spHalf (sp : Word) (e8 : Byte) : Bool := decide (sp.toNat % 16 + e8.toNat % 16 > 0x0F)

/-- Carry of `sp + e8` (R133, R183): the unsigned addition of the low bytes. -/
def spCarry (sp : Word) (e8 : Byte) : Bool := decide (sp.toNat % 256 + e8.toNat > 0xFF)

end Sys2Proof.Machine
end

