-- ==== Sys2Proof/Machine/Load16.lean ====
section
/-! DEFINITION. The 16-bit loads, PUSH and POP (spec/41_load16_stack.md R130 to R138). -/

namespace Sys2Proof.Machine

/-- `sp + sext_16(e8)`, the sum of `LD HL,SP+e8` and `ADD SP,e8` (R133, spec/43_alu16.md R183). -/
def spPlus (s : State) (e8 : Byte) : Word := s.sp + signExtend8 e8

/-- Their flags: Z = 0, N = 0, H and C of the unsigned low-byte addition, from `sp` before it is written. -/
def setSpFlags (s : State) (e8 : Byte) (t : State) : State :=
  t.setFlags false false (spHalf s.sp e8) (spCarry s.sp e8)

/-- `LD rr,n16` (R130). -/
def execLdRrN16 (rr : Reg16) (n16 : Word) (s : State) : Result := .next (s.setVal rr n16)

/-- `LD (a16),SP` (R131): the low byte to `a16`, then the high byte to `a16 + 1`. -/
def execLdA16Sp (a16 : Word) (s : State) : Result := storeWord s a16 s.sp fun t => .next t

/-- `LD SP,HL` (R132). -/
def execLdSpHl (s : State) : Result := .next (s.setSp (s.pair .hl))

/-- `LD HL,SP+e8` (R133). -/
def execLdHlSpE8 (e8 : Byte) (s : State) : Result :=
  .next ((setSpFlags s e8 s).setPair .hl (spPlus s e8))

/-- `PUSH rr` (R136). -/
def execPushRr (rr : Pair) (s : State) : Result := pushWord s (s.pair rr) fun t => .next t

/-- `POP rr` (R137): POP AF loads all 8 bits of F. -/
def execPopRr (rr : Pair) (s : State) : Result := popWord s fun v t => .next (t.setPair rr v)

end Sys2Proof.Machine
end

