-- ==== Sys2Proof/Machine/Alu16.lean ====
section
/-! DEFINITION. The 16-bit arithmetic instructions (spec/43_alu16.md R180 to R184). None touches memory. -/

namespace Sys2Proof.Machine

/-- `ADD HL,rr` (R180): Z is not written. -/
def execAddHlRr (rr : Reg16) (s : State) : Result :=
  let h := s.pair .hl
  let v := s.val rr
  .next ((s.setPair .hl (h + v)).setNHC false (addHalf16 h v) (addCarry16 h v))

/-- `INC rr` (R181): no flag. -/
def execIncRr (rr : Reg16) (s : State) : Result := .next (s.setVal rr (s.val rr + 1#16))

/-- `DEC rr` (R182): no flag. -/
def execDecRr (rr : Reg16) (s : State) : Result := .next (s.setVal rr (s.val rr - 1#16))

/-- `ADD SP,e8` (R183): the flags are computed from `sp` before it is written. -/
def execAddSpE8 (e8 : Byte) (s : State) : Result :=
  .next ((setSpFlags s e8 s).setSp (spPlus s e8))

end Sys2Proof.Machine
end

