-- ==== Sys2Proof/Machine/Alu8.lean ====
section
/-! DEFINITION. The 8-bit arithmetic and logic instructions (spec/42_alu8.md R150 to R167). -/

namespace Sys2Proof.Machine

/-! ## The eight operations on the accumulator, on a state and the second operand `v` (R166) -/

/-- ADD (R150). -/
def aluAdd (v : Byte) (s : State) : State :=
  let r := s.a + v
  (s.setCell .a r).setFlags (isZero r) false (addHalf s.a v false) (addCarry s.a v false)

/-- ADC (R151): the carry-in is the Carry flag before the instruction. -/
def aluAdc (v : Byte) (s : State) : State :=
  let c := s.flag .c
  let r := s.a + v + bitOf c
  (s.setCell .a r).setFlags (isZero r) false (addHalf s.a v c) (addCarry s.a v c)

/-- The flags of SUB and CP (R152, R157). -/
def setSubFlags (v : Byte) (s : State) (t : State) : State :=
  t.setFlags (isZero (s.a - v)) true (subHalf s.a v false) (subCarry s.a v false)

/-- SUB (R152). -/
def aluSub (v : Byte) (s : State) : State := setSubFlags v s (s.setCell .a (s.a - v))

/-- SBC (R153): the borrow-in takes part in both H and C. -/
def aluSbc (v : Byte) (s : State) : State :=
  let c := s.flag .c
  let r := s.a - v - bitOf c
  (s.setCell .a r).setFlags (isZero r) true (subHalf s.a v c) (subCarry s.a v c)

/-- AND (R154). -/
def aluAnd (v : Byte) (s : State) : State :=
  let r := s.a &&& v
  (s.setCell .a r).setFlags (isZero r) false true false

/-- XOR (R155). -/
def aluXor (v : Byte) (s : State) : State :=
  let r := s.a ^^^ v
  (s.setCell .a r).setFlags (isZero r) false false false

/-- OR (R156). -/
def aluOr (v : Byte) (s : State) : State :=
  let r := s.a ||| v
  (s.setCell .a r).setFlags (isZero r) false false false

/-- CP (R157): the flags of SUB, A unchanged. -/
def aluCp (v : Byte) (s : State) : State := setSubFlags v s s

/-- The `(HL)` form of an operation: the operand is read before A or any flag is written (R166). -/
def aluAtHl (op : Byte → State → State) (s : State) : Result :=
  loadByte s (s.pair .hl) fun v => .next (op v s)

/-- `ADD A,r` (R150). -/
def execAddAR (r : Reg8) (s : State) : Result := .next (aluAdd (s.reg r) s)
/-- `ADD A,(HL)` (R150). -/
def execAddAHl (s : State) : Result := aluAtHl aluAdd s
/-- `ADD A,n8` (R150). -/
def execAddAN8 (n8 : Byte) (s : State) : Result := .next (aluAdd n8 s)

/-- `ADC A,r` (R151). -/
def execAdcAR (r : Reg8) (s : State) : Result := .next (aluAdc (s.reg r) s)
/-- `ADC A,(HL)` (R151). -/
def execAdcAHl (s : State) : Result := aluAtHl aluAdc s
/-- `ADC A,n8` (R151). -/
def execAdcAN8 (n8 : Byte) (s : State) : Result := .next (aluAdc n8 s)

/-- `SUB r` (R152). -/
def execSubR (r : Reg8) (s : State) : Result := .next (aluSub (s.reg r) s)
/-- `SUB (HL)` (R152). -/
def execSubHl (s : State) : Result := aluAtHl aluSub s
/-- `SUB n8` (R152). -/
def execSubN8 (n8 : Byte) (s : State) : Result := .next (aluSub n8 s)

/-- `SBC A,r` (R153). -/
def execSbcAR (r : Reg8) (s : State) : Result := .next (aluSbc (s.reg r) s)
/-- `SBC A,(HL)` (R153). -/
def execSbcAHl (s : State) : Result := aluAtHl aluSbc s
/-- `SBC A,n8` (R153). -/
def execSbcAN8 (n8 : Byte) (s : State) : Result := .next (aluSbc n8 s)

/-- `AND r` (R154). -/
def execAndR (r : Reg8) (s : State) : Result := .next (aluAnd (s.reg r) s)
/-- `AND (HL)` (R154). -/
def execAndHl (s : State) : Result := aluAtHl aluAnd s
/-- `AND n8` (R154). -/
def execAndN8 (n8 : Byte) (s : State) : Result := .next (aluAnd n8 s)

/-- `XOR r` (R155). -/
def execXorR (r : Reg8) (s : State) : Result := .next (aluXor (s.reg r) s)
/-- `XOR (HL)` (R155). -/
def execXorHl (s : State) : Result := aluAtHl aluXor s
/-- `XOR n8` (R155). -/
def execXorN8 (n8 : Byte) (s : State) : Result := .next (aluXor n8 s)

/-- `OR r` (R156). -/
def execOrR (r : Reg8) (s : State) : Result := .next (aluOr (s.reg r) s)
/-- `OR (HL)` (R156). -/
def execOrHl (s : State) : Result := aluAtHl aluOr s
/-- `OR n8` (R156). -/
def execOrN8 (n8 : Byte) (s : State) : Result := .next (aluOr n8 s)

/-- `CP r` (R157). -/
def execCpR (r : Reg8) (s : State) : Result := .next (aluCp (s.reg r) s)
/-- `CP (HL)` (R157). -/
def execCpHl (s : State) : Result := aluAtHl aluCp s
/-- `CP n8` (R157). -/
def execCpN8 (n8 : Byte) (s : State) : Result := .next (aluCp n8 s)

/-! ## Increment and decrement: C is not written (R158 to R161) -/

/-- The flags of an increment of `v`. -/
def setIncFlags (v : Byte) (t : State) : State := t.setZNH (isZero (v + 1#8)) false (incHalf v)

/-- The flags of a decrement of `v`. -/
def setDecFlags (v : Byte) (t : State) : State := t.setZNH (isZero (v - 1#8)) true (decHalf v)

/-- `INC r` (R158). -/
def execIncR (r : Reg8) (s : State) : Result :=
  .next (setIncFlags (s.reg r) (s.setReg r (s.reg r + 1#8)))

/-- `INC (HL)` (R159). -/
def execIncHl (s : State) : Result :=
  modifyAtHl s (fun v => v + 1#8) fun v t => .next (setIncFlags v t)

/-- `DEC r` (R160). -/
def execDecR (r : Reg8) (s : State) : Result :=
  .next (setDecFlags (s.reg r) (s.setReg r (s.reg r - 1#8)))

/-- `DEC (HL)` (R161). -/
def execDecHl (s : State) : Result :=
  modifyAtHl s (fun v => v - 1#8) fun v t => .next (setDecFlags v t)

/-! ## Decimal adjust, complement, carry (R162 to R165) -/

/-- Whether DAA corrects by 0x06: by the Half-Carry, or after an addition by the value of the low nibble. -/
def daaLow (a : Byte) (n h : Bool) : Bool := h || (!n && decide (a.toNat % 16 > 0x09))

/-- Whether DAA corrects by 0x60: by the Carry, or after an addition by the value of the accumulator. -/
def daaHigh (a : Byte) (n c : Bool) : Bool := c || (!n && decide (a.toNat > 0x99))

/-- The correction of DAA (R162), both tests made on the accumulator before any correction. -/
def daaCorrection (a : Byte) (n h c : Bool) : Byte :=
  (if daaLow a n h then 0x06#8 else 0x00#8) + (if daaHigh a n c then 0x60#8 else 0x00#8)

/-- The result of DAA (R162). -/
def daaResult (a : Byte) (n h c : Bool) : Byte :=
  if n then a - daaCorrection a n h c else a + daaCorrection a n h c

/-- `DAA` (R162): N is not written, C is never cleared. -/
def execDaa (s : State) : Result :=
  let n := s.flag .n
  let h := s.flag .h
  let c := s.flag .c
  let r := daaResult s.a n h c
  .next ((((s.setCell .a r).setFlag .z (isZero r)).setFlag .h false).setFlag .c (daaHigh s.a n c))

/-- `CPL` (R163): Z and C are not written. -/
def execCpl (s : State) : Result :=
  .next (((s.setCell .a (~~~s.a)).setFlag .n true).setFlag .h true)

/-- `SCF` (R164). -/
def execScf (s : State) : Result := .next (s.setNHC false false true)

/-- `CCF` (R165). -/
def execCcf (s : State) : Result := .next (s.setNHC false false (!s.flag .c))

end Sys2Proof.Machine
end

