-- ==== Sys2Proof/Machine/Control.lean ====
section
/-! DEFINITION. The control-transfer instructions (spec/46_control.md R220 to R232). `pc` is already the address of the next instruction when they run (R229); a condition that is false leaves everything else alone. -/

namespace Sys2Proof.Machine

/-- Push the advanced `pc`, then jump (R225). -/
def callTo (target : Word) (s : State) : Result :=
  pushWord s s.pc fun t => .next (t.setPc target)

/-- Pop into `pc` (R227). -/
def returnTo (s : State) : Result := popWord s fun v t => .next (t.setPc v)

/-- Do the instruction's effect when the condition holds, nothing further otherwise (R229). -/
def whenCond (cc : Cond) (s : State) (taken : State → Result) : Result :=
  if s.cond cc then taken s else .next s

/-- `JP a16` (R220). -/
def execJpA16 (a16 : Word) (s : State) : Result := .next (s.setPc a16)

/-- `JP cc,a16` (R221). -/
def execJpCcA16 (cc : Cond) (a16 : Word) (s : State) : Result :=
  whenCond cc s fun s => .next (s.setPc a16)

/-- `JP HL` (R222): no memory is read. -/
def execJpHl (s : State) : Result := .next (s.setPc (s.pair .hl))

/-- `JR e8` (R223). -/
def execJrE8 (e8 : Byte) (s : State) : Result := .next (s.setPc (s.relative e8))

/-- `JR cc,e8` (R224). -/
def execJrCcE8 (cc : Cond) (e8 : Byte) (s : State) : Result :=
  whenCond cc s fun s => .next (s.setPc (s.relative e8))

/-- `CALL a16` (R225). -/
def execCallA16 (a16 : Word) (s : State) : Result := callTo a16 s

/-- `CALL cc,a16` (R226). -/
def execCallCcA16 (cc : Cond) (a16 : Word) (s : State) : Result := whenCond cc s (callTo a16)

/-- `RET` (R227). -/
def execRet (s : State) : Result := returnTo s

/-- `RET cc` (R228). -/
def execRetCc (cc : Cond) (s : State) : Result := whenCond cc s returnTo

/-- `RETI` (R231): the return, then `ime <- 1` at once; `ime_pending` is not written. -/
def execReti (s : State) : Result :=
  popWord s fun v t => .next { t.setPc v with ime := true }

/-- `RST t` (R232): a call to `8 * ttt`. -/
def execRstT (t : BitVec 3) (s : State) : Result := callTo (restartTarget t) s

end Sys2Proof.Machine
end

