-- ==== Sys2Proof/Machine/Load8.lean ====
section
/-! DEFINITION. The 8-bit loads (spec/40_load8.md R100 to R119). None writes a flag; a memory operand faults exactly when its one access does (R111). -/

namespace Sys2Proof.Machine

/-! ## The shapes of the family -/

/-- Copy a byte of memory into a register. -/
def loadReg (r : Cell) (addr : Word) (s : State) : Result :=
  loadByte s addr fun v => .next (s.setCell r v)

/-- Copy a byte into memory. -/
def storeTo (addr : Word) (v : Byte) (s : State) : Result :=
  storeByte s addr v fun t => .next t

/-- Load A from HL, then move HL: "after the copy, unconditionally" (R111). -/
def loadAndMove (step : Word) (s : State) : Result :=
  loadByte s (s.pair .hl) fun v => .next ((s.setCell .a v).setPair .hl (s.pair .hl + step))

/-- Store A at HL, then move HL (R111). -/
def storeAndMove (step : Word) (s : State) : Result :=
  storeByte s (s.pair .hl) s.a fun t => .next (t.setPair .hl (s.pair .hl + step))

/-! ## The instructions -/

/-- `LD r,r'` (R100). -/
def execLdRR (dst src : Reg8) (s : State) : Result := .next (s.setReg dst (s.reg src))

/-- `LD r,n8` (R101). -/
def execLdRN8 (r : Reg8) (n8 : Byte) (s : State) : Result := .next (s.setReg r n8)

/-- `LD r,(HL)` (R102): the address is formed from the old H and L. -/
def execLdRHl (r : Reg8) (s : State) : Result := loadReg (cellOf r) (s.pair .hl) s

/-- `LD (HL),r` (R103). -/
def execLdHlR (r : Reg8) (s : State) : Result := storeTo (s.pair .hl) (s.reg r) s

/-- `LD (HL),n8` (R104). -/
def execLdHlN8 (n8 : Byte) (s : State) : Result := storeTo (s.pair .hl) n8 s

/-- `LD A,(BC)` (R105). -/
def execLdABc (s : State) : Result := loadReg .a (s.pair .bc) s

/-- `LD A,(DE)` (R106). -/
def execLdADe (s : State) : Result := loadReg .a (s.pair .de) s

/-- `LD (BC),A` (R107). -/
def execLdBcA (s : State) : Result := storeTo (s.pair .bc) s.a s

/-- `LD (DE),A` (R108). -/
def execLdDeA (s : State) : Result := storeTo (s.pair .de) s.a s

/-- `LD A,(a16)` (R109). -/
def execLdAA16 (a16 : Word) (s : State) : Result := loadReg .a a16 s

/-- `LD (a16),A` (R110). -/
def execLdA16A (a16 : Word) (s : State) : Result := storeTo a16 s.a s

/-- `LDH A,(a8)` (R112): the address is in page 0xFF, which no region answers. -/
def execLdhAA8 (a8 : Byte) (s : State) : Result := loadReg .a (highPage a8) s

/-- `LDH (a8),A` (R113). -/
def execLdhA8A (a8 : Byte) (s : State) : Result := storeTo (highPage a8) s.a s

/-- `LD A,(C)` (R114). -/
def execLdhAC (s : State) : Result := loadReg .a (highPage s.c) s

/-- `LD (C),A` (R115). -/
def execLdhCA (s : State) : Result := storeTo (highPage s.c) s.a s

/-- `LD (HL+),A` (R116). -/
def execLdHliA (s : State) : Result := storeAndMove 1#16 s

/-- `LD A,(HL+)` (R117). -/
def execLdAHli (s : State) : Result := loadAndMove 1#16 s

/-- `LD (HL-),A` (R118). -/
def execLdHldA (s : State) : Result := storeAndMove (-1#16) s

/-- `LD A,(HL-)` (R119). -/
def execLdAHld (s : State) : Result := loadAndMove (-1#16) s

end Sys2Proof.Machine
end

