-- ==== Sys2Proof/Machine/Bit.lean ====
section
/-! DEFINITION. BIT, RES and SET (spec/45_bit.md R210 to R213). -/

namespace Sys2Proof.Machine

/-- The byte with only bit `b` set. -/
def bitMask (b : BitVec 3) : Byte := 1#8 <<< b.toNat

/-- The flags of BIT (R210): Z from the selected bit only, N = 0, H = 1, C not written. -/
def setBitFlags (b : BitVec 3) (v : Byte) (t : State) : State :=
  t.setZNH (!v.getLsbD b.toNat) false true

/-- The value RES writes back (R211). -/
def clearBit (b : BitVec 3) (v : Byte) : Byte := v &&& ~~~bitMask b

/-- The value SET writes back (R212). -/
def setBit (b : BitVec 3) (v : Byte) : Byte := v ||| bitMask b

/-- `BIT b,r` (R210). -/
def execBitBR (b : BitVec 3) (r : Reg8) (s : State) : Result := .next (setBitFlags b (s.reg r) s)

/-- `BIT b,(HL)` (R210): memory is only read. -/
def execBitBHl (b : BitVec 3) (s : State) : Result :=
  loadByte s (s.pair .hl) fun v => .next (setBitFlags b v s)

/-- `RES b,r` (R211): no flag. -/
def execResBR (b : BitVec 3) (r : Reg8) (s : State) : Result :=
  .next (s.setReg r (clearBit b (s.reg r)))

/-- `RES b,(HL)` (R211): written back even when the bit is already 0 (R213). -/
def execResBHl (b : BitVec 3) (s : State) : Result :=
  modifyAtHl s (clearBit b) fun _ t => .next t

/-- `SET b,r` (R212): no flag. -/
def execSetBR (b : BitVec 3) (r : Reg8) (s : State) : Result :=
  .next (s.setReg r (setBit b (s.reg r)))

/-- `SET b,(HL)` (R212): written back even when the bit is already 1 (R213). -/
def execSetBHl (b : BitVec 3) (s : State) : Result :=
  modifyAtHl s (setBit b) fun _ t => .next t

end Sys2Proof.Machine
end

