-- ==== Sys2Proof/Machine/Rotate.lean ====
section
/-! DEFINITION. The rotates, shifts and SWAP (spec/44_rotate_shift.md R190 to R202). -/

namespace Sys2Proof.Machine

/-! ## The operations: from the operand and the old Carry, the result and the bit that goes to Carry (R202) -/

/-- Simple rotate left (R190, R194). -/
def rotLeft (v : Byte) (_cin : Bool) : Byte × Bool :=
  ((v <<< 1) ||| bitOf (v.getLsbD 7), v.getLsbD 7)

/-- Simple rotate right (R191, R195). -/
def rotRight (v : Byte) (_cin : Bool) : Byte × Bool :=
  ((v >>> 1) ||| (bitOf (v.getLsbD 0) <<< 7), v.getLsbD 0)

/-- Rotate left through Carry (R192, R196). -/
def rotLeftCarry (v : Byte) (cin : Bool) : Byte × Bool :=
  ((v <<< 1) ||| bitOf cin, v.getLsbD 7)

/-- Rotate right through Carry (R193, R197). -/
def rotRightCarry (v : Byte) (cin : Bool) : Byte × Bool :=
  ((v >>> 1) ||| (bitOf cin <<< 7), v.getLsbD 0)

/-- Arithmetic shift left (R198). -/
def shiftLeft (v : Byte) (_cin : Bool) : Byte × Bool := (v <<< 1, v.getLsbD 7)

/-- Arithmetic shift right (R199): the old bit 7 is kept. -/
def shiftRightArith (v : Byte) (_cin : Bool) : Byte × Bool :=
  ((v >>> 1) ||| (v &&& 0x80#8), v.getLsbD 0)

/-- Exchange of the two nibbles (R200): Carry is cleared. -/
def swapNibbles (v : Byte) (_cin : Bool) : Byte × Bool :=
  (v.extractLsb' 0 4 ++ v.extractLsb' 4 4, false)

/-- Logical shift right (R201). -/
def shiftRightLogical (v : Byte) (_cin : Bool) : Byte × Bool := (v >>> 1, v.getLsbD 0)

/-! ## The two kinds of form -/

/-- An accumulator form: Z, N and H are cleared whatever the result (R202). -/
def rotateA (g : Byte → Bool → Byte × Bool) (s : State) : Result :=
  let r := g s.a (s.flag .c)
  .next ((s.setCell .a r.1).setFlags false false false r.2)

/-- The flags of a general form: Z computed, N and H cleared (R202). -/
def setShiftFlags (r : Byte × Bool) (t : State) : State := t.setFlags (isZero r.1) false false r.2

/-- A general form on a register. -/
def shiftReg (g : Byte → Bool → Byte × Bool) (r : Reg8) (s : State) : Result :=
  let x := g (s.reg r) (s.flag .c)
  .next (setShiftFlags x (s.setReg r x.1))

/-- A general form on `(HL)`: the flags are written after the write-back. -/
def shiftAtHl (g : Byte → Bool → Byte × Bool) (s : State) : Result :=
  modifyAtHl s (fun v => (g v (s.flag .c)).1) fun v t => .next (setShiftFlags (g v (s.flag .c)) t)

/-- `RLCA` (R190). -/
def execRlca (s : State) : Result := rotateA rotLeft s
/-- `RRCA` (R191). -/
def execRrca (s : State) : Result := rotateA rotRight s
/-- `RLA` (R192). -/
def execRla (s : State) : Result := rotateA rotLeftCarry s
/-- `RRA` (R193). -/
def execRra (s : State) : Result := rotateA rotRightCarry s

/-- `RLC r` (R194). -/
def execRlcR (r : Reg8) (s : State) : Result := shiftReg rotLeft r s
/-- `RRC r` (R195). -/
def execRrcR (r : Reg8) (s : State) : Result := shiftReg rotRight r s
/-- `RL r` (R196). -/
def execRlR (r : Reg8) (s : State) : Result := shiftReg rotLeftCarry r s
/-- `RR r` (R197). -/
def execRrR (r : Reg8) (s : State) : Result := shiftReg rotRightCarry r s
/-- `SLA r` (R198). -/
def execSlaR (r : Reg8) (s : State) : Result := shiftReg shiftLeft r s
/-- `SRA r` (R199). -/
def execSraR (r : Reg8) (s : State) : Result := shiftReg shiftRightArith r s
/-- `SWAP r` (R200). -/
def execSwapR (r : Reg8) (s : State) : Result := shiftReg swapNibbles r s
/-- `SRL r` (R201). -/
def execSrlR (r : Reg8) (s : State) : Result := shiftReg shiftRightLogical r s

/-- `RLC (HL)` (R194). -/
def execRlcHl (s : State) : Result := shiftAtHl rotLeft s
/-- `RRC (HL)` (R195). -/
def execRrcHl (s : State) : Result := shiftAtHl rotRight s
/-- `RL (HL)` (R196). -/
def execRlHl (s : State) : Result := shiftAtHl rotLeftCarry s
/-- `RR (HL)` (R197). -/
def execRrHl (s : State) : Result := shiftAtHl rotRightCarry s
/-- `SLA (HL)` (R198). -/
def execSlaHl (s : State) : Result := shiftAtHl shiftLeft s
/-- `SRA (HL)` (R199). -/
def execSraHl (s : State) : Result := shiftAtHl shiftRightArith s
/-- `SWAP (HL)` (R200). -/
def execSwapHl (s : State) : Result := shiftAtHl swapNibbles s
/-- `SRL (HL)` (R201). -/
def execSrlHl (s : State) : Result := shiftAtHl shiftRightLogical s

end Sys2Proof.Machine
end

