-- ==== Sys2Proof/Machine/System.lean ====
section
/-! DEFINITION. The system instructions, the escape and the unassigned bytes (spec/47_system.md R240 to R247). -/

namespace Sys2Proof.Machine

/-- `NOP` (R240): nothing but the advance of `pc`, which the tick has made. -/
def execNop (s : State) : Result := .next s

/-- `HALT` (R241): `run <- Halted`. -/
def execHalt (s : State) : Result := .next { s with run := .halted }

/-- `STOP` (R242): `run <- Stopped`; the second byte has no effect. -/
def execStop (_pad : Byte) (s : State) : Result := .next { s with run := .stopped }

/-- `DI` (R243): both latches are cleared; the tick skips its transfer (`cancelsEi`). -/
def execDi (s : State) : Result := .next { s with ime := false, imePending := false }

/-- `EI` (R244): `ime_pending <- 1`; the next tick moves it into `ime`. -/
def execEi (s : State) : Result := .next { s with imePending := true }

/-- `UNKNOWN` (R246): fatal when executed. The reported address is the byte's own, one before the advanced `pc` (log 9). -/
def execUnknown (op : Byte) (s : State) : Result :=
  raise (.unknownInstructionFault [op] (s.pc - 1#16))

/-- The escape with its bitcode (R245): the row of the secondary map (spec/30_encoding.md R85) gives the whole effect. -/
def execPrefixCb (bitcode : Byte) (s : State) : Result :=
  let y := midField bitcode
  match (topField bitcode).toNat, operand8 (lowField bitcode) with
  | 0, .reg r =>
    match y.toNat with
    | 0 => execRlcR r s
    | 1 => execRrcR r s
    | 2 => execRlR r s
    | 3 => execRrR r s
    | 4 => execSlaR r s
    | 5 => execSraR r s
    | 6 => execSwapR r s
    | _ => execSrlR r s
  | 0, .atHl =>
    match y.toNat with
    | 0 => execRlcHl s
    | 1 => execRrcHl s
    | 2 => execRlHl s
    | 3 => execRrHl s
    | 4 => execSlaHl s
    | 5 => execSraHl s
    | 6 => execSwapHl s
    | _ => execSrlHl s
  | 1, .reg r => execBitBR y r s
  | 1, .atHl => execBitBHl y s
  | 2, .reg r => execResBR y r s
  | 2, .atHl => execResBHl y s
  | _, .reg r => execSetBR y r s
  | _, .atHl => execSetBHl y s

end Sys2Proof.Machine
end

