-- ==== Sys2Proof/Machine/Dispatch.lean ====
section
/-! DEFINITION. The dispatch: one arm per instruction, each a direct call of its meaning. -/

namespace Sys2Proof.Machine

/-- The effect of a decoded instruction: step 6 of a tick (spec/70_reset_and_hazards.md R296), in a state whose `pc` is already advanced. -/
def exec (i : Instr) (s : State) : Host.Outcome State Fault Refusal :=
  match i with
  | .nop => Sys2Proof.Machine.execNop s
  | .ldA16Sp a16 => Sys2Proof.Machine.execLdA16Sp a16 s
  | .stop pad => Sys2Proof.Machine.execStop pad s
  | .jrE8 e8 => Sys2Proof.Machine.execJrE8 e8 s
  | .rlca => Sys2Proof.Machine.execRlca s
  | .rrca => Sys2Proof.Machine.execRrca s
  | .rla => Sys2Proof.Machine.execRla s
  | .rra => Sys2Proof.Machine.execRra s
  | .daa => Sys2Proof.Machine.execDaa s
  | .cpl => Sys2Proof.Machine.execCpl s
  | .scf => Sys2Proof.Machine.execScf s
  | .ccf => Sys2Proof.Machine.execCcf s
  | .ldBcA => Sys2Proof.Machine.execLdBcA s
  | .ldDeA => Sys2Proof.Machine.execLdDeA s
  | .ldABc => Sys2Proof.Machine.execLdABc s
  | .ldADe => Sys2Proof.Machine.execLdADe s
  | .ldHliA => Sys2Proof.Machine.execLdHliA s
  | .ldAHli => Sys2Proof.Machine.execLdAHli s
  | .ldHldA => Sys2Proof.Machine.execLdHldA s
  | .ldAHld => Sys2Proof.Machine.execLdAHld s
  | .incHl => Sys2Proof.Machine.execIncHl s
  | .decHl => Sys2Proof.Machine.execDecHl s
  | .ldHlN8 n8 => Sys2Proof.Machine.execLdHlN8 n8 s
  | .halt => Sys2Proof.Machine.execHalt s
  | .addAHl => Sys2Proof.Machine.execAddAHl s
  | .adcAHl => Sys2Proof.Machine.execAdcAHl s
  | .subHl => Sys2Proof.Machine.execSubHl s
  | .sbcAHl => Sys2Proof.Machine.execSbcAHl s
  | .andHl => Sys2Proof.Machine.execAndHl s
  | .xorHl => Sys2Proof.Machine.execXorHl s
  | .orHl => Sys2Proof.Machine.execOrHl s
  | .cpHl => Sys2Proof.Machine.execCpHl s
  | .addAN8 n8 => Sys2Proof.Machine.execAddAN8 n8 s
  | .adcAN8 n8 => Sys2Proof.Machine.execAdcAN8 n8 s
  | .subN8 n8 => Sys2Proof.Machine.execSubN8 n8 s
  | .sbcAN8 n8 => Sys2Proof.Machine.execSbcAN8 n8 s
  | .andN8 n8 => Sys2Proof.Machine.execAndN8 n8 s
  | .xorN8 n8 => Sys2Proof.Machine.execXorN8 n8 s
  | .orN8 n8 => Sys2Proof.Machine.execOrN8 n8 s
  | .cpN8 n8 => Sys2Proof.Machine.execCpN8 n8 s
  | .jpA16 a16 => Sys2Proof.Machine.execJpA16 a16 s
  | .ret => Sys2Proof.Machine.execRet s
  | .prefixCb bitcode => Sys2Proof.Machine.execPrefixCb bitcode s
  | .callA16 a16 => Sys2Proof.Machine.execCallA16 a16 s
  | .reti => Sys2Proof.Machine.execReti s
  | .ldhA8A a8 => Sys2Proof.Machine.execLdhA8A a8 s
  | .ldhAA8 a8 => Sys2Proof.Machine.execLdhAA8 a8 s
  | .ldhCA => Sys2Proof.Machine.execLdhCA s
  | .ldhAC => Sys2Proof.Machine.execLdhAC s
  | .addSpE8 e8 => Sys2Proof.Machine.execAddSpE8 e8 s
  | .ldHlSpE8 e8 => Sys2Proof.Machine.execLdHlSpE8 e8 s
  | .jpHl => Sys2Proof.Machine.execJpHl s
  | .ldSpHl => Sys2Proof.Machine.execLdSpHl s
  | .ldA16A a16 => Sys2Proof.Machine.execLdA16A a16 s
  | .ldAA16 a16 => Sys2Proof.Machine.execLdAA16 a16 s
  | .di => Sys2Proof.Machine.execDi s
  | .ei => Sys2Proof.Machine.execEi s
  | .unknown op => Sys2Proof.Machine.execUnknown op s
  | .jrCcE8 cc e8 => Sys2Proof.Machine.execJrCcE8 cc e8 s
  | .ldRrN16 rr n16 => Sys2Proof.Machine.execLdRrN16 rr n16 s
  | .incRr rr => Sys2Proof.Machine.execIncRr rr s
  | .decRr rr => Sys2Proof.Machine.execDecRr rr s
  | .addHlRr rr => Sys2Proof.Machine.execAddHlRr rr s
  | .incR r => Sys2Proof.Machine.execIncR r s
  | .decR r => Sys2Proof.Machine.execDecR r s
  | .ldRN8 r n8 => Sys2Proof.Machine.execLdRN8 r n8 s
  | .ldRHl r => Sys2Proof.Machine.execLdRHl r s
  | .ldHlR r => Sys2Proof.Machine.execLdHlR r s
  | .ldRR dst src => Sys2Proof.Machine.execLdRR dst src s
  | .addAR r => Sys2Proof.Machine.execAddAR r s
  | .adcAR r => Sys2Proof.Machine.execAdcAR r s
  | .subR r => Sys2Proof.Machine.execSubR r s
  | .sbcAR r => Sys2Proof.Machine.execSbcAR r s
  | .andR r => Sys2Proof.Machine.execAndR r s
  | .xorR r => Sys2Proof.Machine.execXorR r s
  | .orR r => Sys2Proof.Machine.execOrR r s
  | .cpR r => Sys2Proof.Machine.execCpR r s
  | .retCc cc => Sys2Proof.Machine.execRetCc cc s
  | .jpCcA16 cc a16 => Sys2Proof.Machine.execJpCcA16 cc a16 s
  | .callCcA16 cc a16 => Sys2Proof.Machine.execCallCcA16 cc a16 s
  | .popRr rr => Sys2Proof.Machine.execPopRr rr s
  | .pushRr rr => Sys2Proof.Machine.execPushRr rr s
  | .rstT t => Sys2Proof.Machine.execRstT t s
  | .rlcHl => Sys2Proof.Machine.execRlcHl s
  | .rrcHl => Sys2Proof.Machine.execRrcHl s
  | .rlHl => Sys2Proof.Machine.execRlHl s
  | .rrHl => Sys2Proof.Machine.execRrHl s
  | .slaHl => Sys2Proof.Machine.execSlaHl s
  | .sraHl => Sys2Proof.Machine.execSraHl s
  | .swapHl => Sys2Proof.Machine.execSwapHl s
  | .srlHl => Sys2Proof.Machine.execSrlHl s
  | .rlcR r => Sys2Proof.Machine.execRlcR r s
  | .rrcR r => Sys2Proof.Machine.execRrcR r s
  | .rlR r => Sys2Proof.Machine.execRlR r s
  | .rrR r => Sys2Proof.Machine.execRrR r s
  | .slaR r => Sys2Proof.Machine.execSlaR r s
  | .sraR r => Sys2Proof.Machine.execSraR r s
  | .swapR r => Sys2Proof.Machine.execSwapR r s
  | .srlR r => Sys2Proof.Machine.execSrlR r s
  | .bitBHl b => Sys2Proof.Machine.execBitBHl b s
  | .resBHl b => Sys2Proof.Machine.execResBHl b s
  | .setBHl b => Sys2Proof.Machine.execSetBHl b s
  | .bitBR b r => Sys2Proof.Machine.execBitBR b r s
  | .resBR b r => Sys2Proof.Machine.execResBR b r s
  | .setBR b r => Sys2Proof.Machine.execSetBR b r s

end Sys2Proof.Machine
end

