-- ==== Sys2Proof/Machine/Step.lean ====
section
/-! DEFINITION. The step function, the spec's `tick` (spec/70_reset_and_hazards.md R296), and how a program word is laid where it fetches. -/

namespace Sys2Proof.Machine

/-- One `tick` (R296). Step 1: only a Running machine fetches and executes; a Halted or Stopped one changes nothing, a
Faulted one reports its fault again. Steps 2 to 7: take down `ime_pending`, decode from `pc`, commit `pc`, execute, transfer. -/
def step (s : State) : Host.Outcome State Fault Refusal :=
  match s.run with
  | .halted => .next s
  | .stopped => .next s
  | .faulted f => raise f
  | .running =>
    match decodeFrom s.pull with
    | .error f => raise f
    | .ok (i, n) => finishTick s.imePending i (exec i (s.beginTick n))

/-- The state with an instruction word where `step` fetches next: its three bytes at `pc`, in the store that answers there, and
the machine Running. Where some of the three addresses is unmapped, `pc` is first set to the reset address (log 6). -/
def State.withFetchWord (s : State) (nbits w : Nat) : State :=
  let base := if s.mapped s.pc 3 then s.pc else Config.resetPc
  ({ s with pc := base, run := .running } : State).placeAll base (bytesOfNat 3 (w % 2 ^ nbits))

end Sys2Proof.Machine
end

