-- ==== Sys2Proof/Safety.lean ====
section
/-! DEFINITION. The terms the statements use: the invariant of the state, the address ranges, frames, what an instruction may raise, and what a tick may leave behind. -/

namespace Sys2Proof.Machine

/-! ## Address ranges (spec/20_memory.md R41), by number -/

/-- An address of video RAM or working RAM: the two writable regions. -/
abbrev InRam (addr : Word) : Prop :=
  (0x8000 ≤ addr.toNat ∧ addr.toNat ≤ 0x9FFF) ∨ (0xC000 ≤ addr.toNat ∧ addr.toNat ≤ 0xDFFF)

/-- An address that some region answers. -/
abbrev Mapped (addr : Word) : Prop := addr.toNat ≤ 0x3FFF ∨ InRam addr

/-! ## The invariant of the state -/

/-- An address that `State.mem` may list: one of the two writable regions. -/
def ramKey (k : Nat) : Bool := (0x8000 ≤ k && k ≤ 0x9FFF) || (0xC000 ≤ k && k ≤ 0xDFFF)

/-- An address that `CART_ROM` may list (R43: exactly 16384 bytes). -/
def romKey (k : Nat) : Bool := k ≤ 0x3FFF

/-- An address that `BOOT_IMAGE` may list (R42: exactly 256 bytes). -/
def bootKey (k : Nat) : Bool := k ≤ 0x00FF

/-- The three stores are in canonical form and list only addresses of their own region, so that equal contents are equal data. -/
def State.inv (s : State) : Bool :=
  s.mem.wf && s.mem.within ramKey && s.config.cartRom.wf && s.config.cartRom.within romKey &&
    s.config.bootImage.wf && s.config.bootImage.within bootKey

/-! ## Frames -/

/-- What an instruction leaves alone between a state `s` and the next state `t`: every register cell but the listed ones (F
apart), every flag but the listed ones and bits 3:0 of F, every byte of memory but those at the listed addresses, the two
interrupt latches, the run state and the configuration. `sp` and `pc` are said beside it. -/
structure Frame (s t : State) (cells : List Cell) (flags : List Flag) (bytes : List Word) : Prop where
  cells_same : ∀ r, r ≠ .f → r ∉ cells → t.cell r = s.cell r
  flags_same : ∀ g, g ∉ flags → t.flag g = s.flag g
  low_bits_of_f_same : t.f.extractLsb' 0 4 = s.f.extractLsb' 0 4
  memory_same : ∀ x, x ∉ bytes → t.read8 x = s.read8 x
  ime_same : t.ime = s.ime
  pending_same : t.imePending = s.imePending
  run_same : t.run = s.run
  config_same : t.config = s.config

/-- All four flags. -/
def allFlags : List Flag := [.z, .n, .h, .c]

/-- The flags Z, N, H and C of a state have these values. -/
def FlagsAre (t : State) (z n h c : Bool) : Prop :=
  t.flag .z = z ∧ t.flag .n = n ∧ t.flag .h = h ∧ t.flag .c = c

/-! ## The form of a result statement -/

/-- The instruction completes in `s`: it ANSWERS a next state, inside the frame, with these values of `sp` and `pc`, of which
`post` holds. `s` is the state in which it executes, so `s.pc` is already advanced (spec/10_state.md R18). -/
def Effect (i : Instr) (s : State) (cells : List Cell) (flags : List Flag) (bytes : List Word) (sp pc : Word)
    (post : State → Prop) : Prop :=
  ∃ t, exec i s = .next t ∧ Frame s t cells flags bytes ∧ t.sp = sp ∧ t.pc = pc ∧ post t

/-- The instruction faults on a read of one byte where that byte is unmapped (spec/20_memory.md R44). -/
def ReadFaults (i : Instr) (s : State) (x : Word) : Prop := ¬ Mapped x → exec i s = .fault (.addressFault x .read)

/-- The instruction faults on a write of one byte where that byte is not in RAM (R44, R46). -/
def WriteFaults (i : Instr) (s : State) (x : Word) : Prop := ¬ InRam x → exec i s = .fault (.addressFault x .write)

/-- The instruction faults on a read of two bytes at the first of them that is unmapped, the lower address first (R49). -/
def WordReadFaults (i : Instr) (s : State) (x : Word) : Prop :=
  ReadFaults i s x ∧ (Mapped x → ReadFaults i s (x + 1#16))

/-- The instruction faults on a write of two bytes at the first of them that is not in RAM, the lower address first (R50). -/
def WordWriteFaults (i : Instr) (s : State) (x : Word) : Prop :=
  WriteFaults i s x ∧ (InRam x → WriteFaults i s (x + 1#16))

/-- The instruction reads and then writes one byte: it faults on the read where the byte is unmapped, on the write where it is
only readable (R46). -/
def ModifyFaults (i : Instr) (s : State) (x : Word) : Prop :=
  ReadFaults i s x ∧ (Mapped x → WriteFaults i s x)

/-- The effect of an addition of `v` and a carry-in to A, in integers (spec/42_alu8.md R150, R151). -/
def AddEffect (i : Instr) (s : State) (v : Byte) (c : Bool) : Prop :=
  let a := s.a.toNat
  let sum := a + v.toNat + c.toNat
  Effect i s [.a] allFlags [] s.sp s.pc fun t =>
    t.a.toNat = sum % 256 ∧
    FlagsAre t (decide (sum % 256 = 0)) false (decide (a % 16 + v.toNat % 16 + c.toNat > 0x0F)) (decide (sum > 0xFF))

/-- The flags of a subtraction of `v` and a borrow-in from A, in integers (R152, R153, R157). -/
def SubFlags (s : State) (v : Byte) (c : Bool) (t : State) : Prop :=
  let a := s.a.toNat
  FlagsAre t (decide ((a + 512 - v.toNat - c.toNat) % 256 = 0)) true
    (decide (a % 16 < v.toNat % 16 + c.toNat)) (decide (a < v.toNat + c.toNat))

/-- The effect of a subtraction of `v` and a borrow-in from A, in integers (R152, R153). -/
def SubEffect (i : Instr) (s : State) (v : Byte) (c : Bool) : Prop :=
  Effect i s [.a] allFlags [] s.sp s.pc fun t =>
    t.a.toNat = (s.a.toNat + 512 - v.toNat - c.toNat) % 256 ∧ SubFlags s v c t

/-- The effect of a comparison of A with `v`: the flags of the subtraction, A unchanged (R157). -/
def CompareEffect (i : Instr) (s : State) (v : Byte) : Prop :=
  Effect i s [] allFlags [] s.sp s.pc fun t => SubFlags s v false t

/-- The effect of a logic operation on A, bit by bit, with its forced Half-Carry (R154, R155, R156). -/
def LogicEffect (i : Instr) (s : State) (v : Byte) (op : Bool → Bool → Bool) (h : Bool) : Prop :=
  Effect i s [.a] allFlags [] s.sp s.pc fun t =>
    (∀ k, k < 8 → t.a.getLsbD k = op (s.a.getLsbD k) (v.getLsbD k)) ∧
    FlagsAre t (decide (t.a.toNat = 0)) false h false

/-- The flags of an 8-bit increment of `v` (R158): C as before. -/
def IncFlags (s : State) (v : Byte) (t : State) : Prop :=
  FlagsAre t (decide ((v.toNat + 1) % 256 = 0)) false (decide (v.toNat % 16 = 0x0F)) (s.flag .c)

/-- The flags of an 8-bit decrement of `v` (R160): C as before. -/
def DecFlags (s : State) (v : Byte) (t : State) : Prop :=
  FlagsAre t (decide ((v.toNat + 255) % 256 = 0)) true (decide (v.toNat % 16 = 0x00)) (s.flag .c)

/-- A rotate or shift of the general forms on a register and on `(HL)` (spec/44_rotate_shift.md R202): `result v cin` and
`carry v` as integers, from the operand and the old Carry. -/
def ShiftEffect (onReg : Reg8 → Instr) (atHl : Instr) (result : Nat → Nat → Nat) (carry : Nat → Bool) : Prop :=
  (∀ r s, Effect (onReg r) s [cellOf r] allFlags [] s.sp s.pc fun t =>
    (t.reg r).toNat = result (s.reg r).toNat (s.flag .c).toNat ∧
    FlagsAre t (decide ((t.reg r).toNat = 0)) false false (carry (s.reg r).toNat)) ∧
  (∀ s v, s.read8 (s.pair .hl) = .ok v → InRam (s.pair .hl) →
    Effect atHl s [] allFlags [s.pair .hl] s.sp s.pc fun t =>
      ∃ w, t.read8 (s.pair .hl) = .ok w ∧ w.toNat = result v.toNat (s.flag .c).toNat ∧
        FlagsAre t (decide (w.toNat = 0)) false false (carry v.toNat))

/-- The effect of an accumulator rotate: Z, N and H cleared whatever the result (R202). -/
def RotateAEffect (i : Instr) (result : Nat → Nat → Nat) (carry : Nat → Bool) : Prop :=
  ∀ s, Effect i s [.a] allFlags [] s.sp s.pc fun t =>
    t.a.toNat = result s.a.toNat (s.flag .c).toNat ∧ FlagsAre t false false false (carry s.a.toNat)

/-- The address `sp - 2` of a push from `s`, and the byte after it (spec/41_load16_stack.md R136). -/
def pushedBytes (s : State) : List Word := [s.sp - 2#16, s.sp - 2#16 + 1#16]

/-- Both bytes of a push from `s` lie in RAM. -/
abbrev CanPush (s : State) : Prop := InRam (s.sp - 2#16) ∧ InRam (s.sp - 2#16 + 1#16)

/-- The two bytes pushed from `s` hold the value, low byte first. -/
def Pushed (s t : State) (v : Word) : Prop :=
  t.read8 (s.sp - 2#16) = .ok (loByte v) ∧ t.read8 (s.sp - 2#16 + 1#16) = .ok (hiByte v)

/-- `signed(b)` (spec/00_scope.md R7), taken modulo 65536. -/
def signedMod (b : Byte) : Nat := if b.toNat < 128 then b.toNat else b.toNat + 0xFF00

/-! ## What an instruction may raise (spec/60_exceptions.md R267) -/

/-- The rows of R267's table. -/
inductive FaultClass where
  | none | read | write | readOrWrite | readAlways | writeAlways | unknownAlways
  deriving DecidableEq, Repr

/-- The row of R267 that an instruction is in, in a state (a conditional call or return counts as taken or not taken).
The escape row's term is in the row of the secondary row it selects (log 8). -/
def faultClass (i : Instr) (s : State) : FaultClass :=
  match i with
  | .ldRHl _ | .ldABc | .ldADe | .ldAA16 _ | .ldAHli | .ldAHld => .read
  | .addAHl | .adcAHl | .subHl | .sbcAHl | .andHl | .xorHl | .orHl | .cpHl => .read
  | .bitBHl _ | .popRr _ | .ret | .reti => .read
  | .retCc cc => if s.cond cc then .read else .none
  | .ldHlR _ | .ldHlN8 _ | .ldBcA | .ldDeA | .ldA16A _ | .ldHliA | .ldHldA | .ldA16Sp _ => .write
  | .pushRr _ | .callA16 _ | .rstT _ => .write
  | .callCcA16 cc _ => if s.cond cc then .write else .none
  | .incHl | .decHl | .rlcHl | .rrcHl | .rlHl | .rrHl | .slaHl | .sraHl | .swapHl | .srlHl => .readOrWrite
  | .resBHl _ | .setBHl _ => .readOrWrite
  | .ldhAA8 _ | .ldhAC => .readAlways
  | .ldhA8A _ | .ldhCA => .writeAlways
  | .unknown _ => .unknownAlways
  | .prefixCb bitcode =>
    if lowField bitcode = 6#3 then (if topField bitcode = 1#2 then .read else .readOrWrite) else .none
  | .nop | .stop _ | .jrE8 _ | .rlca | .rrca | .rla | .rra | .daa | .cpl | .scf | .ccf | .halt | .addAN8 _
  | .adcAN8 _ | .subN8 _ | .sbcAN8 _ | .andN8 _ | .xorN8 _ | .orN8 _ | .cpN8 _ | .jpA16 _ | .addSpE8 _
  | .ldHlSpE8 _ | .jpHl | .ldSpHl | .di | .ei | .jrCcE8 _ _ | .ldRrN16 _ _ | .incRr _ | .decRr _
  | .addHlRr _ | .incR _ | .decR _ | .ldRN8 _ _ | .ldRR _ _ | .addAR _ | .adcAR _ | .subR _ | .sbcAR _
  | .andR _ | .xorR _ | .orR _ | .cpR _ | .jpCcA16 _ _ | .rlcR _ | .rrcR _ | .rlR _ | .rrR _ | .slaR _
  | .sraR _ | .swapR _ | .srlR _ | .bitBR _ _ | .resBR _ _ | .setBR _ _ => .none

/-- What a row of R267 allows as an answer. -/
def allowedBy (k : FaultClass) (r : Result) : Prop :=
  match k with
  | .none => ∃ t, r = .next t
  | .read => (∃ t, r = .next t) ∨ ∃ x, r = .fault (.addressFault x .read)
  | .write => (∃ t, r = .next t) ∨ ∃ x, r = .fault (.addressFault x .write)
  | .readOrWrite =>
    (∃ t, r = .next t) ∨ (∃ x, r = .fault (.addressFault x .read)) ∨ ∃ x, r = .fault (.addressFault x .write)
  | .readAlways => ∃ x, 0xFF00 ≤ x.toNat ∧ r = .fault (.addressFault x .read)
  | .writeAlways => ∃ x, 0xFF00 ≤ x.toNat ∧ r = .fault (.addressFault x .write)
  | .unknownAlways => ∃ bytes pc0, r = .fault (.unknownInstructionFault bytes pc0)

/-! ## Control transfer and length -/

/-- The instructions that can write `pc` (spec/46_control.md): jumps, calls, returns and restarts. -/
def isTransfer : Instr → Bool
  | .jrE8 _ | .jpA16 _ | .ret | .callA16 _ | .reti | .jpHl | .jrCcE8 _ _ | .retCc _ | .jpCcA16 _ _
  | .callCcA16 _ _ | .rstT _ => true
  | .nop | .ldA16Sp _ | .stop _ | .rlca | .rrca | .rla | .rra | .daa | .cpl | .scf | .ccf | .ldBcA | .ldDeA
  | .ldABc | .ldADe | .ldHliA | .ldAHli | .ldHldA | .ldAHld | .incHl | .decHl | .ldHlN8 _ | .halt | .addAHl
  | .adcAHl | .subHl | .sbcAHl | .andHl | .xorHl | .orHl | .cpHl | .addAN8 _ | .adcAN8 _ | .subN8 _
  | .sbcAN8 _ | .andN8 _ | .xorN8 _ | .orN8 _ | .cpN8 _ | .prefixCb _ | .ldhA8A _ | .ldhAA8 _ | .ldhCA
  | .ldhAC | .addSpE8 _ | .ldHlSpE8 _ | .ldSpHl | .ldA16A _ | .ldAA16 _ | .di | .ei | .unknown _
  | .ldRrN16 _ _ | .incRr _ | .decRr _ | .addHlRr _ | .incR _ | .decR _ | .ldRN8 _ _ | .ldRHl _ | .ldHlR _
  | .ldRR _ _ | .addAR _ | .adcAR _ | .subR _ | .sbcAR _ | .andR _ | .xorR _ | .orR _ | .cpR _ | .popRr _
  | .pushRr _ | .rlcHl | .rrcHl | .rlHl | .rrHl | .slaHl | .sraHl | .swapHl | .srlHl | .rlcR _ | .rrcR _
  | .rlR _ | .rrR _ | .slaR _ | .sraR _ | .swapR _ | .srlR _ | .bitBHl _ | .resBHl _ | .setBHl _
  | .bitBR _ _ | .resBR _ _ | .setBR _ _ => false

/-- The length that the first byte alone fixes, from the lists of spec/30_encoding.md R70. -/
def lengthOf (op : Byte) : Nat :=
  if [0x06#8, 0x0E#8, 0x16#8, 0x1E#8, 0x26#8, 0x2E#8, 0x36#8, 0x3E#8, 0xC6#8, 0xCE#8, 0xD6#8, 0xDE#8,
      0xE6#8, 0xEE#8, 0xF6#8, 0xFE#8, 0xE0#8, 0xF0#8, 0x10#8].contains op then 2
  else if [0x18#8, 0x20#8, 0x28#8, 0x30#8, 0x38#8, 0xE8#8, 0xF8#8].contains op then 2
  else if [0x01#8, 0x11#8, 0x21#8, 0x31#8, 0x08#8, 0xC2#8, 0xC3#8, 0xC4#8, 0xCA#8, 0xCC#8, 0xCD#8, 0xD2#8,
      0xD4#8, 0xDA#8, 0xDC#8, 0xEA#8, 0xFA#8].contains op then 3
  else if op = 0xCB#8 then 2
  else 1

/-- The bytes at an address and after it. -/
def BytesAt (s : State) (addr : Word) (bytes : List Byte) : Prop :=
  ∀ k (h : k < bytes.length), s.read8 (addr + BitVec.ofNat 16 k) = .ok (bytes[k]'h)

/-! ## What a tick may leave behind (spec/60_exceptions.md R264, R265) -/

/-- `t` is a state the machine may be in after a tick from `s`. A tick that does not fault leaves its next state. A tick that
faults leaves `run = Faulted(f)` and ANY value in every other part but the constants of the configuration (R265, log 4). -/
def TickTo (s t : State) : Prop :=
  match step s with
  | .next u => t = u
  | .fault f => t.run = .faulted f ∧ t.config = s.config
  | .refused _ => False

/-! ## Packed decimal (spec/42_alu8.md R162) -/

/-- The packed-BCD byte of a number below 100: the tens digit in the high nibble. -/
def bcd (n : Nat) : Byte := BitVec.ofNat 8 (16 * (n / 10) + n % 10)

end Sys2Proof.Machine
end

