-- ==== Sys2Proof/Certificates/Slice0/Obligations.lean ====
section
/-! DEFINITION. The statements for the provers, from the numbered rules of spec/. -/

open Sys2Proof Sys2Proof.Machine

/-! ## Encoding and decoding (spec/30_encoding.md) -/

/-- Decoding the bytes of a well-formed instruction gives it back, every operand at every value, and leaves what follows.
The encodings are the spec's own (decisions D1 to D3). -/
def Obligations.DecodeOfEncodeIsTheInstruction : Prop :=
  ∀ (i : Instr) (rest : List Byte), i.wellFormed = true → decode (encode i ++ rest) = .ok (i, rest)

/-- Whatever the decoder answers is well-formed, and its encoding is the bytes it was read from: each word has one meaning. -/
def Obligations.EncodeOfDecodeIsTheBytes : Prop :=
  ∀ (bytes : List Byte) (i : Instr) (rest : List Byte), decode bytes = .ok (i, rest) →
    i.wellFormed = true ∧ encode i ++ rest = bytes

/-- The escape byte and a bitcode are one instruction, the secondary row (R80, R245; the escape row as a term is log 8); its
effect is that row's, and it completes on a register, and on `(HL)` where the byte can be read and, but for BIT, written. -/
def Obligations.EscapePairIsTheSecondaryRow : Prop :=
  ∀ (bitcode : Byte),
    (∀ rest : List Byte, decode (0xCB#8 :: bitcode :: rest) = .ok (secondary bitcode, rest) ∧
      decode (encode (.prefixCb bitcode) ++ rest) = .ok (secondary bitcode, rest)) ∧
    (∀ s, exec (.prefixCb bitcode) s = exec (secondary bitcode) s) ∧
    (∀ s, (lowField bitcode ≠ 6#3 ∨ InRam (s.pair .hl) ∨ (topField bitcode = 1#2 ∧ Mapped (s.pair .hl))) →
      ∃ t, exec (.prefixCb bitcode) s = .next t ∧ t.sp = s.sp ∧ t.pc = s.pc ∧ t.run = s.run ∧ t.ime = s.ime ∧
        t.imePending = s.imePending ∧ t.config = s.config ∧ ∀ x, x ≠ s.pair .hl → t.read8 x = s.read8 x)

/-- Decoding is total (R88): it answers a well-formed instruction of 1 to 3 bytes, or ends with the AddressFault of a pull at an
unmapped address; and an Unknown, executed, is fatal and carries its byte. -/
def Obligations.DecodingIsTotal : Prop :=
  (∀ s : State,
    (∃ i n, decodeFrom s.pull = .ok (i, n) ∧ i.wellFormed = true ∧ 1 ≤ n ∧ n ≤ 3) ∨
    (∃ k, k ≤ 2 ∧ ¬ Mapped (s.pc + BitVec.ofNat 16 k) ∧
      decodeFrom s.pull = .error (.addressFault (s.pc + BitVec.ofNat 16 k) .read))) ∧
  (∀ op s, ∃ pc0, exec (.unknown op) s = .fault (.unknownInstructionFault [op] pc0))

/-- Exactly the eleven unassigned bytes decode to Unknown, one byte long (R86, decision D6), and a tick on one raises
UnknownInstructionFault with that byte and its address (R246, decision D25). -/
def Obligations.UnassignedBytesAreFatal : Prop :=
  let eleven : List Byte := [0xD3#8, 0xDB#8, 0xDD#8, 0xE3#8, 0xE4#8, 0xEB#8, 0xEC#8, 0xED#8, 0xF4#8, 0xFC#8, 0xFD#8]
  (∀ op bytes, op ∈ eleven → decode (op :: bytes) = .ok (.unknown op, bytes)) ∧
  (∀ op bytes x rest, decode (op :: bytes) = .ok (.unknown x, rest) → op ∈ eleven) ∧
  (∀ op s, exec (.unknown op) s = .fault (.unknownInstructionFault [op] (s.pc - 1#16))) ∧
  (∀ (s : State) op, s.run = .running → s.read8 s.pc = .ok op → op ∈ eleven →
    step s = .fault (.unknownInstructionFault [op] s.pc))

/-- Words written out from the Encoding lines of the rules decode to the instructions they stand for. -/
def Obligations.SampleWordsDecode : Prop :=
  decode [0x01#8, 0x34#8, 0x12#8] = .ok (.ldRrN16 .bc 0x1234#16, []) ∧
  decode [0x3E#8, 0x0F#8] = .ok (.ldRN8 .a 0x0F#8, []) ∧
  decode [0x66#8] = .ok (.ldRHl .h, []) ∧
  decode [0x76#8] = .ok (.halt, []) ∧
  decode [0x9E#8] = .ok (.sbcAHl, []) ∧
  decode [0x39#8] = .ok (.addHlRr .sp, []) ∧
  decode [0xCB#8, 0xCB#8] = .ok (.setBR 1#3 .e, []) ∧
  decode [0xCB#8, 0x7C#8] = .ok (.bitBR 7#3 .h, []) ∧
  decode [0xCB#8, 0x37#8] = .ok (.swapR .a, []) ∧
  decode [0xDC#8, 0x20#8, 0xC0#8] = .ok (.callCcA16 .c 0xC020#16, []) ∧
  decode [0xF5#8] = .ok (.pushRr .af, []) ∧
  decode [0xEF#8] = .ok (.rstT 5#3, [])

/-! ## The tick (spec/70_reset_and_hazards.md R296) -/

/-- When the bytes at `pc` decode to an instruction, a tick takes down `ime_pending`, advances `pc` over them, executes the
instruction, and makes the transfer of `ime_pending` (R296 steps 2 to 7, decisions D13 and D15). -/
def Obligations.StepRunsTheDecodedInstruction : Prop :=
  ∀ (s : State) (bytes : List Byte) (i : Instr),
    s.run = .running → BytesAt s s.pc bytes → decode bytes = .ok (i, []) →
    let s1 : State := { s with pc := s.pc + BitVec.ofNat 16 bytes.length, imePending := false }
    (∀ t, exec i s1 = .next t →
      step s = .next (if s.imePending = true ∧ i ≠ .di then { t with ime := true } else t)) ∧
    (∀ f, exec i s1 = .fault f → step s = .fault f)

/-- A fetch from an unmapped address raises AddressFault with that address and kind read (R61): when the bytes before it are no
whole instruction, the tick ends there. -/
def Obligations.FetchFromUnmappedAddressFaults : Prop :=
  ∀ (s : State) (bytes : List Byte), s.run = .running → BytesAt s s.pc bytes →
    decode bytes = .error (.truncated bytes.length) → ¬ Mapped (s.pc + BitVec.ofNat 16 bytes.length) →
    step s = .fault (.addressFault (s.pc + BitVec.ofNat 16 bytes.length) .read)

/-- Operand bytes are consumed whether or not the condition holds (R87): a conditional jump, call or relative jump that is not
taken leaves `pc` after them and the cells, `sp`, `run`, memory and the configuration alone, and a fetch fault on one of them is
still raised. The twelve opcode bytes are decision D1, `CALL cc` is decision D2 (log 7). -/
def Obligations.OperandBytesAreConsumedWhenNotTaken : Prop :=
  (∀ (s : State) (bytes : List Byte) (i : Instr) (cc : Cond),
    s.run = .running → BytesAt s s.pc bytes → decode bytes = .ok (i, []) → s.cond cc = false →
    ((∃ e8, i = .jrCcE8 cc e8) ∨ (∃ a16, i = .jpCcA16 cc a16) ∨ (∃ a16, i = .callCcA16 cc a16)) →
    ∃ t, step s = .next t ∧ t.pc = s.pc + BitVec.ofNat 16 bytes.length ∧ t.sp = s.sp ∧
      (∀ r, t.cell r = s.cell r) ∧ t.run = s.run ∧ t.config = s.config ∧ ∀ x, t.read8 x = s.read8 x) ∧
  (∀ (s : State) (op : Byte), s.run = .running → s.read8 s.pc = .ok op →
    op ∈ [0x20#8, 0x28#8, 0x30#8, 0x38#8, 0xC2#8, 0xCA#8, 0xD2#8, 0xDA#8, 0xC4#8, 0xCC#8, 0xD4#8, 0xDC#8] →
    ¬ Mapped (s.pc + 1#16) → step s = .fault (.addressFault (s.pc + 1#16) .read)) ∧
  (∀ (s : State) (op lo : Byte), s.run = .running → s.read8 s.pc = .ok op →
    op ∈ [0xC2#8, 0xCA#8, 0xD2#8, 0xDA#8, 0xC4#8, 0xCC#8, 0xD4#8, 0xDC#8] → s.read8 (s.pc + 1#16) = .ok lo →
    ¬ Mapped (s.pc + 2#16) → step s = .fault (.addressFault (s.pc + 2#16) .read))

/-- Every instruction that is no jump, call, return or restart leaves `pc` after its own bytes (R18, decision D13). -/
def Obligations.PcAdvancesOverStraightLineCode : Prop :=
  ∀ (s t : State) (i : Instr) (n : Nat), s.run = .running → decodeFrom s.pull = .ok (i, n) → isTransfer i = false →
    step s = .next t → t.pc.toNat = (s.pc.toNat + n) % 65536

/-- Only a Running machine executes: Halted and Stopped ticks change nothing, a Faulted tick reports its fault again; and after a
tick that faulted, whatever the rest of the state is, every later tick reports the same fault (R264, R274, decisions D12, D18). -/
def Obligations.OnlyARunningMachineExecutes : Prop :=
  (∀ s : State, (s.run = .halted ∨ s.run = .stopped) → step s = .next s ∧ ∀ t, TickTo s t → t = s) ∧
  (∀ (s : State) f, s.run = .faulted f → step s = .fault f) ∧
  (∀ (s t u : State) f, step s = .fault f → TickTo s t → t.run = .faulted f ∧ step t = .fault f ∧
    (TickTo t u → step u = .fault f))

/-- HALT sets `run` to Halted, STOP to Stopped, and no other instruction that completes writes `run` (R22, decision D16). -/
def Obligations.OnlyHaltAndStopWriteRun : Prop :=
  ∀ (i : Instr) (s t : State), exec i s = .next t →
    (i = .halt → t.run = .halted) ∧ (∀ pad, i = .stop pad → t.run = .stopped) ∧
    (i ≠ .halt → (∀ pad, i ≠ .stop pad) → t.run = s.run)

/-- The latches are written by DI, EI and RETI alone (R20, R21, decision D15). -/
def Obligations.LatchesAreWrittenByDiEiReti : Prop :=
  ∀ (i : Instr) (s t : State), exec i s = .next t →
    (i ≠ .di → i ≠ .reti → t.ime = s.ime) ∧ (i ≠ .di → i ≠ .ei → t.imePending = s.imePending) ∧
    (i = .reti → t.ime = true)

/-- EI takes effect at the end of the next tick that executes an instruction, unless that is DI (R243, R244, decision D15). -/
def Obligations.EiTakesEffectAfterTheNextInstruction : Prop :=
  ∀ (s t u : State) (n m : Nat) (i : Instr), s.run = .running → decodeFrom s.pull = .ok (.ei, n) → step s = .next t →
    decodeFrom t.pull = .ok (i, m) → step t = .next u →
    t.ime = (s.ime || s.imePending) ∧ t.imePending = true ∧
    (i ≠ .di → u.ime = true) ∧ (i = .di → u.ime = false) ∧ u.imePending = decide (i = .ei)

/-! ## Whole-machine rules -/

/-- Every step keeps the invariant: the three byte stores stay canonical and inside their regions. -/
def Obligations.StepKeepsTheInvariant : Prop :=
  ∀ s t : State, s.inv = true → step s = .next t → t.inv = true

/-- The state after reset meets the invariant, and so does every launch state built from images of the right sizes. -/
def Obligations.ResetMeetsTheInvariant : Prop :=
  State.reset.inv = true ∧
  ∀ live boot rom vramInit wramInit s, State.ofImages live boot rom vramInit wramInit = some s → s.inv = true

/-- The CORE never changes the boot image (R42), nor the cartridge bytes, nor which of the two answers. -/
def Obligations.StepKeepsTheConfiguration : Prop :=
  ∀ s t : State, step s = .next t →
    t.config = s.config ∧ ∀ x : Word, x.toNat ≤ 0x3FFF → t.read8 x = s.read8 x

/-- Bits 3:0 of F change in POP AF alone, which loads the whole popped byte (R16, decision D5). -/
def Obligations.LowBitsOfFAreStorage : Prop :=
  ∀ (i : Instr) (s t : State), exec i s = .next t →
    (i ≠ .popRr .af → t.f.extractLsb' 0 4 = s.f.extractLsb' 0 4) ∧
    (i = .popRr .af → s.read8 s.sp = .ok t.f)

/-- Which instruction can raise what, for every instruction and every state (R267, the spec's own derivation): the table's row
allows the answer. An instruction of the row "none" completes in every state, and no instruction is refused. The row of the
escape row's term is that of the secondary row it selects (log 8, the model's choice). -/
def Obligations.FaultTableIsSound : Prop :=
  ∀ (i : Instr) (s : State), allowedBy (faultClass i s) (exec i s)

/-- An AddressFault of a tick names a byte that no region serves: unmapped for a read, outside RAM for a write (R262,
decision D7). No tick is refused. -/
def Obligations.AddressFaultsNameAnUnservedByte : Prop :=
  (∀ (s : State) x, s.run = .running → step s = .fault (.addressFault x .read) → ¬ Mapped x) ∧
  (∀ (s : State) x, s.run = .running → step s = .fault (.addressFault x .write) → ¬ InRam x) ∧
  (∀ (s : State) why, step s ≠ .refused why)

/-! ## Memory (spec/20_memory.md) -/

/-- `MemRead(addr, 1)` by the ranges of the region table (R41, R47). -/
def Obligations.ReadByteByRegion : Prop :=
  ∀ (s : State) (x : Word),
    (x.toNat ≤ 0x00FF → s.config.bootOverlayLive = true → s.read8 x = .ok (s.config.bootImage.read x.toNat)) ∧
    (x.toNat ≤ 0x00FF → s.config.bootOverlayLive = false → s.read8 x = .ok (s.config.cartRom.read x.toNat)) ∧
    (0x0100 ≤ x.toNat → x.toNat ≤ 0x3FFF → s.read8 x = .ok (s.config.cartRom.read x.toNat)) ∧
    (0x4000 ≤ x.toNat → x.toNat ≤ 0x7FFF → s.read8 x = .error (.addressFault x .read)) ∧
    (0x8000 ≤ x.toNat → x.toNat ≤ 0x9FFF → s.read8 x = .ok (s.mem.read x.toNat)) ∧
    (0xA000 ≤ x.toNat → x.toNat ≤ 0xBFFF → s.read8 x = .error (.addressFault x .read)) ∧
    (0xC000 ≤ x.toNat → x.toNat ≤ 0xDFFF → s.read8 x = .ok (s.mem.read x.toNat)) ∧
    (0xE000 ≤ x.toNat → s.read8 x = .error (.addressFault x .read))

/-- `MemWrite(addr, 1, v)` (R48): in RAM the byte is stored and every other byte and register stays; anywhere else the write
raises AddressFault (a read-only region: R46, decision D7). The stored byte is what the next fetch there pulls (R59). -/
def Obligations.WriteByteByRegion : Prop :=
  ∀ (s : State) (x : Word) (v : Byte),
    (InRam x → ∃ t, s.write8 x v = .ok t ∧ t.read8 x = .ok v ∧ (t.setPc x).pull 0 = .ok v ∧ t.sp = s.sp ∧ t.pc = s.pc ∧
      t.f = s.f ∧ Frame s t [] [] [x]) ∧
    (¬ InRam x → s.write8 x v = .error (.addressFault x .write))

/-- A 16-bit write stores exactly its two bytes, low byte at the lower address, and a 16-bit read gives the value back
(R49, R50, R51); a byte that cannot be served raises its own fault, the lower address first. -/
def Obligations.WordAccessIsLittleEndian : Prop :=
  ∀ (s : State) (x v : Word),
    (InRam x → InRam (x + 1#16) → ∃ t, s.write16 x v = .ok t ∧ t.read16 x = .ok v ∧
      (∃ lo, t.read8 x = .ok lo ∧ lo.toNat = v.toNat % 256) ∧
      (∃ hi, t.read8 (x + 1#16) = .ok hi ∧ hi.toNat = v.toNat / 256) ∧
      t.sp = s.sp ∧ t.pc = s.pc ∧ t.f = s.f ∧ Frame s t [] [] [x, x + 1#16]) ∧
    (¬ InRam x → s.write16 x v = .error (.addressFault x .write)) ∧
    (InRam x → ¬ InRam (x + 1#16) → s.write16 x v = .error (.addressFault (x + 1#16) .write)) ∧
    (∀ lo hi, s.read8 x = .ok lo → s.read8 (x + 1#16) = .ok hi →
      ∃ w, s.read16 x = .ok w ∧ w.toNat = hi.toNat * 256 + lo.toNat) ∧
    (¬ Mapped x → s.read16 x = .error (.addressFault x .read)) ∧
    (Mapped x → ¬ Mapped (x + 1#16) → s.read16 x = .error (.addressFault (x + 1#16) .read))

/-! ## Registers and reset (spec/10_state.md, spec/70_reset_and_hazards.md) -/

/-- A pair write deposits all 8 bits of each half and is read back exactly; the other pairs and everything else stay (R11, R12);
a cell write is read back (R13's round trip). -/
def Obligations.PairsRoundTrip : Prop :=
  (∀ (s : State) (p : Pair) (v : Word),
    (s.setPair p v).pair p = v ∧
    ((s.setPair p v).cell (pairHi p)).toNat = v.toNat / 256 ∧ ((s.setPair p v).cell (pairLo p)).toNat = v.toNat % 256 ∧
    (s.pair p).toNat = (s.cell (pairHi p)).toNat * 256 + (s.cell (pairLo p)).toNat ∧
    (∀ q, q ≠ p → (s.setPair p v).pair q = s.pair q)) ∧
  (∀ (s : State) (r : Cell) (v : Byte), (s.setCell r v).cell r = v ∧ ∀ q, q ≠ r → (s.setCell r v).cell q = s.cell q)

/-- A flag write changes exactly its bit of F, with the masks of R15 (positions: R14, decision D4). -/
def Obligations.FlagWriteChangesOneBit : Prop :=
  ∀ (s : State) (v : Bool),
    (s.setFlag .z v).f = (s.f &&& 0x7F#8) ||| (bitOf v <<< 7) ∧ (s.setFlag .n v).f = (s.f &&& 0xBF#8) ||| (bitOf v <<< 6) ∧
    (s.setFlag .h v).f = (s.f &&& 0xDF#8) ||| (bitOf v <<< 5) ∧ (s.setFlag .c v).f = (s.f &&& 0xEF#8) ||| (bitOf v <<< 4) ∧
    s.flag .z = s.f.getLsbD 7 ∧ s.flag .n = s.f.getLsbD 6 ∧ s.flag .h = s.f.getLsbD 5 ∧ s.flag .c = s.f.getLsbD 4 ∧
    (∀ g, (s.setFlag g v).flag g = v ∧ (∀ q, q ≠ g → (s.setFlag g v).flag q = s.flag q) ∧
      (s.setFlag g v).f.extractLsb' 0 4 = s.f.extractLsb' 0 4 ∧ ∀ r, r ≠ .f → (s.setFlag g v).cell r = s.cell r)

/-- Reset zeroes every register and sets `pc` to 0xC000, whatever the launch parameters (R31, R32). -/
def Obligations.ResetRegisters : Prop :=
  ∀ old : State, ∀ t ∈ [State.reset, old.resetCpu],
    (∀ r, t.cell r = 0x00#8) ∧ (∀ g, t.flag g = false) ∧ t.f.extractLsb' 0 4 = 0#4 ∧ t.sp = 0x0000#16 ∧ t.pc = 0xC000#16

/-- Reset clears the latches, sets the machine Running, and leaves memory and the configuration alone (R30, R33, decision D26). -/
def Obligations.ResetControlState : Prop :=
  ∀ old : State, ∀ t ∈ [State.reset, old.resetCpu],
    t.ime = false ∧ t.imePending = false ∧ t.run = .running ∧
    old.resetCpu.mem = old.mem ∧ old.resetCpu.config = old.config ∧ ∀ x, old.resetCpu.read8 x = old.read8 x

/-! ## 8-bit loads (spec/40_load8.md) -/

/-- `LD r,r'` and `LD r,n8` (R100, R101). -/
def Obligations.RegisterAndImmediateLoads : Prop :=
  (∀ dst src s, Effect (.ldRR dst src) s [cellOf dst] [] [] s.sp s.pc fun t => t.reg dst = s.reg src) ∧
  (∀ r n8 s, Effect (.ldRN8 r n8) s [cellOf r] [] [] s.sp s.pc fun t => t.reg r = n8)

/-- `LD r,(HL)`, `LD A,(BC)`, `LD A,(DE)`, `LD A,(a16)` (R102, R105, R106, R109): the byte at the address, from the old registers;
AddressFault read where it is unmapped. -/
def Obligations.LoadsFromMemory : Prop :=
  ∀ (s : State) (v : Byte),
    (∀ r, s.read8 (s.pair .hl) = .ok v → Effect (.ldRHl r) s [cellOf r] [] [] s.sp s.pc fun t => t.reg r = v) ∧
    (s.read8 (s.pair .bc) = .ok v → Effect .ldABc s [.a] [] [] s.sp s.pc fun t => t.a = v) ∧
    (s.read8 (s.pair .de) = .ok v → Effect .ldADe s [.a] [] [] s.sp s.pc fun t => t.a = v) ∧
    (∀ a16, s.read8 a16 = .ok v → Effect (.ldAA16 a16) s [.a] [] [] s.sp s.pc fun t => t.a = v) ∧
    (∀ r, ReadFaults (.ldRHl r) s (s.pair .hl)) ∧ ReadFaults .ldABc s (s.pair .bc) ∧
    ReadFaults .ldADe s (s.pair .de) ∧ (∀ a16, ReadFaults (.ldAA16 a16) s a16)

/-- `LD (HL),r`, `LD (HL),n8`, `LD (BC),A`, `LD (DE),A`, `LD (a16),A` (R103, R104, R107, R108, R110); AddressFault write where the
address is not in RAM (a read-only address: decision D7). -/
def Obligations.StoresToMemory : Prop :=
  ∀ s : State,
    (∀ r, InRam (s.pair .hl) →
      Effect (.ldHlR r) s [] [] [s.pair .hl] s.sp s.pc fun t => t.read8 (s.pair .hl) = .ok (s.reg r)) ∧
    (∀ n8, InRam (s.pair .hl) →
      Effect (.ldHlN8 n8) s [] [] [s.pair .hl] s.sp s.pc fun t => t.read8 (s.pair .hl) = .ok n8) ∧
    (InRam (s.pair .bc) → Effect .ldBcA s [] [] [s.pair .bc] s.sp s.pc fun t => t.read8 (s.pair .bc) = .ok s.a) ∧
    (InRam (s.pair .de) → Effect .ldDeA s [] [] [s.pair .de] s.sp s.pc fun t => t.read8 (s.pair .de) = .ok s.a) ∧
    (∀ a16, InRam a16 → Effect (.ldA16A a16) s [] [] [a16] s.sp s.pc fun t => t.read8 a16 = .ok s.a) ∧
    (∀ r, WriteFaults (.ldHlR r) s (s.pair .hl)) ∧ (∀ n8, WriteFaults (.ldHlN8 n8) s (s.pair .hl)) ∧
    WriteFaults .ldBcA s (s.pair .bc) ∧ WriteFaults .ldDeA s (s.pair .de) ∧ (∀ a16, WriteFaults (.ldA16A a16) s a16)

/-- `LD A,(HL+)` and `LD A,(HL-)` (R117, R119): HL moves by one, modulo 65536, after the copy; AddressFault read where HL is
unmapped. -/
def Obligations.LoadsThatMoveHl : Prop :=
  ∀ (s : State) (v : Byte),
    (s.read8 (s.pair .hl) = .ok v →
      Effect .ldAHli s [.a, .h, .l] [] [] s.sp s.pc (fun t =>
        t.a = v ∧ (t.pair .hl).toNat = ((s.pair .hl).toNat + 1) % 65536) ∧
      Effect .ldAHld s [.a, .h, .l] [] [] s.sp s.pc (fun t =>
        t.a = v ∧ (t.pair .hl).toNat = ((s.pair .hl).toNat + 65535) % 65536)) ∧
    ReadFaults .ldAHli s (s.pair .hl) ∧ ReadFaults .ldAHld s (s.pair .hl)

/-- `LD (HL+),A` and `LD (HL-),A` (R116, R118): the store is at the old HL, which then moves by one; AddressFault write where HL
is not in RAM (a read-only address: decision D7). -/
def Obligations.StoresThatMoveHl : Prop :=
  ∀ s : State,
    (InRam (s.pair .hl) →
      Effect .ldHliA s [.h, .l] [] [s.pair .hl] s.sp s.pc (fun t =>
        t.read8 (s.pair .hl) = .ok s.a ∧ (t.pair .hl).toNat = ((s.pair .hl).toNat + 1) % 65536) ∧
      Effect .ldHldA s [.h, .l] [] [s.pair .hl] s.sp s.pc (fun t =>
        t.read8 (s.pair .hl) = .ok s.a ∧ (t.pair .hl).toNat = ((s.pair .hl).toNat + 65535) % 65536)) ∧
    WriteFaults .ldHliA s (s.pair .hl) ∧ WriteFaults .ldHldA s (s.pair .hl)

/-- The four high-page instructions always raise AddressFault at 0xFF00 plus their offset (R112 to R115, decision D2). -/
def Obligations.HighPageAccessesAlwaysFault : Prop :=
  ∀ (s : State),
    (∀ a8 : Byte, ∃ x : Word, x.toNat = 0xFF00 + a8.toNat ∧
      exec (.ldhAA8 a8) s = .fault (.addressFault x .read) ∧ exec (.ldhA8A a8) s = .fault (.addressFault x .write)) ∧
    (∃ x : Word, x.toNat = 0xFF00 + s.c.toNat ∧
      exec .ldhAC s = .fault (.addressFault x .read) ∧ exec .ldhCA s = .fault (.addressFault x .write))

/-! ## 16-bit loads and the stack (spec/41_load16_stack.md) -/

/-- `LD rr,n16` and `LD SP,HL` (R130, R132). -/
def Obligations.WordLoads : Prop :=
  ∀ (s : State) (n : Word),
    (Effect (.ldRrN16 .bc n) s [.b, .c] [] [] s.sp s.pc fun t =>
      t.b.toNat = n.toNat / 256 ∧ t.c.toNat = n.toNat % 256) ∧
    (Effect (.ldRrN16 .de n) s [.d, .e] [] [] s.sp s.pc fun t =>
      t.d.toNat = n.toNat / 256 ∧ t.e.toNat = n.toNat % 256) ∧
    (Effect (.ldRrN16 .hl n) s [.h, .l] [] [] s.sp s.pc fun t =>
      t.h.toNat = n.toNat / 256 ∧ t.l.toNat = n.toNat % 256) ∧
    (Effect (.ldRrN16 .sp n) s [] [] [] n s.pc fun _ => True) ∧
    (Effect .ldSpHl s [] [] [] (s.pair .hl) s.pc fun t => t.sp.toNat = s.h.toNat * 256 + s.l.toNat)

/-- `LD (a16),SP`, `LD HL,SP+e8` and `ADD SP,e8` (R131, R133, spec/43_alu16.md R183; decisions D2 and D20): the low byte of `sp`
at `a16` and the high byte after it; the sign-extended sum, Z = N = 0, H and C of the unsigned low-byte addition. -/
def Obligations.StackPointerAsOperand : Prop :=
  ∀ (s : State) (a16 : Word) (e8 : Byte),
    let sum := (s.sp.toNat + signedMod e8) % 65536
    let half := decide (s.sp.toNat % 16 + e8.toNat % 16 > 0x0F)
    let carry := decide (s.sp.toNat % 256 + e8.toNat > 0xFF)
    (InRam a16 → InRam (a16 + 1#16) → Effect (.ldA16Sp a16) s [] [] [a16, a16 + 1#16] s.sp s.pc fun t =>
      (∃ lo, t.read8 a16 = .ok lo ∧ lo.toNat = s.sp.toNat % 256) ∧
      (∃ hi, t.read8 (a16 + 1#16) = .ok hi ∧ hi.toNat = s.sp.toNat / 256)) ∧
    WordWriteFaults (.ldA16Sp a16) s a16 ∧
    Effect (.ldHlSpE8 e8) s [.h, .l] allFlags [] s.sp s.pc (fun t =>
      (t.pair .hl).toNat = sum ∧ FlagsAre t false false half carry) ∧
    Effect (.addSpE8 e8) s [] allFlags [] (BitVec.ofNat 16 sum) s.pc (fun t => FlagsAre t false false half carry)

/-- `PUSH rr` (R136): `sp` down by 2, then the pair at the new `sp`, low byte first; PUSH AF stores all 8 bits of F. It faults at
the first of its two bytes that is not in RAM (a read-only byte: decision D7; the order: D11). -/
def Obligations.PushStoresThePair : Prop :=
  ∀ (s : State) (p : Pair),
    (CanPush s →
      Effect (.pushRr p) s [] [] (pushedBytes s) (s.sp - 2#16) s.pc fun t =>
        t.f = s.f ∧ t.read8 (s.sp - 2#16) = .ok (s.cell (pairLo p)) ∧ t.read8 (s.sp - 2#16 + 1#16) = .ok (s.cell (pairHi p))) ∧
    WordWriteFaults (.pushRr p) s (s.sp - 2#16)

/-- `POP rr` (R137): the pair from `sp`, low byte first, then `sp` up by 2; POP AF loads all 8 bits of F. It faults at the first
of its two bytes that is unmapped (the order: decision D11). -/
def Obligations.PopLoadsThePair : Prop :=
  (∀ (s : State) (lo hi : Byte), s.read8 s.sp = .ok lo → s.read8 (s.sp + 1#16) = .ok hi →
    (∀ p, p ≠ .af → Effect (.popRr p) s [pairHi p, pairLo p] [] [] (s.sp + 2#16) s.pc fun t =>
      t.cell (pairHi p) = hi ∧ t.cell (pairLo p) = lo ∧ t.f = s.f) ∧
    (∃ t, exec (.popRr .af) s = .next t ∧ t.a = hi ∧ t.f = lo ∧ t.sp = s.sp + 2#16 ∧ t.pc = s.pc ∧
      FlagsAre t (lo.getLsbD 7) (lo.getLsbD 6) (lo.getLsbD 5) (lo.getLsbD 4) ∧
      (∀ r, r ≠ .a → r ≠ .f → t.cell r = s.cell r) ∧ (∀ x, t.read8 x = s.read8 x) ∧
      t.ime = s.ime ∧ t.imePending = s.imePending ∧ t.run = s.run ∧ t.config = s.config)) ∧
  (∀ (s : State) (p : Pair), WordReadFaults (.popRr p) s s.sp)

/-- Push and pop are inverse (R138, the spec's own derivation): a pop after a push completes, gives the pushed value to any pair
it names and restores `sp`, and only the two pushed bytes have changed. -/
def Obligations.PopAfterPushRestores : Prop :=
  ∀ (s t : State) (p q : Pair), exec (.pushRr p) s = .next t →
    ∃ u, exec (.popRr q) t = .next u ∧ u.pair q = s.pair p ∧ u.sp = s.sp ∧
      (q = p → ∀ r, u.cell r = s.cell r) ∧ ∀ x, x ≠ s.sp - 2#16 → x ≠ s.sp - 1#16 → u.read8 x = s.read8 x

/-! ## 8-bit arithmetic and logic (spec/42_alu8.md) -/

/-- ADD and ADC in their three operand forms (R150, R151, R166); the `(HL)` forms fault where the byte is unmapped. -/
def Obligations.AdditionsToA : Prop :=
  ∀ s : State,
    (∀ r, AddEffect (.addAR r) s (s.reg r) false) ∧ (∀ n8, AddEffect (.addAN8 n8) s n8 false) ∧
    (∀ v, s.read8 (s.pair .hl) = .ok v → AddEffect .addAHl s v false) ∧
    (∀ r, AddEffect (.adcAR r) s (s.reg r) (s.flag .c)) ∧ (∀ n8, AddEffect (.adcAN8 n8) s n8 (s.flag .c)) ∧
    (∀ v, s.read8 (s.pair .hl) = .ok v → AddEffect .adcAHl s v (s.flag .c)) ∧
    ReadFaults .addAHl s (s.pair .hl) ∧ ReadFaults .adcAHl s (s.pair .hl)

/-- SUB, SBC and CP in their three operand forms (R152, R153, R157, R166); the `(HL)` forms fault where the byte is unmapped. -/
def Obligations.SubtractionsFromA : Prop :=
  ∀ s : State,
    (∀ r, SubEffect (.subR r) s (s.reg r) false) ∧ (∀ n8, SubEffect (.subN8 n8) s n8 false) ∧
    (∀ v, s.read8 (s.pair .hl) = .ok v → SubEffect .subHl s v false) ∧
    (∀ r, SubEffect (.sbcAR r) s (s.reg r) (s.flag .c)) ∧ (∀ n8, SubEffect (.sbcAN8 n8) s n8 (s.flag .c)) ∧
    (∀ v, s.read8 (s.pair .hl) = .ok v → SubEffect .sbcAHl s v (s.flag .c)) ∧
    (∀ r, CompareEffect (.cpR r) s (s.reg r)) ∧ (∀ n8, CompareEffect (.cpN8 n8) s n8) ∧
    (∀ v, s.read8 (s.pair .hl) = .ok v → CompareEffect .cpHl s v) ∧
    ReadFaults .subHl s (s.pair .hl) ∧ ReadFaults .sbcAHl s (s.pair .hl) ∧ ReadFaults .cpHl s (s.pair .hl)

/-- AND, XOR and OR in their three operand forms (R154, R155, R156, decision D2); the `(HL)` forms fault where the byte is
unmapped. -/
def Obligations.LogicOnA : Prop :=
  ∀ s : State,
    (∀ r, LogicEffect (.andR r) s (s.reg r) and true) ∧ (∀ n8, LogicEffect (.andN8 n8) s n8 and true) ∧
    (∀ v, s.read8 (s.pair .hl) = .ok v → LogicEffect .andHl s v and true) ∧
    (∀ r, LogicEffect (.xorR r) s (s.reg r) xor false) ∧ (∀ n8, LogicEffect (.xorN8 n8) s n8 xor false) ∧
    (∀ v, s.read8 (s.pair .hl) = .ok v → LogicEffect .xorHl s v xor false) ∧
    (∀ r, LogicEffect (.orR r) s (s.reg r) or false) ∧ (∀ n8, LogicEffect (.orN8 n8) s n8 or false) ∧
    (∀ v, s.read8 (s.pair .hl) = .ok v → LogicEffect .orHl s v or false) ∧
    ReadFaults .andHl s (s.pair .hl) ∧ ReadFaults .xorHl s (s.pair .hl) ∧ ReadFaults .orHl s (s.pair .hl)

/-- INC and DEC of a register and of the byte at HL (R158 to R161; Z is decision D20): C is not touched. -/
def Obligations.IncrementsAndDecrements : Prop :=
  ∀ s : State,
    (∀ r, Effect (.incR r) s [cellOf r] [.z, .n, .h] [] s.sp s.pc fun t =>
      (t.reg r).toNat = ((s.reg r).toNat + 1) % 256 ∧ IncFlags s (s.reg r) t) ∧
    (∀ r, Effect (.decR r) s [cellOf r] [.z, .n, .h] [] s.sp s.pc fun t =>
      (t.reg r).toNat = ((s.reg r).toNat + 255) % 256 ∧ DecFlags s (s.reg r) t) ∧
    (∀ v, s.read8 (s.pair .hl) = .ok v → InRam (s.pair .hl) →
      (Effect .incHl s [] [.z, .n, .h] [s.pair .hl] s.sp s.pc fun t =>
        (∃ w, t.read8 (s.pair .hl) = .ok w ∧ w.toNat = (v.toNat + 1) % 256) ∧ IncFlags s v t) ∧
      (Effect .decHl s [] [.z, .n, .h] [s.pair .hl] s.sp s.pc fun t =>
        (∃ w, t.read8 (s.pair .hl) = .ok w ∧ w.toNat = (v.toNat + 255) % 256) ∧ DecFlags s v t))

/-- DAA (R162; the thresholds are decision D21), in integers: after an addition both tests are on the accumulator before any
correction; after a subtraction there is no value test; C is never cleared and N not written. -/
def Obligations.DecimalAdjust : Prop :=
  ∀ s : State,
    let a := s.a.toNat
    let low := if s.flag .h = true ∨ (s.flag .n = false ∧ a % 16 > 0x09) then 0x06 else 0
    let high := if s.flag .c = true ∨ (s.flag .n = false ∧ a > 0x99) then 0x60 else 0
    Effect .daa s [.a] [.z, .h, .c] [] s.sp s.pc fun t =>
      (s.flag .n = false → t.a.toNat = (a + low + high) % 256) ∧
      (s.flag .n = true → t.a.toNat = (a + 256 - low - high) % 256) ∧
      FlagsAre t (decide (t.a.toNat = 0)) (s.flag .n) false
        (s.flag .c || (!s.flag .n && decide (a > 0x99)))

/-- DAA makes the accumulator a valid packed-BCD value after an addition or a subtraction of two packed-BCD values (R162): the
decimal sum or difference modulo 100, with the decimal carry or borrow in C. -/
def Obligations.DecimalAdjustIsDecimal : Prop :=
  ∀ (s : State) (x y : Nat), x < 100 → y < 100 → s.a = bcd x →
    (∃ t u, exec (.addAN8 (bcd y)) s = .next t ∧ exec .daa t = .next u ∧
      u.a = bcd ((x + y) % 100) ∧ u.flag .c = decide (x + y ≥ 100)) ∧
    (∃ t u, exec (.subN8 (bcd y)) s = .next t ∧ exec .daa t = .next u ∧
      u.a = bcd ((x + 100 - y) % 100) ∧ u.flag .c = decide (x < y))

/-- CPL, SCF and CCF (R163, R164, R165, decision D2). -/
def Obligations.ComplementAndCarryFlag : Prop :=
  ∀ s : State,
    (Effect .cpl s [.a] [.n, .h] [] s.sp s.pc fun t =>
      t.a.toNat = 255 - s.a.toNat ∧ FlagsAre t (s.flag .z) true true (s.flag .c)) ∧
    (Effect .scf s [] [.n, .h, .c] [] s.sp s.pc fun t => FlagsAre t (s.flag .z) false false true) ∧
    (Effect .ccf s [] [.n, .h, .c] [] s.sp s.pc fun t => FlagsAre t (s.flag .z) false false (!s.flag .c))

/-! ## 16-bit arithmetic (spec/43_alu16.md) -/

/-- `ADD HL,rr` (R180, decision D2): H out of bit 11, C out of bit 15, Z not written. -/
def Obligations.AdditionToHl : Prop :=
  ∀ (s : State) (rr : Reg16),
    let h := (s.pair .hl).toNat
    let v := (s.val rr).toNat
    Effect (.addHlRr rr) s [.h, .l] [.n, .h, .c] [] s.sp s.pc fun t =>
      (t.pair .hl).toNat = (h + v) % 65536 ∧
      FlagsAre t (s.flag .z) false (decide (h % 4096 + v % 4096 > 0x0FFF)) (decide (h + v > 0xFFFF))

/-- `INC rr` and `DEC rr` (R181, R182, decision D2): modulo 65536, no flag. -/
def Obligations.WordIncrementsAndDecrements : Prop :=
  ∀ s : State,
    (∀ (rr : Reg16) (p : Pair), (rr, p) ∈ [(Reg16.bc, Pair.bc), (.de, .de), (.hl, .hl)] →
      (Effect (.incRr rr) s [pairHi p, pairLo p] [] [] s.sp s.pc fun t =>
        (t.pair p).toNat = ((s.pair p).toNat + 1) % 65536) ∧
      (Effect (.decRr rr) s [pairHi p, pairLo p] [] [] s.sp s.pc fun t =>
        (t.pair p).toNat = ((s.pair p).toNat + 65535) % 65536)) ∧
    (Effect (.incRr .sp) s [] [] [] (s.sp + 1#16) s.pc fun t => t.sp.toNat = (s.sp.toNat + 1) % 65536) ∧
    (Effect (.decRr .sp) s [] [] [] (s.sp - 1#16) s.pc fun t => t.sp.toNat = (s.sp.toNat + 65535) % 65536)

/-! ## Rotates, shifts, bits (spec/44_rotate_shift.md, spec/45_bit.md) -/

/-- RLCA, RRCA, RLA, RRA (R190 to R193), in integers. -/
def Obligations.AccumulatorRotates : Prop :=
  RotateAEffect .rlca (fun v _ => v * 2 % 256 + v / 128) (fun v => decide (v / 128 = 1)) ∧
  RotateAEffect .rrca (fun v _ => v / 2 + v % 2 * 128) (fun v => decide (v % 2 = 1)) ∧
  RotateAEffect .rla (fun v c => v * 2 % 256 + c) (fun v => decide (v / 128 = 1)) ∧
  RotateAEffect .rra (fun v c => v / 2 + c * 128) (fun v => decide (v % 2 = 1))

/-- RLC, RRC, RL, RR on a register and on `(HL)` (R194 to R197; N and H are decision D20), in integers. -/
def Obligations.GeneralRotates : Prop :=
  ShiftEffect .rlcR .rlcHl (fun v _ => v * 2 % 256 + v / 128) (fun v => decide (v / 128 = 1)) ∧
  ShiftEffect .rrcR .rrcHl (fun v _ => v / 2 + v % 2 * 128) (fun v => decide (v % 2 = 1)) ∧
  ShiftEffect .rlR .rlHl (fun v c => v * 2 % 256 + c) (fun v => decide (v / 128 = 1)) ∧
  ShiftEffect .rrR .rrHl (fun v c => v / 2 + c * 128) (fun v => decide (v % 2 = 1))

/-- SLA, SRA, SRL and SWAP on a register and on `(HL)` (R198 to R201, decision D20), in integers. -/
def Obligations.ShiftsAndSwap : Prop :=
  ShiftEffect .slaR .slaHl (fun v _ => v * 2 % 256) (fun v => decide (v / 128 = 1)) ∧
  ShiftEffect .sraR .sraHl (fun v _ => v / 2 + v / 128 * 128) (fun v => decide (v % 2 = 1)) ∧
  ShiftEffect .srlR .srlHl (fun v _ => v / 2) (fun v => decide (v % 2 = 1)) ∧
  ShiftEffect .swapR .swapHl (fun v _ => v % 16 * 16 + v / 16) (fun _ => false)

/-- BIT on a register and on `(HL)` (R210; N is decision D20): Z from the selected bit, H = 1, C and the operand unchanged; the
`(HL)` form only reads, and faults where the byte is unmapped. -/
def Obligations.BitTest : Prop :=
  ∀ (s : State) (b : BitVec 3),
    (∀ r, Effect (.bitBR b r) s [] [.z, .n, .h] [] s.sp s.pc fun t =>
      FlagsAre t (decide ((s.reg r).toNat / 2 ^ b.toNat % 2 = 0)) false true (s.flag .c)) ∧
    (∀ v, s.read8 (s.pair .hl) = .ok v → Effect (.bitBHl b) s [] [.z, .n, .h] [] s.sp s.pc fun t =>
      FlagsAre t (decide (v.toNat / 2 ^ b.toNat % 2 = 0)) false true (s.flag .c)) ∧
    ReadFaults (.bitBHl b) s (s.pair .hl)

/-- RES and SET on a register and on `(HL)` (R211, R212): the selected bit and no other, no flag; the `(HL)` forms fault on the
read where the byte is unmapped, on the write where it is only readable (decision D7). -/
def Obligations.BitResetAndSet : Prop :=
  ∀ (s : State) (b : BitVec 3),
    (∀ r, (Effect (.resBR b r) s [cellOf r] [] [] s.sp s.pc fun t =>
        ∀ k, k < 8 → (t.reg r).getLsbD k = if k = b.toNat then false else (s.reg r).getLsbD k) ∧
      (Effect (.setBR b r) s [cellOf r] [] [] s.sp s.pc fun t =>
        ∀ k, k < 8 → (t.reg r).getLsbD k = if k = b.toNat then true else (s.reg r).getLsbD k)) ∧
    (∀ v, s.read8 (s.pair .hl) = .ok v → InRam (s.pair .hl) →
      (Effect (.resBHl b) s [] [] [s.pair .hl] s.sp s.pc fun t =>
        ∃ w, t.read8 (s.pair .hl) = .ok w ∧
          ∀ k, k < 8 → w.getLsbD k = if k = b.toNat then false else v.getLsbD k) ∧
      (Effect (.setBHl b) s [] [] [s.pair .hl] s.sp s.pc fun t =>
        ∃ w, t.read8 (s.pair .hl) = .ok w ∧
          ∀ k, k < 8 → w.getLsbD k = if k = b.toNat then true else v.getLsbD k)) ∧
    ModifyFaults (.resBHl b) s (s.pair .hl) ∧ ModifyFaults (.setBHl b) s (s.pair .hl)

/-- INC, DEC, the rotates, the shifts and SWAP on `(HL)` fault on the read where the address is unmapped and on the write where it
is only readable (R159, R161, R202; the order is decision D27), even where the byte would not change. -/
def Obligations.ReadModifyWriteFaults : Prop :=
  ∀ (s : State), ∀ i ∈ [Instr.incHl, .decHl, .rlcHl, .rrcHl, .rlHl, .rrHl, .slaHl, .sraHl, .swapHl, .srlHl],
    ModifyFaults i s (s.pair .hl)

/-! ## Control transfer (spec/46_control.md); `s.pc` is the already-advanced value (R229) -/

/-- `JP a16` and `JP cc,a16` (R220, R221; the conditions: R77): a condition that is false leaves everything alone. -/
def Obligations.AbsoluteJumps : Prop :=
  ∀ (s : State) (a16 : Word) (cc : Cond),
    (Effect (.jpA16 a16) s [] [] [] s.sp a16 fun _ => True) ∧
    (Effect (.jpCcA16 cc a16) s [] [] [] s.sp (if s.cond cc then a16 else s.pc) fun _ => True) ∧
    (s.cond .nz = !s.flag .z ∧ s.cond .z = s.flag .z ∧ s.cond .nc = !s.flag .c ∧ s.cond .c = s.flag .c)

/-- `JR e8` and `JR cc,e8` (R223, R224; decisions D13 and D14): the displacement is added to the advanced `pc`, modulo 65536. -/
def Obligations.RelativeJumps : Prop :=
  ∀ (s : State) (e8 : Byte) (cc : Cond), ∃ target : Word, target.toNat = (s.pc.toNat + signedMod e8) % 65536 ∧
    (Effect (.jrE8 e8) s [] [] [] s.sp target fun _ => True) ∧
    (Effect (.jrCcE8 cc e8) s [] [] [] s.sp (if s.cond cc then target else s.pc) fun _ => True)

/-- `CALL a16`, `CALL cc,a16`, `RST t` (R225, R226, R232, decisions D2 and D22): the advanced `pc` is pushed, low byte lower; a
call that is not taken makes no access and leaves everything alone. -/
def Obligations.CallsAndRestarts : Prop :=
  ∀ (s : State) (a16 : Word) (cc : Cond) (t : BitVec 3),
    (CanPush s →
      (Effect (.callA16 a16) s [] [] (pushedBytes s) (s.sp - 2#16) a16 fun u => Pushed s u s.pc) ∧
      (s.cond cc = true →
        Effect (.callCcA16 cc a16) s [] [] (pushedBytes s) (s.sp - 2#16) a16 fun u => Pushed s u s.pc) ∧
      (Effect (.rstT t) s [] [] (pushedBytes s) (s.sp - 2#16) (BitVec.ofNat 16 (8 * t.toNat)) fun u => Pushed s u s.pc)) ∧
    (s.cond cc = false → Effect (.callCcA16 cc a16) s [] [] [] s.sp s.pc fun _ => True) ∧
    WordWriteFaults (.callA16 a16) s (s.sp - 2#16) ∧ WordWriteFaults (.rstT t) s (s.sp - 2#16) ∧
    (s.cond cc = true → WordWriteFaults (.callCcA16 cc a16) s (s.sp - 2#16))

/-- `RET` (R227): `pc` from the two bytes at `sp`, low byte first, and `sp` up by 2; it faults at the first of them that is
unmapped (the order: decision D11). -/
def Obligations.ReturnPopsPc : Prop :=
  (∀ (s : State) (lo hi : Byte), s.read8 s.sp = .ok lo → s.read8 (s.sp + 1#16) = .ok hi →
    Effect .ret s [] [] [] (s.sp + 2#16) (hi ++ lo) fun t => t.pc.toNat = hi.toNat * 256 + lo.toNat) ∧
  (∀ s : State, WordReadFaults .ret s s.sp)

/-- `JP HL`, `RET cc` and `RETI` (R222, R228, R231, decisions D2 and D15): RETI sets `ime` at once and leaves `ime_pending`; a
return that is not taken makes no access; a return that is made faults at the first of its two bytes that is unmapped. -/
def Obligations.JumpToHlAndReturns : Prop :=
  (∀ s : State, Effect .jpHl s [] [] [] s.sp (s.pair .hl) fun t => t.pc.toNat = s.h.toNat * 256 + s.l.toNat) ∧
  (∀ (s : State) (cc : Cond), s.cond cc = false → Effect (.retCc cc) s [] [] [] s.sp s.pc fun _ => True) ∧
  (∀ (s : State) (lo hi : Byte), s.read8 s.sp = .ok lo → s.read8 (s.sp + 1#16) = .ok hi →
    (∀ cc, s.cond cc = true → Effect (.retCc cc) s [] [] [] (s.sp + 2#16) (hi ++ lo) fun _ => True) ∧
    (∃ t, exec .reti s = .next t ∧ t.pc = hi ++ lo ∧ t.sp = s.sp + 2#16 ∧ t.ime = true ∧ t.imePending = s.imePending ∧
      (∀ r, t.cell r = s.cell r) ∧ (∀ x, t.read8 x = s.read8 x) ∧ t.run = s.run ∧ t.config = s.config)) ∧
  (∀ s : State, WordReadFaults .reti s s.sp ∧ ∀ cc, s.cond cc = true → WordReadFaults (.retCc cc) s s.sp)

/-- A RET after a CALL comes back to the instruction after the call, with `sp` restored (R225, R227). -/
def Obligations.ReturnAfterCallComesBack : Prop :=
  ∀ (s t : State) (a16 pc' : Word), exec (.callA16 a16) s = .next t →
    ∃ u, exec .ret (t.setPc pc') = .next u ∧ u.pc = s.pc ∧ u.sp = s.sp ∧ ∀ r, u.cell r = s.cell r

/-! ## System instructions (spec/47_system.md, decisions D2, D15, D16) -/

/-- NOP, HALT, STOP, DI, EI (R240 to R244): each completes in every state and changes nothing but what its rule names. -/
def Obligations.SystemInstructions : Prop :=
  ∀ (s : State) (pad : Byte),
    exec .nop s = .next s ∧
    (∃ t, exec .halt s = .next t ∧ t.run = .halted ∧ { t with run := s.run } = s) ∧
    (∃ t, exec (.stop pad) s = .next t ∧ t.run = .stopped ∧ { t with run := s.run } = s) ∧
    (∃ t, exec .di s = .next t ∧ t.ime = false ∧ t.imePending = false ∧
      { t with ime := s.ime, imePending := s.imePending } = s) ∧
    (∃ t, exec .ei s = .next t ∧ t.imePending = true ∧ { t with imePending := s.imePending } = s)
end

