-- ==== Sys2Proof/Laws/Decode.lean ====
section
/-! SUPPORT. One lemma per instruction format of the decoder (spec/30_encoding.md R70, R79), and that decoding looks at nothing but what it pulls. -/

namespace Sys2Proof

@[simp] theorem pullList_zero (b : Byte) (rest : List Byte) : pullList (b :: rest) 0 = .ok b := rfl
@[simp] theorem pullList_one (a b : Byte) (rest : List Byte) : pullList (a :: b :: rest) 1 = .ok b := rfl
@[simp] theorem pullList_two (a b c : Byte) (rest : List Byte) : pullList (a :: b :: c :: rest) 2 = .ok c := rfl

/-- Format `OP`. -/
theorem decode_op {op : Byte} {i : Instr} (h : primary op = .op i) (rest : List Byte) :
    decode (op :: rest) = .ok (i, rest) := by
  simp [decode, decodeFrom, h]

/-- Format `OP_N8`. -/
theorem decode_n8 {op : Byte} {k : Byte → Instr} (h : primary op = .n8 k) (n : Byte) (rest : List Byte) :
    decode (op :: n :: rest) = .ok (k n, rest) := by
  simp [decode, decodeFrom, h]

/-- Format `OP_E8`. -/
theorem decode_e8 {op : Byte} {k : Byte → Instr} (h : primary op = .e8 k) (e : Byte) (rest : List Byte) :
    decode (op :: e :: rest) = .ok (k e, rest) := by
  simp [decode, decodeFrom, h]

/-- Format `OP_N16`: the low byte first (R73). -/
theorem decode_n16 {op : Byte} {k : Word → Instr} (h : primary op = .n16 k) (lo hi : Byte) (rest : List Byte) :
    decode (op :: lo :: hi :: rest) = .ok (k (wordOf hi lo), rest) := by
  simp [decode, decodeFrom, h]

/-- Format `CB_OP` (R80). -/
theorem decode_escape {op : Byte} (h : primary op = .escape) (bitcode : Byte) (rest : List Byte) :
    decode (op :: bitcode :: rest) = .ok (secondary bitcode, rest) := by
  simp [decode, decodeFrom, h]

/-- Two pull sources that agree wherever the first answers decode alike. -/
theorem decodeFrom_mono {ε δ : Type} {p : Nat → Except ε Byte} {q : Nat → Except δ Byte} {i : Instr} {n : Nat}
    (h : decodeFrom p = .ok (i, n)) (hpq : ∀ k b, p k = .ok b → q k = .ok b) : decodeFrom q = .ok (i, n) := by
  unfold decodeFrom at h ⊢
  split at h
  · cases h
  · rename_i op hop
    rw [hpq 0 op hop]
    simp only
    split at h
    · cases h; rfl
    · split at h
      · cases h
      · rename_i b hb; cases h; rw [hpq _ _ hb]
    · split at h
      · cases h
      · rename_i b hb; cases h; rw [hpq _ _ hb]
    · split at h
      · cases h
      · split at h
        · cases h
        · rename_i b hb _ c hc; cases h; rw [hpq _ _ hb, hpq _ _ hc]
    · split at h
      · cases h
      · rename_i b hb; cases h; rw [hpq _ _ hb]

end Sys2Proof
end

