-- ==== Sys2Proof/Laws/State.lean ====
section
/-! SUPPORT. One lemma per field per update of State, so that no later proof unfolds a record update; the laws of cells, pairs and flags. -/

namespace Sys2Proof.Machine

/-! ## Byte order -/

theorem wordOf_toNat (hi lo : Byte) : (wordOf hi lo).toNat = hi.toNat * 256 + lo.toNat := by
  have := lo.isLt
  simp only [wordOf, BitVec.toNat_append]
  rw [← Nat.shiftLeft_add_eq_or_of_lt this, Nat.shiftLeft_eq]

theorem loByte_toNat (v : Word) : (loByte v).toNat = v.toNat % 256 := by
  simp [loByte]

theorem hiByte_toNat (v : Word) : (hiByte v).toNat = v.toNat / 256 := by
  have := v.isLt
  simp [hiByte, Nat.shiftRight_eq_div_pow]; omega

@[simp] theorem hiByte_wordOf (hi lo : Byte) : hiByte (wordOf hi lo) = hi := by
  have := lo.isLt
  apply BitVec.eq_of_toNat_eq; rw [hiByte_toNat, wordOf_toNat]; omega

@[simp] theorem loByte_wordOf (hi lo : Byte) : loByte (wordOf hi lo) = lo := by
  have := lo.isLt
  apply BitVec.eq_of_toNat_eq; rw [loByte_toNat, wordOf_toNat]; omega

@[simp] theorem wordOf_hiByte_loByte (v : Word) : wordOf (hiByte v) (loByte v) = v := by
  apply BitVec.eq_of_toNat_eq; rw [wordOf_toNat, hiByte_toNat, loByte_toNat]; omega

/-! ## `setCell` -/

@[simp] theorem setCell_sp (s : State) (r : Cell) (v : Byte) : (s.setCell r v).sp = s.sp := by cases r <;> rfl
@[simp] theorem setCell_pc (s : State) (r : Cell) (v : Byte) : (s.setCell r v).pc = s.pc := by cases r <;> rfl
@[simp] theorem setCell_ime (s : State) (r : Cell) (v : Byte) : (s.setCell r v).ime = s.ime := by cases r <;> rfl
@[simp] theorem setCell_imePending (s : State) (r : Cell) (v : Byte) : (s.setCell r v).imePending = s.imePending := by cases r <;> rfl
@[simp] theorem setCell_run (s : State) (r : Cell) (v : Byte) : (s.setCell r v).run = s.run := by cases r <;> rfl
@[simp] theorem setCell_mem (s : State) (r : Cell) (v : Byte) : (s.setCell r v).mem = s.mem := by cases r <;> rfl
@[simp] theorem setCell_config (s : State) (r : Cell) (v : Byte) : (s.setCell r v).config = s.config := by cases r <;> rfl

/-- Reading a cell after a write of a cell (spec/10_state.md R13). -/
theorem setCell_cell (s : State) (r q : Cell) (v : Byte) :
    (s.setCell r v).cell q = if q = r then v else s.cell q := by cases r <;> cases q <;> rfl

@[simp] theorem setCell_cell_same (s : State) (r : Cell) (v : Byte) : (s.setCell r v).cell r = v := by cases r <;> rfl

theorem setCell_cell_other (s : State) {r q : Cell} (h : q ≠ r) (v : Byte) : (s.setCell r v).cell q = s.cell q := by
  rw [setCell_cell, if_neg h]

/-- A write of a cell other than F leaves F. -/
theorem setCell_f (s : State) {r : Cell} (h : r ≠ .f) (v : Byte) : (s.setCell r v).f = s.f := by
  cases r <;> first | rfl | exact absurd rfl h

@[simp] theorem setCell_a_a (s : State) (v : Byte) : (s.setCell .a v).a = v := rfl
@[simp] theorem setCell_a_f (s : State) (v : Byte) : (s.setCell .a v).f = s.f := rfl
@[simp] theorem cell_a (s : State) : s.cell .a = s.a := rfl
@[simp] theorem cell_f (s : State) : s.cell .f = s.f := rfl
@[simp] theorem cell_c (s : State) : s.cell .c = s.c := rfl

/-! ## `setPair` -/

@[simp] theorem setPair_sp (s : State) (p : Pair) (v : Word) : (s.setPair p v).sp = s.sp := by simp [State.setPair]
@[simp] theorem setPair_pc (s : State) (p : Pair) (v : Word) : (s.setPair p v).pc = s.pc := by simp [State.setPair]
@[simp] theorem setPair_ime (s : State) (p : Pair) (v : Word) : (s.setPair p v).ime = s.ime := by simp [State.setPair]
@[simp] theorem setPair_imePending (s : State) (p : Pair) (v : Word) : (s.setPair p v).imePending = s.imePending := by simp [State.setPair]
@[simp] theorem setPair_run (s : State) (p : Pair) (v : Word) : (s.setPair p v).run = s.run := by simp [State.setPair]
@[simp] theorem setPair_mem (s : State) (p : Pair) (v : Word) : (s.setPair p v).mem = s.mem := by simp [State.setPair]
@[simp] theorem setPair_config (s : State) (p : Pair) (v : Word) : (s.setPair p v).config = s.config := by simp [State.setPair]

theorem pairHi_ne_pairLo (p q : Pair) : pairHi p ≠ pairLo q := by cases p <;> cases q <;> decide

/-- All 16 bits of a pair write are stored (spec/10_state.md R12). -/
@[simp] theorem setPair_pair_same (s : State) (p : Pair) (v : Word) : (s.setPair p v).pair p = v := by
  simp [State.setPair, State.pair, setCell_cell, pairHi_ne_pairLo]

/-- A pair write leaves every other pair. -/
theorem setPair_pair_other (s : State) {p q : Pair} (h : q ≠ p) (v : Word) : (s.setPair p v).pair q = s.pair q := by
  cases p <;> cases q <;> first | rfl | exact absurd rfl h

/-- A pair write leaves every cell outside the pair. -/
theorem setPair_cell_other (s : State) {p : Pair} {r : Cell} (hh : r ≠ pairHi p) (hl : r ≠ pairLo p) (v : Word) :
    (s.setPair p v).cell r = s.cell r := by
  simp [State.setPair, setCell_cell, hh, hl]

theorem setPair_cell (s : State) (p : Pair) (v : Word) (r : Cell) :
    (s.setPair p v).cell r = if r = pairLo p then loByte v else if r = pairHi p then hiByte v else s.cell r := by
  simp [State.setPair, setCell_cell]

/-- A write of a pair other than AF leaves F. -/
theorem setPair_f (s : State) {p : Pair} (h : p ≠ .af) (v : Word) : (s.setPair p v).f = s.f := by
  cases p <;> first | rfl | exact absurd rfl h

/-- A write of a pair other than AF leaves every flag. -/
theorem setPair_flag (s : State) {p : Pair} (h : p ≠ .af) (v : Word) (g : Flag) : (s.setPair p v).flag g = s.flag g := by
  simp only [State.flag, setPair_f s h]

@[simp] theorem setPair_hl_f (s : State) (v : Word) : (s.setPair .hl v).f = s.f := rfl
@[simp] theorem setPair_hl_a (s : State) (v : Word) : (s.setPair .hl v).a = s.a := rfl

/-! ## `setSp`, `setPc` -/

@[simp] theorem setSp_a (s : State) (v : Word) : (s.setSp v).a = s.a := rfl
@[simp] theorem setSp_f (s : State) (v : Word) : (s.setSp v).f = s.f := rfl
@[simp] theorem setSp_b (s : State) (v : Word) : (s.setSp v).b = s.b := rfl
@[simp] theorem setSp_c (s : State) (v : Word) : (s.setSp v).c = s.c := rfl
@[simp] theorem setSp_d (s : State) (v : Word) : (s.setSp v).d = s.d := rfl
@[simp] theorem setSp_e (s : State) (v : Word) : (s.setSp v).e = s.e := rfl
@[simp] theorem setSp_h (s : State) (v : Word) : (s.setSp v).h = s.h := rfl
@[simp] theorem setSp_l (s : State) (v : Word) : (s.setSp v).l = s.l := rfl
@[simp] theorem setSp_sp (s : State) (v : Word) : (s.setSp v).sp = v := rfl
@[simp] theorem setSp_pc (s : State) (v : Word) : (s.setSp v).pc = s.pc := rfl
@[simp] theorem setSp_ime (s : State) (v : Word) : (s.setSp v).ime = s.ime := rfl
@[simp] theorem setSp_imePending (s : State) (v : Word) : (s.setSp v).imePending = s.imePending := rfl
@[simp] theorem setSp_run (s : State) (v : Word) : (s.setSp v).run = s.run := rfl
@[simp] theorem setSp_mem (s : State) (v : Word) : (s.setSp v).mem = s.mem := rfl
@[simp] theorem setSp_config (s : State) (v : Word) : (s.setSp v).config = s.config := rfl
@[simp] theorem setSp_cell (s : State) (v : Word) (r : Cell) : (s.setSp v).cell r = s.cell r := by cases r <;> rfl
@[simp] theorem setSp_pair (s : State) (v : Word) (p : Pair) : (s.setSp v).pair p = s.pair p := by cases p <;> rfl
@[simp] theorem setSp_flag (s : State) (v : Word) (g : Flag) : (s.setSp v).flag g = s.flag g := rfl
@[simp] theorem setSp_read8 (s : State) (v x : Word) : (s.setSp v).read8 x = s.read8 x := rfl

@[simp] theorem setPc_a (s : State) (v : Word) : (s.setPc v).a = s.a := rfl
@[simp] theorem setPc_f (s : State) (v : Word) : (s.setPc v).f = s.f := rfl
@[simp] theorem setPc_b (s : State) (v : Word) : (s.setPc v).b = s.b := rfl
@[simp] theorem setPc_c (s : State) (v : Word) : (s.setPc v).c = s.c := rfl
@[simp] theorem setPc_d (s : State) (v : Word) : (s.setPc v).d = s.d := rfl
@[simp] theorem setPc_e (s : State) (v : Word) : (s.setPc v).e = s.e := rfl
@[simp] theorem setPc_h (s : State) (v : Word) : (s.setPc v).h = s.h := rfl
@[simp] theorem setPc_l (s : State) (v : Word) : (s.setPc v).l = s.l := rfl
@[simp] theorem setPc_sp (s : State) (v : Word) : (s.setPc v).sp = s.sp := rfl
@[simp] theorem setPc_pc (s : State) (v : Word) : (s.setPc v).pc = v := rfl
@[simp] theorem setPc_ime (s : State) (v : Word) : (s.setPc v).ime = s.ime := rfl
@[simp] theorem setPc_imePending (s : State) (v : Word) : (s.setPc v).imePending = s.imePending := rfl
@[simp] theorem setPc_run (s : State) (v : Word) : (s.setPc v).run = s.run := rfl
@[simp] theorem setPc_mem (s : State) (v : Word) : (s.setPc v).mem = s.mem := rfl
@[simp] theorem setPc_config (s : State) (v : Word) : (s.setPc v).config = s.config := rfl
@[simp] theorem setPc_cell (s : State) (v : Word) (r : Cell) : (s.setPc v).cell r = s.cell r := by cases r <;> rfl
@[simp] theorem setPc_pair (s : State) (v : Word) (p : Pair) : (s.setPc v).pair p = s.pair p := by cases p <;> rfl
@[simp] theorem setPc_flag (s : State) (v : Word) (g : Flag) : (s.setPc v).flag g = s.flag g := rfl
@[simp] theorem setPc_read8 (s : State) (v x : Word) : (s.setPc v).read8 x = s.read8 x := rfl

/-! ## `setFlag`: one bit of F and nothing else (spec/10_state.md R15) -/

@[simp] theorem setFlag_a (s : State) (g : Flag) (v : Bool) : (s.setFlag g v).a = s.a := rfl
@[simp] theorem setFlag_b (s : State) (g : Flag) (v : Bool) : (s.setFlag g v).b = s.b := rfl
@[simp] theorem setFlag_c (s : State) (g : Flag) (v : Bool) : (s.setFlag g v).c = s.c := rfl
@[simp] theorem setFlag_d (s : State) (g : Flag) (v : Bool) : (s.setFlag g v).d = s.d := rfl
@[simp] theorem setFlag_e (s : State) (g : Flag) (v : Bool) : (s.setFlag g v).e = s.e := rfl
@[simp] theorem setFlag_h (s : State) (g : Flag) (v : Bool) : (s.setFlag g v).h = s.h := rfl
@[simp] theorem setFlag_l (s : State) (g : Flag) (v : Bool) : (s.setFlag g v).l = s.l := rfl
@[simp] theorem setFlag_sp (s : State) (g : Flag) (v : Bool) : (s.setFlag g v).sp = s.sp := rfl
@[simp] theorem setFlag_pc (s : State) (g : Flag) (v : Bool) : (s.setFlag g v).pc = s.pc := rfl
@[simp] theorem setFlag_ime (s : State) (g : Flag) (v : Bool) : (s.setFlag g v).ime = s.ime := rfl
@[simp] theorem setFlag_imePending (s : State) (g : Flag) (v : Bool) : (s.setFlag g v).imePending = s.imePending := rfl
@[simp] theorem setFlag_run (s : State) (g : Flag) (v : Bool) : (s.setFlag g v).run = s.run := rfl
@[simp] theorem setFlag_mem (s : State) (g : Flag) (v : Bool) : (s.setFlag g v).mem = s.mem := rfl
@[simp] theorem setFlag_config (s : State) (g : Flag) (v : Bool) : (s.setFlag g v).config = s.config := rfl

theorem setFlag_cell (s : State) (g : Flag) (v : Bool) {r : Cell} (h : r ≠ .f) : (s.setFlag g v).cell r = s.cell r := by
  cases r <;> first | rfl | exact absurd rfl h

theorem setFlag_pair (s : State) (g : Flag) (v : Bool) {p : Pair} (h : p ≠ .af) : (s.setFlag g v).pair p = s.pair p := by
  cases p <;> first | rfl | exact absurd rfl h

@[simp] theorem setFlag_read8 (s : State) (g : Flag) (v : Bool) (x : Word) : (s.setFlag g v).read8 x = s.read8 x := rfl

/-- The bits of F after a flag write. -/
theorem setFlag_bits (x : Byte) (g : Flag) (v : Bool) (q : Flag) :
    ((x &&& ~~~flagMask g) ||| (bitOf v <<< flagBit g)).getLsbD (flagBit q) =
      if q = g then v else x.getLsbD (flagBit q) := by
  revert x v; cases g <;> cases q <;> decide +kernel

/-- Reading a flag after a flag write. -/
theorem setFlag_flag (s : State) (g q : Flag) (v : Bool) :
    (s.setFlag g v).flag q = if q = g then v else s.flag q := setFlag_bits s.f g v q

theorem flagWrite_low (x : Byte) (g : Flag) (v : Bool) :
    ((x &&& ~~~flagMask g) ||| (bitOf v <<< flagBit g)).extractLsb' 0 4 = x.extractLsb' 0 4 := by
  revert x v; cases g <;> decide +kernel

/-- A flag write leaves bits 3:0 of F (spec/10_state.md R16). -/
@[simp] theorem setFlag_low (s : State) (g : Flag) (v : Bool) :
    (s.setFlag g v).f.extractLsb' 0 4 = s.f.extractLsb' 0 4 := flagWrite_low s.f g v

/-! ## The groups of flag writes -/

@[simp] theorem setFlags_a (s : State) (z n h c : Bool) : (s.setFlags z n h c).a = s.a := rfl
@[simp] theorem setFlags_b (s : State) (z n h c : Bool) : (s.setFlags z n h c).b = s.b := rfl
@[simp] theorem setFlags_c (s : State) (z n h c : Bool) : (s.setFlags z n h c).c = s.c := rfl
@[simp] theorem setFlags_d (s : State) (z n h c : Bool) : (s.setFlags z n h c).d = s.d := rfl
@[simp] theorem setFlags_e (s : State) (z n h c : Bool) : (s.setFlags z n h c).e = s.e := rfl
@[simp] theorem setFlags_h (s : State) (z n h c : Bool) : (s.setFlags z n h c).h = s.h := rfl
@[simp] theorem setFlags_l (s : State) (z n h c : Bool) : (s.setFlags z n h c).l = s.l := rfl
@[simp] theorem setFlags_sp (s : State) (z n h c : Bool) : (s.setFlags z n h c).sp = s.sp := rfl
@[simp] theorem setFlags_pc (s : State) (z n h c : Bool) : (s.setFlags z n h c).pc = s.pc := rfl
@[simp] theorem setFlags_ime (s : State) (z n h c : Bool) : (s.setFlags z n h c).ime = s.ime := rfl
@[simp] theorem setFlags_imePending (s : State) (z n h c : Bool) : (s.setFlags z n h c).imePending = s.imePending := rfl
@[simp] theorem setFlags_run (s : State) (z n h c : Bool) : (s.setFlags z n h c).run = s.run := rfl
@[simp] theorem setFlags_mem (s : State) (z n h c : Bool) : (s.setFlags z n h c).mem = s.mem := rfl
@[simp] theorem setFlags_config (s : State) (z n h c : Bool) : (s.setFlags z n h c).config = s.config := rfl
@[simp] theorem setFlags_read8 (s : State) (z n h c : Bool) (x : Word) : (s.setFlags z n h c).read8 x = s.read8 x := rfl
@[simp] theorem setFlags_low (s : State) (z n h c : Bool) : (s.setFlags z n h c).f.extractLsb' 0 4 = s.f.extractLsb' 0 4 := by
  simp [State.setFlags]
theorem setFlags_cell (s : State) (z n h c : Bool) {r : Cell} (hr : r ≠ .f) : (s.setFlags z n h c).cell r = s.cell r := by
  simp [State.setFlags, setFlag_cell, hr]
theorem setFlags_pair (s : State) (z n h c : Bool) {p : Pair} (hp : p ≠ .af) : (s.setFlags z n h c).pair p = s.pair p := by
  simp [State.setFlags, setFlag_pair, hp]

@[simp] theorem setZNH_a (s : State) (z n h : Bool) : (s.setZNH z n h).a = s.a := rfl
@[simp] theorem setZNH_b (s : State) (z n h : Bool) : (s.setZNH z n h).b = s.b := rfl
@[simp] theorem setZNH_c (s : State) (z n h : Bool) : (s.setZNH z n h).c = s.c := rfl
@[simp] theorem setZNH_d (s : State) (z n h : Bool) : (s.setZNH z n h).d = s.d := rfl
@[simp] theorem setZNH_e (s : State) (z n h : Bool) : (s.setZNH z n h).e = s.e := rfl
@[simp] theorem setZNH_h (s : State) (z n h : Bool) : (s.setZNH z n h).h = s.h := rfl
@[simp] theorem setZNH_l (s : State) (z n h : Bool) : (s.setZNH z n h).l = s.l := rfl
@[simp] theorem setZNH_sp (s : State) (z n h : Bool) : (s.setZNH z n h).sp = s.sp := rfl
@[simp] theorem setZNH_pc (s : State) (z n h : Bool) : (s.setZNH z n h).pc = s.pc := rfl
@[simp] theorem setZNH_ime (s : State) (z n h : Bool) : (s.setZNH z n h).ime = s.ime := rfl
@[simp] theorem setZNH_imePending (s : State) (z n h : Bool) : (s.setZNH z n h).imePending = s.imePending := rfl
@[simp] theorem setZNH_run (s : State) (z n h : Bool) : (s.setZNH z n h).run = s.run := rfl
@[simp] theorem setZNH_mem (s : State) (z n h : Bool) : (s.setZNH z n h).mem = s.mem := rfl
@[simp] theorem setZNH_config (s : State) (z n h : Bool) : (s.setZNH z n h).config = s.config := rfl
@[simp] theorem setZNH_read8 (s : State) (z n h : Bool) (x : Word) : (s.setZNH z n h).read8 x = s.read8 x := rfl
@[simp] theorem setZNH_low (s : State) (z n h : Bool) : (s.setZNH z n h).f.extractLsb' 0 4 = s.f.extractLsb' 0 4 := by
  simp [State.setZNH]
theorem setZNH_cell (s : State) (z n h : Bool) {r : Cell} (hr : r ≠ .f) : (s.setZNH z n h).cell r = s.cell r := by
  simp [State.setZNH, setFlag_cell, hr]
theorem setZNH_pair (s : State) (z n h : Bool) {p : Pair} (hp : p ≠ .af) : (s.setZNH z n h).pair p = s.pair p := by
  simp [State.setZNH, setFlag_pair, hp]

@[simp] theorem setNHC_a (s : State) (n h c : Bool) : (s.setNHC n h c).a = s.a := rfl
@[simp] theorem setNHC_b (s : State) (n h c : Bool) : (s.setNHC n h c).b = s.b := rfl
@[simp] theorem setNHC_c (s : State) (n h c : Bool) : (s.setNHC n h c).c = s.c := rfl
@[simp] theorem setNHC_d (s : State) (n h c : Bool) : (s.setNHC n h c).d = s.d := rfl
@[simp] theorem setNHC_e (s : State) (n h c : Bool) : (s.setNHC n h c).e = s.e := rfl
@[simp] theorem setNHC_h (s : State) (n h c : Bool) : (s.setNHC n h c).h = s.h := rfl
@[simp] theorem setNHC_l (s : State) (n h c : Bool) : (s.setNHC n h c).l = s.l := rfl
@[simp] theorem setNHC_sp (s : State) (n h c : Bool) : (s.setNHC n h c).sp = s.sp := rfl
@[simp] theorem setNHC_pc (s : State) (n h c : Bool) : (s.setNHC n h c).pc = s.pc := rfl
@[simp] theorem setNHC_ime (s : State) (n h c : Bool) : (s.setNHC n h c).ime = s.ime := rfl
@[simp] theorem setNHC_imePending (s : State) (n h c : Bool) : (s.setNHC n h c).imePending = s.imePending := rfl
@[simp] theorem setNHC_run (s : State) (n h c : Bool) : (s.setNHC n h c).run = s.run := rfl
@[simp] theorem setNHC_mem (s : State) (n h c : Bool) : (s.setNHC n h c).mem = s.mem := rfl
@[simp] theorem setNHC_config (s : State) (n h c : Bool) : (s.setNHC n h c).config = s.config := rfl
@[simp] theorem setNHC_read8 (s : State) (n h c : Bool) (x : Word) : (s.setNHC n h c).read8 x = s.read8 x := rfl
@[simp] theorem setNHC_low (s : State) (n h c : Bool) : (s.setNHC n h c).f.extractLsb' 0 4 = s.f.extractLsb' 0 4 := by
  simp [State.setNHC]
theorem setNHC_cell (s : State) (n h c : Bool) {r : Cell} (hr : r ≠ .f) : (s.setNHC n h c).cell r = s.cell r := by
  simp [State.setNHC, setFlag_cell, hr]
theorem setNHC_pair (s : State) (n h c : Bool) {p : Pair} (hp : p ≠ .af) : (s.setNHC n h c).pair p = s.pair p := by
  simp [State.setNHC, setFlag_pair, hp]

/-- The flags after all four are written. -/
theorem setFlags_are (s : State) (z n h c : Bool) : FlagsAre (s.setFlags z n h c) z n h c := by
  simp [FlagsAre, State.setFlags, setFlag_flag]

theorem setFlags_flag (s : State) (z n h c : Bool) (g : Flag) :
    (s.setFlags z n h c).flag g = match g with | .z => z | .n => n | .h => h | .c => c := by
  cases g <;> simp [State.setFlags, setFlag_flag]

theorem setZNH_flag (s : State) (z n h : Bool) (g : Flag) :
    (s.setZNH z n h).flag g = match g with | .z => z | .n => n | .h => h | .c => s.flag .c := by
  cases g <;> simp [State.setZNH, setFlag_flag]

theorem setNHC_flag (s : State) (n h c : Bool) (g : Flag) :
    (s.setNHC n h c).flag g = match g with | .z => s.flag .z | .n => n | .h => h | .c => c := by
  cases g <;> simp [State.setNHC, setFlag_flag]

/-! ## Operands -/

theorem cellOf_ne_f (r : Reg8) : cellOf r ≠ .f := by cases r <;> decide

theorem setCell_flag (s : State) {r : Cell} (h : r ≠ .f) (v : Byte) (g : Flag) : (s.setCell r v).flag g = s.flag g := by
  simp [State.flag, setCell_f s h]

/-- A write of a 16-bit operand (spec/43_alu16.md R184) leaves `pc`, F, the latches, the run state, memory, the configuration. -/
theorem setVal_same (s : State) (rr : Reg16) (v : Word) :
    (s.setVal rr v).pc = s.pc ∧ (s.setVal rr v).f = s.f ∧ (s.setVal rr v).ime = s.ime ∧
      (s.setVal rr v).imePending = s.imePending ∧ (s.setVal rr v).run = s.run ∧ (s.setVal rr v).mem = s.mem ∧
      (s.setVal rr v).config = s.config := by
  cases rr <;> exact ⟨rfl, rfl, rfl, rfl, rfl, rfl, rfl⟩

/-- The 16-bit operand just written is read back. -/
@[simp] theorem setVal_val_same (s : State) (rr : Reg16) (v : Word) : (s.setVal rr v).val rr = v := by
  cases rr <;> simp [State.setVal, State.val]

@[simp] theorem setReg_sp (s : State) (r : Reg8) (v : Byte) : (s.setReg r v).sp = s.sp := setCell_sp s _ v
@[simp] theorem setReg_pc (s : State) (r : Reg8) (v : Byte) : (s.setReg r v).pc = s.pc := setCell_pc s _ v
@[simp] theorem setReg_ime (s : State) (r : Reg8) (v : Byte) : (s.setReg r v).ime = s.ime := setCell_ime s _ v
@[simp] theorem setReg_imePending (s : State) (r : Reg8) (v : Byte) : (s.setReg r v).imePending = s.imePending := setCell_imePending s _ v
@[simp] theorem setReg_run (s : State) (r : Reg8) (v : Byte) : (s.setReg r v).run = s.run := setCell_run s _ v
@[simp] theorem setReg_mem (s : State) (r : Reg8) (v : Byte) : (s.setReg r v).mem = s.mem := setCell_mem s _ v
@[simp] theorem setReg_config (s : State) (r : Reg8) (v : Byte) : (s.setReg r v).config = s.config := setCell_config s _ v
@[simp] theorem setReg_reg_same (s : State) (r : Reg8) (v : Byte) : (s.setReg r v).reg r = v := setCell_cell_same s _ v
@[simp] theorem setReg_f (s : State) (r : Reg8) (v : Byte) : (s.setReg r v).f = s.f := setCell_f s (cellOf_ne_f r) v
@[simp] theorem setReg_flag (s : State) (r : Reg8) (v : Byte) (g : Flag) : (s.setReg r v).flag g = s.flag g :=
  setCell_flag s (cellOf_ne_f r) v g
@[simp] theorem setReg_read8 (s : State) (r : Reg8) (v : Byte) (x : Word) : (s.setReg r v).read8 x = s.read8 x := by
  simp [State.read8, State.regionOf]
@[simp] theorem setCell_read8 (s : State) (r : Cell) (v : Byte) (x : Word) : (s.setCell r v).read8 x = s.read8 x := by
  simp [State.read8, State.regionOf]
@[simp] theorem setPair_read8 (s : State) (p : Pair) (v : Word) (x : Word) : (s.setPair p v).read8 x = s.read8 x := by
  simp [State.read8, State.regionOf]

/-! ## The two ends of a tick -/

@[simp] theorem beginTick_a (s : State) (n : Nat) : (s.beginTick n).a = s.a := rfl
@[simp] theorem beginTick_f (s : State) (n : Nat) : (s.beginTick n).f = s.f := rfl
@[simp] theorem beginTick_b (s : State) (n : Nat) : (s.beginTick n).b = s.b := rfl
@[simp] theorem beginTick_c (s : State) (n : Nat) : (s.beginTick n).c = s.c := rfl
@[simp] theorem beginTick_d (s : State) (n : Nat) : (s.beginTick n).d = s.d := rfl
@[simp] theorem beginTick_e (s : State) (n : Nat) : (s.beginTick n).e = s.e := rfl
@[simp] theorem beginTick_h (s : State) (n : Nat) : (s.beginTick n).h = s.h := rfl
@[simp] theorem beginTick_l (s : State) (n : Nat) : (s.beginTick n).l = s.l := rfl
@[simp] theorem beginTick_sp (s : State) (n : Nat) : (s.beginTick n).sp = s.sp := rfl
@[simp] theorem beginTick_ime (s : State) (n : Nat) : (s.beginTick n).ime = s.ime := rfl
@[simp] theorem beginTick_run (s : State) (n : Nat) : (s.beginTick n).run = s.run := rfl
@[simp] theorem beginTick_mem (s : State) (n : Nat) : (s.beginTick n).mem = s.mem := rfl
@[simp] theorem beginTick_config (s : State) (n : Nat) : (s.beginTick n).config = s.config := rfl
@[simp] theorem beginTick_pc (s : State) (n : Nat) : (s.beginTick n).pc = s.pc + BitVec.ofNat 16 n := rfl
@[simp] theorem beginTick_imePending (s : State) (n : Nat) : (s.beginTick n).imePending = false := rfl
@[simp] theorem beginTick_read8 (s : State) (n : Nat) (x : Word) : (s.beginTick n).read8 x = s.read8 x := rfl
@[simp] theorem commitEi_a (p : Bool) (i : Instr) (t : State) : (commitEi p i t).a = t.a := by
  unfold commitEi; split <;> rfl
@[simp] theorem commitEi_f (p : Bool) (i : Instr) (t : State) : (commitEi p i t).f = t.f := by
  unfold commitEi; split <;> rfl
@[simp] theorem commitEi_b (p : Bool) (i : Instr) (t : State) : (commitEi p i t).b = t.b := by
  unfold commitEi; split <;> rfl
@[simp] theorem commitEi_c (p : Bool) (i : Instr) (t : State) : (commitEi p i t).c = t.c := by
  unfold commitEi; split <;> rfl
@[simp] theorem commitEi_d (p : Bool) (i : Instr) (t : State) : (commitEi p i t).d = t.d := by
  unfold commitEi; split <;> rfl
@[simp] theorem commitEi_e (p : Bool) (i : Instr) (t : State) : (commitEi p i t).e = t.e := by
  unfold commitEi; split <;> rfl
@[simp] theorem commitEi_h (p : Bool) (i : Instr) (t : State) : (commitEi p i t).h = t.h := by
  unfold commitEi; split <;> rfl
@[simp] theorem commitEi_l (p : Bool) (i : Instr) (t : State) : (commitEi p i t).l = t.l := by
  unfold commitEi; split <;> rfl
@[simp] theorem commitEi_sp (p : Bool) (i : Instr) (t : State) : (commitEi p i t).sp = t.sp := by
  unfold commitEi; split <;> rfl
@[simp] theorem commitEi_pc (p : Bool) (i : Instr) (t : State) : (commitEi p i t).pc = t.pc := by
  unfold commitEi; split <;> rfl
@[simp] theorem commitEi_imePending (p : Bool) (i : Instr) (t : State) : (commitEi p i t).imePending = t.imePending := by
  unfold commitEi; split <;> rfl
@[simp] theorem commitEi_run (p : Bool) (i : Instr) (t : State) : (commitEi p i t).run = t.run := by
  unfold commitEi; split <;> rfl
@[simp] theorem commitEi_mem (p : Bool) (i : Instr) (t : State) : (commitEi p i t).mem = t.mem := by
  unfold commitEi; split <;> rfl
@[simp] theorem commitEi_config (p : Bool) (i : Instr) (t : State) : (commitEi p i t).config = t.config := by
  unfold commitEi; split <;> rfl
@[simp] theorem commitEi_read8 (p : Bool) (i : Instr) (t : State) (x : Word) : (commitEi p i t).read8 x = t.read8 x := by
  unfold commitEi; split <;> rfl
theorem commitEi_ime (p : Bool) (i : Instr) (t : State) : (commitEi p i t).ime = ((p && !cancelsEi i) || t.ime) := by
  unfold commitEi; split <;> simp_all

/-- A tick ends in a next state exactly when its instruction did, with the transfer made. -/
theorem finishTick_next {p : Bool} {i : Instr} {r : Result} {u : State} :
    finishTick p i r = .next u ↔ ∃ t, r = .next t ∧ u = commitEi p i t := by
  cases r <;> simp [finishTick, eq_comm]

/-! ## Faults -/

@[simp] theorem withFault_run (s : State) (f : Fault) : (s.withFault f).run = .faulted f := rfl
@[simp] theorem withFault_config (s : State) (f : Fault) : (s.withFault f).config = s.config := rfl

end Sys2Proof.Machine
end

