-- ==== Sys2Proof/Laws/Memory.lean ====
section
/-! SUPPORT. The laws of a byte store (read after write, the canonical form is kept) and of the Router. -/

namespace Sys2Proof

/-! ## Read after write, for every list, canonical or not -/

theorem Memory.read_erase_same (m : Memory) (a : Nat) : (m.erase a).read a = unlistedByte := by
  induction m with
  | nil => rfl
  | cons e rest ih =>
    obtain ⟨k, x⟩ := e
    by_cases h : k = a
    · simpa [Memory.erase, h] using ih
    · simpa [Memory.erase, Memory.read, h] using ih

theorem Memory.read_erase_other (m : Memory) {a b : Nat} (h : b ≠ a) : (m.erase a).read b = m.read b := by
  induction m with
  | nil => rfl
  | cons e rest ih =>
    obtain ⟨k, x⟩ := e
    by_cases hk : k = a
    · subst hk; simpa [Memory.erase, Memory.read, Ne.symm h] using ih
    · by_cases hb : k = b
      · subst hb; simp [Memory.erase, Memory.read, hk]
      · simpa [Memory.erase, Memory.read, hk, hb] using ih

/-- No entry of a store is for this address. -/
def Memory.fresh (m : Memory) (a : Nat) : Prop := ∀ e ∈ m, e.1 ≠ a

theorem Memory.fresh_erase (m : Memory) (a : Nat) : (m.erase a).fresh a := by
  intro e he; simpa using (List.mem_filter.mp he).2

theorem Memory.read_insert_same (m : Memory) {a : Nat} (v : Byte) (h : m.fresh a) : (m.insert a v).read a = v := by
  induction m with
  | nil => simp [Memory.insert, Memory.read]
  | cons e rest ih =>
    obtain ⟨k, x⟩ := e
    have hk : k ≠ a := h (k, x) (by simp)
    have hr : Memory.fresh rest a := fun e he => h e (by simp [he])
    by_cases ha : a < k <;> simp [Memory.insert, Memory.read, ha, hk, ih hr]

theorem Memory.read_insert_other (m : Memory) {a b : Nat} (v : Byte) (h : b ≠ a) : (m.insert a v).read b = m.read b := by
  induction m with
  | nil => simp [Memory.insert, Memory.read, Ne.symm h]
  | cons e rest ih =>
    obtain ⟨k, x⟩ := e
    by_cases ha : a < k <;> simp [Memory.insert, Memory.read, ha, Ne.symm h, ih]

/-- A read after a write to the same address gives the value written. -/
@[simp] theorem Memory.read_write_same (m : Memory) (a : Nat) (v : Byte) : (m.write a v).read a = v := by
  unfold Memory.write
  split
  · rw [Memory.read_erase_same]; simp_all
  · exact Memory.read_insert_same _ v (Memory.fresh_erase m a)

/-- A write leaves every other address alone. -/
theorem Memory.read_write_other (m : Memory) {a b : Nat} (v : Byte) (h : b ≠ a) : (m.write a v).read b = m.read b := by
  unfold Memory.write
  split
  · exact Memory.read_erase_other m h
  · rw [Memory.read_insert_other _ v h, Memory.read_erase_other m h]

/-! ## Every operation keeps the canonical form -/

theorem Memory.all_erase {m : Memory} {p : Nat → Bool} (a : Nat) (h : m.all (fun e => p e.1)) :
    (m.erase a).all (fun e => p e.1) := by
  rw [List.all_eq_true] at *
  exact fun e he => h e (List.mem_filter.mp he).1

theorem Memory.all_insert {m : Memory} {p : Nat → Bool} {a : Nat} (v : Byte) (ha : p a) (h : m.all (fun e => p e.1)) :
    (m.insert a v).all (fun e => p e.1) := by
  induction m with
  | nil => simp [Memory.insert, ha]
  | cons e rest ih =>
    obtain ⟨k, x⟩ := e
    simp only [List.all_cons, Bool.and_eq_true] at h
    by_cases hk : a < k
    · simp only [Memory.insert, hk, if_true, List.all_cons, Bool.and_eq_true]; exact ⟨ha, h.1, h.2⟩
    · simp only [Memory.insert, hk, if_false, List.all_cons, Bool.and_eq_true]; exact ⟨h.1, ih h.2⟩

theorem Memory.wf_erase {m : Memory} (a : Nat) (h : m.wf) : (m.erase a).wf := by
  induction m with
  | nil => exact h
  | cons e rest ih =>
    obtain ⟨k, x⟩ := e
    simp only [Memory.wf, Bool.and_eq_true] at h
    by_cases hk : k = a
    · simpa [Memory.erase, hk] using ih h.2
    · have h1 : Memory.erase ((k, x) :: rest) a = (k, x) :: Memory.erase rest a := by
        simp [Memory.erase, hk]
      rw [h1]
      simp only [Memory.wf, Bool.and_eq_true]
      exact ⟨⟨h.1.1, Memory.all_erase (p := fun n => decide (k < n)) a h.1.2⟩, ih h.2⟩

theorem Memory.wf_insert {m : Memory} {a : Nat} {v : Byte} (hv : v ≠ unlistedByte) (hf : m.fresh a) (h : m.wf) :
    (m.insert a v).wf := by
  induction m with
  | nil => simpa [Memory.insert, Memory.wf] using hv
  | cons e rest ih =>
    obtain ⟨k, x⟩ := e
    simp only [Memory.wf, Bool.and_eq_true] at h
    have hk : k ≠ a := hf (k, x) (by simp)
    have hr : Memory.fresh rest a := fun e he => hf e (by simp [he])
    by_cases ha : a < k
    · simp only [Memory.insert, ha, if_true, Memory.wf, Bool.and_eq_true, List.all_cons, decide_eq_true_eq]
      refine ⟨⟨by simpa using hv, trivial, ?_⟩, h.1, h.2⟩
      rw [List.all_eq_true]
      intro e he
      have := List.all_eq_true.mp h.1.2 e he
      simp only [decide_eq_true_eq] at *
      omega
    · simp only [Memory.insert, ha, if_false, Memory.wf, Bool.and_eq_true]
      exact ⟨⟨h.1.1, Memory.all_insert (p := fun n => decide (k < n)) v (by simp; omega) h.1.2⟩, ih hr h.2⟩

/-- A write keeps the canonical form. -/
theorem Memory.wf_write {m : Memory} (a : Nat) (v : Byte) (h : m.wf) : (m.write a v).wf := by
  unfold Memory.write
  split
  · exact Memory.wf_erase a h
  · exact Memory.wf_insert ‹_› (Memory.fresh_erase m a) (Memory.wf_erase a h)

/-- A write at an address of a region keeps a store inside the region. -/
theorem Memory.within_write {m : Memory} {p : Nat → Bool} {a : Nat} (v : Byte) (ha : p a) (h : m.within p) :
    (m.write a v).within p := by
  unfold Memory.write Memory.within at *
  split
  · exact Memory.all_erase a h
  · exact Memory.all_insert v ha (Memory.all_erase a h)

theorem Memory.ofBytes_above (a : Nat) (bytes : List Byte) : (Memory.ofBytes a bytes).all (fun e => a ≤ e.1) := by
  induction bytes generalizing a with
  | nil => rfl
  | cons v rest ih =>
    have := ih (a + 1)
    rw [List.all_eq_true] at this
    unfold Memory.ofBytes
    split <;> rw [List.all_eq_true] <;> intro e he
    · have := this e he; simp only [decide_eq_true_eq] at *; omega
    · rcases List.mem_cons.mp he with rfl | he
      · simp
      · have := this e he; simp only [decide_eq_true_eq] at *; omega

/-- An image is a store in canonical form. -/
theorem Memory.wf_ofBytes (a : Nat) (bytes : List Byte) : (Memory.ofBytes a bytes).wf := by
  induction bytes generalizing a with
  | nil => rfl
  | cons v rest ih =>
    unfold Memory.ofBytes
    split
    · exact ih _
    · simp only [Memory.wf, Bool.and_eq_true]
      refine ⟨⟨by simpa using ‹¬ v = unlistedByte›, ?_⟩, ih _⟩
      have := Memory.ofBytes_above (a + 1) rest
      rw [List.all_eq_true] at *
      intro e he
      have := this e he
      simp only [decide_eq_true_eq] at *
      omega

end Sys2Proof

namespace Sys2Proof.Machine

/-! ## The region selector, by number -/

/-- The two writable regions are the addresses of RAM. -/
theorem region_ram_iff (live : Bool) (x : Word) :
    (region live x = some .vram ∨ region live x = some .wram) ↔ InRam x := by
  unfold region InRam
  simp only
  split
  · simp; omega
  · split
    · simp; omega
    · split
      · simp; omega
      · split
        · simp; omega
        · simp; omega

/-- Some region answers exactly the mapped addresses. -/
theorem region_isSome_iff (live : Bool) (x : Word) : (region live x).isSome ↔ Mapped x := by
  unfold region Mapped InRam
  simp only
  split
  · simp; omega
  · split
    · simp; omega
    · split
      · simp; omega
      · split
        · simp; omega
        · simp; omega

/-! ## One byte through the Router -/

/-- A read answers exactly at the mapped addresses (spec/20_memory.md R44, R47). -/
theorem read8_ok_iff (s : State) (x : Word) : (∃ v, s.read8 x = .ok v) ↔ Mapped x := by
  rw [← region_isSome_iff s.config.bootOverlayLive x]
  unfold State.read8 State.regionOf
  cases region s.config.bootOverlayLive x with
  | none => simp
  | some r => cases r <;> simp

/-- A read that faults reports its own address. -/
theorem read8_error (s : State) {x : Word} {f : Fault} (h : s.read8 x = .error f) :
    ¬ Mapped x ∧ f = .addressFault x .read := by
  constructor
  · intro hm; obtain ⟨v, hv⟩ := (read8_ok_iff s x).mpr hm; rw [hv] at h; cases h
  · unfold State.read8 at h; split at h <;> simp_all

/-- A read of an unmapped address faults. -/
theorem read8_unmapped (s : State) {x : Word} (h : ¬ Mapped x) : s.read8 x = .error (.addressFault x .read) := by
  cases hr : s.read8 x with
  | ok v => exact absurd ((read8_ok_iff s x).mp ⟨v, hr⟩) h
  | error f => rw [(read8_error s hr).2]

/-- Everything a one-byte write can do (R48). -/
theorem write8_eq (s : State) (x : Word) (v : Byte) :
    s.write8 x v = if InRam x then .ok { s with mem := s.mem.write x.toNat v } else .error (.addressFault x .write) := by
  have h := region_ram_iff s.config.bootOverlayLive x
  unfold State.write8 State.regionOf
  cases hr : region s.config.bootOverlayLive x with
  | none => rw [hr] at h; rw [if_neg (fun hx => by simpa using h.mpr hx)]
  | some r =>
    rw [hr] at h
    cases r
    · rw [if_neg (fun hx => by simpa using h.mpr hx)]
    · rw [if_neg (fun hx => by simpa using h.mpr hx)]
    · rw [if_pos (h.mp (by simp))]
    · rw [if_pos (h.mp (by simp))]

/-- A one-byte write answers the state with that byte stored, at an address of RAM. -/
theorem write8_ok {s t : State} {x : Word} {v : Byte} (h : s.write8 x v = .ok t) :
    InRam x ∧ t = { s with mem := s.mem.write x.toNat v } := by
  rw [write8_eq] at h; split at h
  · exact ⟨‹_›, by cases h; rfl⟩
  · cases h

/-- A write that faults reports its own address. -/
theorem write8_error {s : State} {x : Word} {v : Byte} {f : Fault} (h : s.write8 x v = .error f) :
    ¬ InRam x ∧ f = .addressFault x .write := by
  rw [write8_eq] at h; split at h
  · cases h
  · exact ⟨‹_›, by cases h; rfl⟩

/-- The region of an address depends on the configuration alone. -/
theorem read8_of_ram (s : State) {x : Word} (h : InRam x) : s.read8 x = .ok (s.mem.read x.toNat) := by
  have h' := (region_ram_iff s.config.bootOverlayLive x).mpr h
  unfold State.read8 State.regionOf
  rcases h' with h' | h' <;> rw [h']

/-- The byte just stored is read back (R48). -/
theorem read8_setMem_same (s : State) {x : Word} (v : Byte) (h : InRam x) :
    ({ s with mem := s.mem.write x.toNat v } : State).read8 x = .ok v := by
  rw [read8_of_ram _ h]; simp

/-- Every other address reads as before (R48). -/
theorem read8_setMem_other (s : State) {x y : Word} (v : Byte) (h : y ≠ x) :
    ({ s with mem := s.mem.write x.toNat v } : State).read8 y = s.read8 y := by
  have hn : y.toNat ≠ x.toNat := fun e => h (BitVec.eq_of_toNat_eq e)
  unfold State.read8 State.regionOf
  simp only [Memory.read_write_other _ v hn]

/-! ## Two bytes through the Router -/

theorem word_ne_succ (x : Word) : x + 1#16 ≠ x := by
  intro h; have := congrArg BitVec.toNat h; simp at this; omega

/-- Everything a two-byte write that answers a state has done (R50). -/
theorem write16_ok {s t : State} {x : Word} {v : Word} (h : s.write16 x v = .ok t) :
    InRam x ∧ InRam (x + 1#16) ∧
      t = { s with mem := (s.mem.write x.toNat (loByte v)).write (x + 1#16).toNat (hiByte v) } := by
  unfold State.write16 at h
  split at h
  · cases h
  · rename_i u hu
    obtain ⟨h1, hu⟩ := write8_ok hu
    subst hu
    obtain ⟨h2, ht⟩ := write8_ok h
    exact ⟨h1, h2, ht⟩

/-- Two addresses of RAM are enough for a two-byte write. -/
theorem write16_of_ram (s : State) {x : Word} (v : Word) (h1 : InRam x) (h2 : InRam (x + 1#16)) :
    s.write16 x v = .ok { s with mem := (s.mem.write x.toNat (loByte v)).write (x + 1#16).toNat (hiByte v) } := by
  simp only [State.write16, write8_eq, if_pos h1, if_pos h2]

/-- A two-byte write that faults faults on a byte that is not in RAM. -/
theorem write16_error {s : State} {x : Word} {v : Word} {f : Fault} (h : s.write16 x v = .error f) :
    ∃ y, ¬ InRam y ∧ f = .addressFault y .write := by
  unfold State.write16 at h
  split at h
  · cases h; exact ⟨_, write8_error ‹_›⟩
  · exact ⟨_, write8_error h⟩

/-- A two-byte read that answers has read both bytes (R49). -/
theorem read16_ok {s : State} {x v : Word} (h : s.read16 x = .ok v) :
    ∃ lo hi, s.read8 x = .ok lo ∧ s.read8 (x + 1#16) = .ok hi ∧ v = wordOf hi lo := by
  unfold State.read16 at h
  split at h
  · cases h
  · split at h
    · cases h
    · exact ⟨_, _, ‹_›, ‹_›, by cases h; rfl⟩

/-- A two-byte read that faults faults on a byte that is unmapped. -/
theorem read16_error {s : State} {x : Word} {f : Fault} (h : s.read16 x = .error f) :
    ∃ y, ¬ Mapped y ∧ f = .addressFault y .read := by
  unfold State.read16 at h
  split at h
  · cases h; exact ⟨_, read8_error s ‹_›⟩
  · split at h
    · cases h; exact ⟨_, read8_error s ‹_›⟩
    · cases h

/-- The byte reads after a two-byte write. -/
theorem read8_setMem16 (s : State) {x : Word} (v : Word) (h1 : InRam x) (h2 : InRam (x + 1#16)) :
    let t : State := { s with mem := (s.mem.write x.toNat (loByte v)).write (x + 1#16).toNat (hiByte v) }
    t.read8 x = .ok (loByte v) ∧ t.read8 (x + 1#16) = .ok (hiByte v) ∧
      ∀ y, y ≠ x → y ≠ x + 1#16 → t.read8 y = s.read8 y := by
  refine ⟨?_, ?_, ?_⟩
  · have hne : x.toNat ≠ (x + 1#16).toNat := fun e => word_ne_succ x (BitVec.eq_of_toNat_eq e.symm)
    rw [read8_of_ram _ h1]; simp only [Memory.read_write_other _ _ hne, Memory.read_write_same]
  · rw [read8_of_ram _ h2]; simp only [Memory.read_write_same]
  · intro y hy1 hy2
    have a1 : y.toNat ≠ x.toNat := fun e => hy1 (BitVec.eq_of_toNat_eq e)
    have a2 : y.toNat ≠ (x + 1#16).toNat := fun e => hy2 (BitVec.eq_of_toNat_eq e)
    unfold State.read8 State.regionOf
    simp only [Memory.read_write_other _ _ a2, Memory.read_write_other _ _ a1]

/-! ## The invariant is kept by stores -/

theorem ramKey_of_inRam {x : Word} (h : InRam x) : ramKey x.toNat = true := by
  simp only [ramKey, Bool.or_eq_true, Bool.and_eq_true, decide_eq_true_eq]; exact h

/-- Replacing memory by a canonical one inside RAM keeps the invariant. -/
theorem inv_setMem {s : State} {m : Memory} (h : s.inv) (hw : m.wf) (hk : m.within ramKey) :
    ({ s with mem := m } : State).inv := by
  simp only [State.inv, Bool.and_eq_true] at *; tauto

/-- A one-byte store keeps the invariant. -/
theorem inv_write {s : State} {x : Word} (v : Byte) (hx : InRam x) (h : s.inv) :
    ({ s with mem := s.mem.write x.toNat v } : State).inv := by
  have h' := h
  simp only [State.inv, Bool.and_eq_true] at h'
  exact inv_setMem h (Memory.wf_write _ v h'.1.1.1.1.1) (Memory.within_write v (ramKey_of_inRam hx) h'.1.1.1.1.2)

/-- The invariant speaks of memory and the configuration alone. -/
theorem inv_congr {s t : State} (hm : t.mem = s.mem) (hc : t.config = s.config) (h : s.inv) : t.inv := by
  simp only [State.inv, hm, hc] at *; exact h

end Sys2Proof.Machine
end

