-- ==== Sys2Proof/Laws/Ops.lean ====
section
/-! SUPPORT. One lemma per shared operation: everything it can answer. Later proofs cite these and do not unfold the operation. -/

namespace Sys2Proof.Machine

/-! ## Accesses -/

theorem loadByte_ok {s : State} {x : Word} {v : Byte} (h : s.read8 x = .ok v) (k : Byte → Result) :
    loadByte s x k = k v := by simp [loadByte, h]

/-- A load answers a next state exactly when the byte is there and the rest does. -/
theorem loadByte_next {s t : State} {x : Word} {k : Byte → Result} :
    loadByte s x k = .next t ↔ ∃ v, s.read8 x = .ok v ∧ k v = .next t := by
  unfold loadByte; cases s.read8 x <;> simp [raise]

/-- A load faults on its own byte or in the rest. -/
theorem loadByte_fault {s : State} {x : Word} {k : Byte → Result} {f : Fault} (h : loadByte s x k = .fault f) :
    (¬ Mapped x ∧ f = .addressFault x .read) ∨ ∃ v, s.read8 x = .ok v ∧ k v = .fault f := by
  cases hr : s.read8 x with
  | error g => left; have := read8_error s hr; simp [loadByte, hr, raise] at h; subst h; exact this
  | ok v => right; exact ⟨v, rfl, by simpa [loadByte, hr] using h⟩

/-- A load of an unmapped byte faults. -/
theorem loadByte_unmapped {s : State} {x : Word} (h : ¬ Mapped x) (k : Byte → Result) :
    loadByte s x k = .fault (.addressFault x .read) := by simp [loadByte, read8_unmapped s h, raise]

theorem storeByte_ram {s : State} {x : Word} (v : Byte) (h : InRam x) (k : State → Result) :
    storeByte s x v k = k { s with mem := s.mem.write x.toNat v } := by simp only [storeByte, write8_eq, if_pos h]

/-- A store outside RAM faults. -/
theorem storeByte_outside {s : State} {x : Word} (v : Byte) (h : ¬ InRam x) (k : State → Result) :
    storeByte s x v k = .fault (.addressFault x .write) := by simp only [storeByte, write8_eq, if_neg h, raise]

/-- A store answers a next state exactly when the address is in RAM and the rest does. -/
theorem storeByte_next {s t : State} {x : Word} {v : Byte} {k : State → Result} :
    storeByte s x v k = .next t ↔ InRam x ∧ k { s with mem := s.mem.write x.toNat v } = .next t := by
  constructor
  · intro h
    by_cases hx : InRam x
    · exact ⟨hx, storeByte_ram v hx k ▸ h⟩
    · rw [storeByte_outside v hx] at h; cases h
  · rintro ⟨hx, h⟩; rw [storeByte_ram v hx]; exact h

/-- A store faults on its own byte or in the rest. -/
theorem storeByte_fault {s : State} {x : Word} {v : Byte} {k : State → Result} {f : Fault}
    (h : storeByte s x v k = .fault f) :
    (¬ InRam x ∧ f = .addressFault x .write) ∨
      (InRam x ∧ k { s with mem := s.mem.write x.toNat v } = .fault f) := by
  by_cases hx : InRam x
  · right; rw [storeByte_ram v hx] at h; exact ⟨hx, h⟩
  · left; rw [storeByte_outside v hx] at h; cases h; exact ⟨hx, rfl⟩

theorem loadWord_ok {s : State} {x v : Word} (h : s.read16 x = .ok v) (k : Word → Result) :
    loadWord s x k = k v := by simp [loadWord, h]

theorem loadWord_next {s t : State} {x : Word} {k : Word → Result} :
    loadWord s x k = .next t ↔ ∃ v, s.read16 x = .ok v ∧ k v = .next t := by
  unfold loadWord; cases s.read16 x <;> simp [raise]

theorem loadWord_fault {s : State} {x : Word} {k : Word → Result} {f : Fault} (h : loadWord s x k = .fault f) :
    (∃ y, ¬ Mapped y ∧ f = .addressFault y .read) ∨ ∃ v, s.read16 x = .ok v ∧ k v = .fault f := by
  cases hr : s.read16 x with
  | error g => left; have := read16_error hr; simp [loadWord, hr, raise] at h; subst h; exact this
  | ok v => right; exact ⟨v, rfl, by simpa [loadWord, hr] using h⟩

theorem storeWord_ram {s : State} {x : Word} (v : Word) (h1 : InRam x) (h2 : InRam (x + 1#16)) (k : State → Result) :
    storeWord s x v k =
      k { s with mem := (s.mem.write x.toNat (loByte v)).write (x + 1#16).toNat (hiByte v) } := by
  simp only [storeWord, write16_of_ram s v h1 h2]

theorem storeWord_next {s t : State} {x v : Word} {k : State → Result} :
    storeWord s x v k = .next t ↔ InRam x ∧ InRam (x + 1#16) ∧
      k { s with mem := (s.mem.write x.toNat (loByte v)).write (x + 1#16).toNat (hiByte v) } = .next t := by
  constructor
  · intro h
    unfold storeWord at h
    split at h
    · rename_i u hu
      obtain ⟨h1, h2, hu⟩ := write16_ok hu
      subst hu
      exact ⟨h1, h2, h⟩
    · simp [raise] at h
  · rintro ⟨h1, h2, h⟩; rw [storeWord_ram v h1 h2]; exact h

theorem storeWord_fault {s : State} {x v : Word} {k : State → Result} {f : Fault} (h : storeWord s x v k = .fault f) :
    (∃ y, ¬ InRam y ∧ f = .addressFault y .write) ∨ ∃ t, s.write16 x v = .ok t ∧ k t = .fault f := by
  cases hr : s.write16 x v with
  | error g => left; have := write16_error hr; simp [storeWord, hr, raise] at h; subst h; exact this
  | ok t => right; exact ⟨t, rfl, by simpa [storeWord, hr] using h⟩

/-! ## Read-modify-write, push, pop -/

/-- The read-modify-write of the byte at HL, where it completes. -/
theorem modifyAtHl_next {s t : State} {g : Byte → Byte} {k : Byte → State → Result} :
    modifyAtHl s g k = .next t ↔ ∃ v, s.read8 (s.pair .hl) = .ok v ∧ InRam (s.pair .hl) ∧
      k v { s with mem := s.mem.write (s.pair .hl).toNat (g v) } = .next t := by
  simp only [modifyAtHl, loadByte_next, storeByte_next]

theorem modifyAtHl_ram {s : State} {v : Byte} (hv : s.read8 (s.pair .hl) = .ok v) (hx : InRam (s.pair .hl))
    (g : Byte → Byte) (k : Byte → State → Result) :
    modifyAtHl s g k = k v { s with mem := s.mem.write (s.pair .hl).toNat (g v) } := by
  simp only [modifyAtHl, loadByte_ok hv, storeByte_ram _ hx]

/-- The read-modify-write of the byte at HL faults on the read, or else on the write. -/
theorem modifyAtHl_fault {s : State} {g : Byte → Byte} {k : Byte → State → Result} {f : Fault}
    (h : modifyAtHl s g k = .fault f) :
    (¬ Mapped (s.pair .hl) ∧ f = .addressFault (s.pair .hl) .read) ∨
    (¬ InRam (s.pair .hl) ∧ f = .addressFault (s.pair .hl) .write) ∨
    ∃ v, k v { s with mem := s.mem.write (s.pair .hl).toNat (g v) } = .fault f := by
  rcases loadByte_fault h with h | ⟨v, -, h⟩
  · exact .inl h
  · rcases storeByte_fault h with h | ⟨-, h⟩
    · exact .inr (.inl h)
    · exact .inr (.inr ⟨v, h⟩)

/-- A push, where it completes: `sp` down by 2, the two bytes below the old `sp` written. -/
theorem pushWord_next {s t : State} {v : Word} {k : State → Result} :
    pushWord s v k = .next t ↔ InRam (s.sp - 2#16) ∧ InRam (s.sp - 2#16 + 1#16) ∧
      k { s.setSp (s.sp - 2#16) with
        mem := (s.mem.write (s.sp - 2#16).toNat (loByte v)).write (s.sp - 2#16 + 1#16).toNat (hiByte v) } = .next t := by
  simp only [pushWord, storeWord_next, setSp_mem]

theorem pushWord_ram {s : State} (v : Word) (h1 : InRam (s.sp - 2#16)) (h2 : InRam (s.sp - 2#16 + 1#16))
    (k : State → Result) :
    pushWord s v k = k { s.setSp (s.sp - 2#16) with
      mem := (s.mem.write (s.sp - 2#16).toNat (loByte v)).write (s.sp - 2#16 + 1#16).toNat (hiByte v) } := by
  simp only [pushWord, storeWord_ram v h1 h2, setSp_mem]

/-- A pop, where it completes. -/
theorem popWord_next {s t : State} {k : Word → State → Result} :
    popWord s k = .next t ↔ ∃ v, s.read16 s.sp = .ok v ∧ k v (s.setSp (s.sp + 2#16)) = .next t := by
  simp only [popWord, loadWord_next]

theorem popWord_ok {s : State} {v : Word} (h : s.read16 s.sp = .ok v) (k : Word → State → Result) :
    popWord s k = k v (s.setSp (s.sp + 2#16)) := by simp only [popWord, loadWord_ok h]

/-! ## Frames -/

/-- Nothing changed is a frame. -/
theorem Frame.refl (s : State) (cells : List Cell) (flags : List Flag) (bytes : List Word) : Frame s s cells flags bytes :=
  ⟨fun _ _ _ => rfl, fun _ _ => rfl, rfl, fun _ _ => rfl, rfl, rfl, rfl, rfl⟩

/-- Frames compose. -/
theorem Frame.trans {s t u : State} {cells : List Cell} {flags : List Flag} {bytes : List Word}
    (h1 : Frame s t cells flags bytes) (h2 : Frame t u cells flags bytes) : Frame s u cells flags bytes :=
  ⟨fun r hf hr => (h2.cells_same r hf hr).trans (h1.cells_same r hf hr),
   fun g hg => (h2.flags_same g hg).trans (h1.flags_same g hg),
   h2.low_bits_of_f_same.trans h1.low_bits_of_f_same,
   fun x hx => (h2.memory_same x hx).trans (h1.memory_same x hx),
   h2.ime_same.trans h1.ime_same, h2.pending_same.trans h1.pending_same,
   h2.run_same.trans h1.run_same, h2.config_same.trans h1.config_same⟩

/-- A write of a listed cell other than F is in the frame. -/
theorem Frame.setCell (s : State) {r : Cell} (hf : r ≠ .f) (v : Byte) {cells : List Cell} (hr : r ∈ cells)
    (flags : List Flag) (bytes : List Word) : Frame s (s.setCell r v) cells flags bytes :=
  ⟨fun q _ hq => setCell_cell_other s (ne_of_mem_of_not_mem hr hq).symm v, fun g _ => setCell_flag s hf v g,
   by rw [setCell_f s hf], fun x _ => setCell_read8 s r v x, by simp, by simp, by simp, by simp⟩

/-- A write of a listed flag is in the frame. -/
theorem Frame.setFlag (s : State) (g : Flag) (v : Bool) (cells : List Cell) {flags : List Flag} (hg : g ∈ flags)
    (bytes : List Word) : Frame s (s.setFlag g v) cells flags bytes :=
  ⟨fun r hr _ => setFlag_cell s g v hr, fun q hq => by rw [setFlag_flag, if_neg (ne_of_mem_of_not_mem hg hq).symm],
   setFlag_low s g v, fun _ _ => rfl, rfl, rfl, rfl, rfl⟩

/-- A write of `sp` or `pc` is in every frame: they are said beside it. -/
theorem Frame.setSp (s : State) (v : Word) (cells : List Cell) (flags : List Flag) (bytes : List Word) :
    Frame s (s.setSp v) cells flags bytes :=
  ⟨fun r _ _ => setSp_cell s v r, fun _ _ => rfl, rfl, fun _ _ => rfl, rfl, rfl, rfl, rfl⟩

theorem Frame.setPc (s : State) (v : Word) (cells : List Cell) (flags : List Flag) (bytes : List Word) :
    Frame s (s.setPc v) cells flags bytes :=
  ⟨fun r _ _ => setPc_cell s v r, fun _ _ => rfl, rfl, fun _ _ => rfl, rfl, rfl, rfl, rfl⟩

/-- A store to a listed address is in the frame. -/
theorem Frame.store (s : State) (x : Word) (v : Byte) (cells : List Cell) (flags : List Flag) {bytes : List Word}
    (hx : x ∈ bytes) : Frame s { s with mem := s.mem.write x.toNat v } cells flags bytes :=
  ⟨fun r _ _ => by cases r <;> rfl, fun _ _ => rfl, rfl,
   fun y hy => read8_setMem_other s v (ne_of_mem_of_not_mem hx hy).symm, rfl, rfl, rfl, rfl⟩

/-- A write of a listed pair other than AF is in the frame. -/
theorem Frame.setPair (s : State) {p : Pair} (hp : p ≠ .af) (v : Word) {cells : List Cell} (hh : pairHi p ∈ cells)
    (hl : pairLo p ∈ cells) (flags : List Flag) (bytes : List Word) : Frame s (s.setPair p v) cells flags bytes :=
  have hf : pairHi p ≠ .f ∧ pairLo p ≠ .f := by cases p <;> first | exact absurd rfl hp | exact ⟨by decide, by decide⟩
  (Frame.setCell s hf.1 (hiByte v) hh flags bytes).trans (Frame.setCell _ hf.2 (loByte v) hl flags bytes)

/-- The four flag writes are in a frame that lists all flags. -/
theorem Frame.setFlags (s : State) (z n h c : Bool) (cells : List Cell) (bytes : List Word) :
    Frame s (s.setFlags z n h c) cells allFlags bytes :=
  (((Frame.setFlag s .z z cells (by decide) bytes).trans (Frame.setFlag _ .n n cells (by decide) bytes)).trans
    (Frame.setFlag _ .h h cells (by decide) bytes)).trans (Frame.setFlag _ .c c cells (by decide) bytes)

theorem Frame.setZNH (s : State) (z n h : Bool) (cells : List Cell) (bytes : List Word) :
    Frame s (s.setZNH z n h) cells [.z, .n, .h] bytes :=
  ((Frame.setFlag s .z z cells (by decide) bytes).trans (Frame.setFlag _ .n n cells (by decide) bytes)).trans
    (Frame.setFlag _ .h h cells (by decide) bytes)

theorem Frame.setNHC (s : State) (n h c : Bool) (cells : List Cell) (bytes : List Word) :
    Frame s (s.setNHC n h c) cells [.n, .h, .c] bytes :=
  ((Frame.setFlag s .n n cells (by decide) bytes).trans (Frame.setFlag _ .h h cells (by decide) bytes)).trans
    (Frame.setFlag _ .c c cells (by decide) bytes)

/-- The state after a push: its frame, and what the two bytes hold. -/
theorem push_effect {s : State} (v : Word) (h : CanPush s) :
    let t : State := { s.setSp (s.sp - 2#16) with
      mem := (s.mem.write (s.sp - 2#16).toNat (loByte v)).write (s.sp - 2#16 + 1#16).toNat (hiByte v) }
    Frame s t [] [] (pushedBytes s) ∧ Pushed s t v := by
  obtain ⟨a, b, c⟩ := read8_setMem16 s v h.1 h.2
  refine ⟨⟨fun r _ _ => by cases r <;> rfl, fun _ _ => rfl, rfl, fun y hy => ?_, rfl, rfl, rfl, rfl⟩, a, b⟩
  simp only [pushedBytes, List.mem_cons, List.not_mem_nil, or_false, not_or] at hy
  exact c y hy.1 hy.2

/-- Two bytes that can be read make a word (spec/20_memory.md R49). -/
theorem read16_of_bytes {s : State} {x : Word} {lo hi : Byte} (h1 : s.read8 x = .ok lo) (h2 : s.read8 (x + 1#16) = .ok hi) :
    s.read16 x = .ok (wordOf hi lo) := by
  simp only [State.read16, h1, h2]

end Sys2Proof.Machine
end

