-- ==== Sys2Proof/Laws/PerInstr.lean ====
section
/-! SUPPORT. The per-instruction family `EncodedLength`: an instruction is as long as its first byte says (spec/30_encoding.md R70). -/

namespace Sys2Proof.Laws.EncodedLength

open Sys2Proof.Machine

/-- The encoding of an instruction has the length that its first byte fixes; a term `unknown` must carry an unassigned byte. -/
def Statement (i : Instr) : Prop :=
  i.illFormed ≠ some .assignedByte → ∀ op rest, encode i = op :: rest → (encode i).length = lengthOf op

theorem nop : Statement .nop := by
  intro _ _ _ e
  cases e; rfl
theorem ldA16Sp (a16 : Word) : Statement (.ldA16Sp a16) := by
  intro _ _ _ e
  cases e; rfl
theorem stop (pad : Byte) : Statement (.stop pad) := by
  intro _ _ _ e
  cases e; rfl
theorem jrE8 (e8 : Byte) : Statement (.jrE8 e8) := by
  intro _ _ _ e
  cases e; rfl
theorem rlca : Statement .rlca := by
  intro _ _ _ e
  cases e; rfl
theorem rrca : Statement .rrca := by
  intro _ _ _ e
  cases e; rfl
theorem rla : Statement .rla := by
  intro _ _ _ e
  cases e; rfl
theorem rra : Statement .rra := by
  intro _ _ _ e
  cases e; rfl
theorem daa : Statement .daa := by
  intro _ _ _ e
  cases e; rfl
theorem cpl : Statement .cpl := by
  intro _ _ _ e
  cases e; rfl
theorem scf : Statement .scf := by
  intro _ _ _ e
  cases e; rfl
theorem ccf : Statement .ccf := by
  intro _ _ _ e
  cases e; rfl
theorem ldBcA : Statement .ldBcA := by
  intro _ _ _ e
  cases e; rfl
theorem ldDeA : Statement .ldDeA := by
  intro _ _ _ e
  cases e; rfl
theorem ldABc : Statement .ldABc := by
  intro _ _ _ e
  cases e; rfl
theorem ldADe : Statement .ldADe := by
  intro _ _ _ e
  cases e; rfl
theorem ldHliA : Statement .ldHliA := by
  intro _ _ _ e
  cases e; rfl
theorem ldAHli : Statement .ldAHli := by
  intro _ _ _ e
  cases e; rfl
theorem ldHldA : Statement .ldHldA := by
  intro _ _ _ e
  cases e; rfl
theorem ldAHld : Statement .ldAHld := by
  intro _ _ _ e
  cases e; rfl
theorem incHl : Statement .incHl := by
  intro _ _ _ e
  cases e; rfl
theorem decHl : Statement .decHl := by
  intro _ _ _ e
  cases e; rfl
theorem ldHlN8 (n8 : Byte) : Statement (.ldHlN8 n8) := by
  intro _ _ _ e
  cases e; rfl
theorem halt : Statement .halt := by
  intro _ _ _ e
  cases e; rfl
theorem addAHl : Statement .addAHl := by
  intro _ _ _ e
  cases e; rfl
theorem adcAHl : Statement .adcAHl := by
  intro _ _ _ e
  cases e; rfl
theorem subHl : Statement .subHl := by
  intro _ _ _ e
  cases e; rfl
theorem sbcAHl : Statement .sbcAHl := by
  intro _ _ _ e
  cases e; rfl
theorem andHl : Statement .andHl := by
  intro _ _ _ e
  cases e; rfl
theorem xorHl : Statement .xorHl := by
  intro _ _ _ e
  cases e; rfl
theorem orHl : Statement .orHl := by
  intro _ _ _ e
  cases e; rfl
theorem cpHl : Statement .cpHl := by
  intro _ _ _ e
  cases e; rfl
theorem addAN8 (n8 : Byte) : Statement (.addAN8 n8) := by
  intro _ _ _ e
  cases e; rfl
theorem adcAN8 (n8 : Byte) : Statement (.adcAN8 n8) := by
  intro _ _ _ e
  cases e; rfl
theorem subN8 (n8 : Byte) : Statement (.subN8 n8) := by
  intro _ _ _ e
  cases e; rfl
theorem sbcAN8 (n8 : Byte) : Statement (.sbcAN8 n8) := by
  intro _ _ _ e
  cases e; rfl
theorem andN8 (n8 : Byte) : Statement (.andN8 n8) := by
  intro _ _ _ e
  cases e; rfl
theorem xorN8 (n8 : Byte) : Statement (.xorN8 n8) := by
  intro _ _ _ e
  cases e; rfl
theorem orN8 (n8 : Byte) : Statement (.orN8 n8) := by
  intro _ _ _ e
  cases e; rfl
theorem cpN8 (n8 : Byte) : Statement (.cpN8 n8) := by
  intro _ _ _ e
  cases e; rfl
theorem jpA16 (a16 : Word) : Statement (.jpA16 a16) := by
  intro _ _ _ e
  cases e; rfl
theorem ret : Statement .ret := by
  intro _ _ _ e
  cases e; rfl
theorem prefixCb (bitcode : Byte) : Statement (.prefixCb bitcode) := by
  intro _ _ _ e
  cases e; rfl
theorem callA16 (a16 : Word) : Statement (.callA16 a16) := by
  intro _ _ _ e
  cases e; rfl
theorem reti : Statement .reti := by
  intro _ _ _ e
  cases e; rfl
theorem ldhA8A (a8 : Byte) : Statement (.ldhA8A a8) := by
  intro _ _ _ e
  cases e; rfl
theorem ldhAA8 (a8 : Byte) : Statement (.ldhAA8 a8) := by
  intro _ _ _ e
  cases e; rfl
theorem ldhCA : Statement .ldhCA := by
  intro _ _ _ e
  cases e; rfl
theorem ldhAC : Statement .ldhAC := by
  intro _ _ _ e
  cases e; rfl
theorem addSpE8 (e8 : Byte) : Statement (.addSpE8 e8) := by
  intro _ _ _ e
  cases e; rfl
theorem ldHlSpE8 (e8 : Byte) : Statement (.ldHlSpE8 e8) := by
  intro _ _ _ e
  cases e; rfl
theorem jpHl : Statement .jpHl := by
  intro _ _ _ e
  cases e; rfl
theorem ldSpHl : Statement .ldSpHl := by
  intro _ _ _ e
  cases e; rfl
theorem ldA16A (a16 : Word) : Statement (.ldA16A a16) := by
  intro _ _ _ e
  cases e; rfl
theorem ldAA16 (a16 : Word) : Statement (.ldAA16 a16) := by
  intro _ _ _ e
  cases e; rfl
theorem di : Statement .di := by
  intro _ _ _ e
  cases e; rfl
theorem ei : Statement .ei := by
  intro _ _ _ e
  cases e; rfl
theorem unknown (op : Byte) : Statement (.unknown op) := by
  intro h op' rest e
  cases e
  have hm : op ∈ unassignedBytes := by
    by_contra hm
    exact h (by simp [Instr.illFormed, hm])
  simp only [unassignedBytes, List.mem_cons, List.not_mem_nil, or_false] at hm
  rcases hm with rfl | rfl | rfl | rfl | rfl | rfl | rfl | rfl | rfl | rfl | rfl <;> rfl
theorem jrCcE8 (cc : Cond) (e8 : Byte) : Statement (.jrCcE8 cc e8) := by
  intro _ _ _ e
  cases cc <;> cases e <;> rfl
theorem ldRrN16 (rr : Reg16) (n16 : Word) : Statement (.ldRrN16 rr n16) := by
  intro _ _ _ e
  cases rr <;> cases e <;> rfl
theorem incRr (rr : Reg16) : Statement (.incRr rr) := by
  intro _ _ _ e
  cases rr <;> cases e <;> rfl
theorem decRr (rr : Reg16) : Statement (.decRr rr) := by
  intro _ _ _ e
  cases rr <;> cases e <;> rfl
theorem addHlRr (rr : Reg16) : Statement (.addHlRr rr) := by
  intro _ _ _ e
  cases rr <;> cases e <;> rfl
theorem incR (r : Reg8) : Statement (.incR r) := by
  intro _ _ _ e
  cases r <;> cases e <;> rfl
theorem decR (r : Reg8) : Statement (.decR r) := by
  intro _ _ _ e
  cases r <;> cases e <;> rfl
theorem ldRN8 (r : Reg8) (n8 : Byte) : Statement (.ldRN8 r n8) := by
  intro _ _ _ e
  cases r <;> cases e <;> rfl
theorem ldRHl (r : Reg8) : Statement (.ldRHl r) := by
  intro _ _ _ e
  cases r <;> cases e <;> rfl
theorem ldHlR (r : Reg8) : Statement (.ldHlR r) := by
  intro _ _ _ e
  cases r <;> cases e <;> rfl
theorem ldRR (dst : Reg8) (src : Reg8) : Statement (.ldRR dst src) := by
  intro _ _ _ e
  cases dst <;> cases src <;> cases e <;> rfl
theorem addAR (r : Reg8) : Statement (.addAR r) := by
  intro _ _ _ e
  cases r <;> cases e <;> rfl
theorem adcAR (r : Reg8) : Statement (.adcAR r) := by
  intro _ _ _ e
  cases r <;> cases e <;> rfl
theorem subR (r : Reg8) : Statement (.subR r) := by
  intro _ _ _ e
  cases r <;> cases e <;> rfl
theorem sbcAR (r : Reg8) : Statement (.sbcAR r) := by
  intro _ _ _ e
  cases r <;> cases e <;> rfl
theorem andR (r : Reg8) : Statement (.andR r) := by
  intro _ _ _ e
  cases r <;> cases e <;> rfl
theorem xorR (r : Reg8) : Statement (.xorR r) := by
  intro _ _ _ e
  cases r <;> cases e <;> rfl
theorem orR (r : Reg8) : Statement (.orR r) := by
  intro _ _ _ e
  cases r <;> cases e <;> rfl
theorem cpR (r : Reg8) : Statement (.cpR r) := by
  intro _ _ _ e
  cases r <;> cases e <;> rfl
theorem retCc (cc : Cond) : Statement (.retCc cc) := by
  intro _ _ _ e
  cases cc <;> cases e <;> rfl
theorem jpCcA16 (cc : Cond) (a16 : Word) : Statement (.jpCcA16 cc a16) := by
  intro _ _ _ e
  cases cc <;> cases e <;> rfl
theorem callCcA16 (cc : Cond) (a16 : Word) : Statement (.callCcA16 cc a16) := by
  intro _ _ _ e
  cases cc <;> cases e <;> rfl
theorem popRr (rr : Pair) : Statement (.popRr rr) := by
  intro _ _ _ e
  cases rr <;> cases e <;> rfl
theorem pushRr (rr : Pair) : Statement (.pushRr rr) := by
  intro _ _ _ e
  cases rr <;> cases e <;> rfl
theorem rstT (t : BitVec 3) : Statement (.rstT t) := by
  intro _ op rest e
  cases e
  exact (by decide : ∀ t : BitVec 3, 1 = lengthOf (0b11#2 ++ t ++ 0b111#3)) t
theorem rlcHl : Statement .rlcHl := by
  intro _ _ _ e
  cases e; rfl
theorem rrcHl : Statement .rrcHl := by
  intro _ _ _ e
  cases e; rfl
theorem rlHl : Statement .rlHl := by
  intro _ _ _ e
  cases e; rfl
theorem rrHl : Statement .rrHl := by
  intro _ _ _ e
  cases e; rfl
theorem slaHl : Statement .slaHl := by
  intro _ _ _ e
  cases e; rfl
theorem sraHl : Statement .sraHl := by
  intro _ _ _ e
  cases e; rfl
theorem swapHl : Statement .swapHl := by
  intro _ _ _ e
  cases e; rfl
theorem srlHl : Statement .srlHl := by
  intro _ _ _ e
  cases e; rfl
theorem rlcR (r : Reg8) : Statement (.rlcR r) := by
  intro _ _ _ e
  cases e; rfl
theorem rrcR (r : Reg8) : Statement (.rrcR r) := by
  intro _ _ _ e
  cases e; rfl
theorem rlR (r : Reg8) : Statement (.rlR r) := by
  intro _ _ _ e
  cases e; rfl
theorem rrR (r : Reg8) : Statement (.rrR r) := by
  intro _ _ _ e
  cases e; rfl
theorem slaR (r : Reg8) : Statement (.slaR r) := by
  intro _ _ _ e
  cases e; rfl
theorem sraR (r : Reg8) : Statement (.sraR r) := by
  intro _ _ _ e
  cases e; rfl
theorem swapR (r : Reg8) : Statement (.swapR r) := by
  intro _ _ _ e
  cases e; rfl
theorem srlR (r : Reg8) : Statement (.srlR r) := by
  intro _ _ _ e
  cases e; rfl
theorem bitBHl (b : BitVec 3) : Statement (.bitBHl b) := by
  intro _ _ _ e
  cases e; rfl
theorem resBHl (b : BitVec 3) : Statement (.resBHl b) := by
  intro _ _ _ e
  cases e; rfl
theorem setBHl (b : BitVec 3) : Statement (.setBHl b) := by
  intro _ _ _ e
  cases e; rfl
theorem bitBR (b : BitVec 3) (r : Reg8) : Statement (.bitBR b r) := by
  intro _ _ _ e
  cases e; rfl
theorem resBR (b : BitVec 3) (r : Reg8) : Statement (.resBR b r) := by
  intro _ _ _ e
  cases e; rfl
theorem setBR (b : BitVec 3) (r : Reg8) : Statement (.setBR b r) := by
  intro _ _ _ e
  cases e; rfl

end Sys2Proof.Laws.EncodedLength
end

