-- ==== Sys2Proof/Tests/Slice0.lean ====
section
/-! SUPPORT. The model's own tests: well-formedness, words of every constructor written out from the spec's encodings, the spec's vectors one tick each, and a state that meets the hypotheses of each statement. -/

namespace Sys2Proof.Tests

open Sys2Proof.Machine

/-! ## Well-formedness -/

/-- A byte that the primary map assigns is no UNKNOWN (spec/30_encoding.md R86). -/
theorem test_wf_assigned_byte : (Instr.unknown 0x00#8).illFormed = some .assignedByte := by decide

/-- The escape row is no instruction by itself (R80). -/
theorem test_wf_bare_escape : (Instr.prefixCb 0x00#8).illFormed = some .bareEscape := by decide

/-- The eleven UNKNOWN rows are well-formed (R86). -/
theorem test_wf_unknown_rows : unassignedBytes.all (fun op => (Instr.unknown op).wellFormed) = true := by decide

/-! ## Decoding -/

/-- The bytes decode to the instruction and nothing is left over, and it encodes to them. -/
def decodes (bytes : List Byte) (i : Instr) : Bool := decode bytes = .ok (i, []) && encode i = bytes

/-- Table R8 (R74): the source register of `LD A,r`, and HALT's neighbour for the code 6. -/
theorem test_decode_table_r8 : [
    (0b01111000#8, Instr.ldRR .a .b), (0b01111001#8, .ldRR .a .c), (0b01111010#8, .ldRR .a .d),
    (0b01111011#8, .ldRR .a .e), (0b01111100#8, .ldRR .a .h), (0b01111101#8, .ldRR .a .l),
    (0b01111110#8, .ldRHl .a), (0b01111111#8, .ldRR .a .a)].all (fun w => decodes [w.1] w.2) = true := by decide

/-- Tables RP (R75), RP2 (R76) and CC (R77). -/
theorem test_decode_tables_rp_rp2_cc : [
    (0b00000011#8, Instr.incRr .bc), (0b00010011#8, .incRr .de), (0b00100011#8, .incRr .hl), (0b00110011#8, .incRr .sp),
    (0b11000101#8, .pushRr .bc), (0b11010101#8, .pushRr .de), (0b11100101#8, .pushRr .hl), (0b11110101#8, .pushRr .af),
    (0b11000000#8, .retCc .nz), (0b11001000#8, .retCc .z), (0b11010000#8, .retCc .nc), (0b11011000#8, .retCc .c)].all
    (fun w => decodes [w.1] w.2) = true := by decide

/-- Words written out from the Encoding lines of spec/40_load8.md. -/
theorem test_decode_loads8_1 : [
    ([0b00000010#8], .ldBcA),
    ([0b00010010#8], .ldDeA),
    ([0b00001010#8], .ldABc),
    ([0b00011010#8], .ldADe),
    ([0b00100010#8], .ldHliA),
    ([0b00101010#8], .ldAHli),
    ([0b00110010#8], .ldHldA),
    ([0b00111010#8], .ldAHld),
    ([0b00110110#8, 0b10011100#8], .ldHlN8 0x9C#8),
    ([0b11100000#8, 0b01000111#8], .ldhA8A 0x47#8),
    ([0b11110000#8, 0b11100011#8], .ldhAA8 0xE3#8),
    ([0b11100010#8], .ldhCA),
    ([0b11110010#8], .ldhAC),
    ([0b11101010#8, 0b01000111#8, 0b11100011#8], .ldA16A 0xE347#16),
    ([0b11111010#8, 0b01011010#8, 0b10011100#8], .ldAA16 0x9C5A#16),
    ([0b00111110#8, 0b10011100#8], .ldRN8 .a 0x9C#8)].all (fun (w : List Byte × Instr) => decodes w.1 w.2) = true := by decide

/-- Words written out from the Encoding lines of spec/40_load8.md. -/
theorem test_decode_loads8_2 : [
    ([0b01010110#8], .ldRHl .d),
    ([0b01110100#8], .ldHlR .h),
    ([0b01001000#8], .ldRR .c .b)].all (fun (w : List Byte × Instr) => decodes w.1 w.2) = true := by decide

/-- Words written out from the Encoding lines of spec/41_load16_stack.md. -/
theorem test_decode_loads16 : [
    ([0b00001000#8, 0b10011100#8, 0b01000111#8], .ldA16Sp 0x479C#16),
    ([0b11111000#8, 0b10011100#8], .ldHlSpE8 0x9C#8),
    ([0b11111001#8], .ldSpHl),
    ([0b00110001#8, 0b11100011#8, 0b01011010#8], .ldRrN16 .sp 0x5AE3#16),
    ([0b11100001#8], .popRr .hl),
    ([0b11110101#8], .pushRr .af)].all (fun (w : List Byte × Instr) => decodes w.1 w.2) = true := by decide

/-- Words written out from the Encoding lines of spec/42_alu8.md. -/
theorem test_decode_alu8_1 : [
    ([0b00100111#8], .daa),
    ([0b00101111#8], .cpl),
    ([0b00110111#8], .scf),
    ([0b00111111#8], .ccf),
    ([0b00110100#8], .incHl),
    ([0b00110101#8], .decHl),
    ([0b10000110#8], .addAHl),
    ([0b10001110#8], .adcAHl),
    ([0b10010110#8], .subHl),
    ([0b10011110#8], .sbcAHl),
    ([0b10100110#8], .andHl),
    ([0b10101110#8], .xorHl),
    ([0b10110110#8], .orHl),
    ([0b10111110#8], .cpHl),
    ([0b11000110#8, 0b01000111#8], .addAN8 0x47#8),
    ([0b11001110#8, 0b11100011#8], .adcAN8 0xE3#8)].all (fun (w : List Byte × Instr) => decodes w.1 w.2) = true := by decide

/-- Words written out from the Encoding lines of spec/42_alu8.md. -/
theorem test_decode_alu8_2 : [
    ([0b11010110#8, 0b01011010#8], .subN8 0x5A#8),
    ([0b11011110#8, 0b10011100#8], .sbcAN8 0x9C#8),
    ([0b11100110#8, 0b01000111#8], .andN8 0x47#8),
    ([0b11101110#8, 0b11100011#8], .xorN8 0xE3#8),
    ([0b11110110#8, 0b01011010#8], .orN8 0x5A#8),
    ([0b11111110#8, 0b10011100#8], .cpN8 0x9C#8),
    ([0b00011100#8], .incR .e),
    ([0b00101101#8], .decR .l),
    ([0b10000011#8], .addAR .e),
    ([0b10001101#8], .adcAR .l),
    ([0b10010111#8], .subR .a),
    ([0b10011010#8], .sbcAR .d),
    ([0b10100100#8], .andR .h),
    ([0b10101001#8], .xorR .c),
    ([0b10110000#8], .orR .b),
    ([0b10111011#8], .cpR .e)].all (fun (w : List Byte × Instr) => decodes w.1 w.2) = true := by decide

/-- Words written out from the Encoding lines of spec/43_alu16.md. -/
theorem test_decode_alu16 : [
    ([0b11101000#8, 0b01011010#8], .addSpE8 0x5A#8),
    ([0b00010011#8], .incRr .de),
    ([0b00001011#8], .decRr .bc),
    ([0b00101001#8], .addHlRr .hl)].all (fun (w : List Byte × Instr) => decodes w.1 w.2) = true := by decide

/-- Words written out from the Encoding lines of spec/44_rotate_shift.md. -/
theorem test_decode_rotates_1 : [
    ([0b00000111#8], .rlca),
    ([0b00001111#8], .rrca),
    ([0b00010111#8], .rla),
    ([0b00011111#8], .rra),
    ([0b11001011#8, 0b00000110#8], .rlcHl),
    ([0b11001011#8, 0b00001110#8], .rrcHl),
    ([0b11001011#8, 0b00010110#8], .rlHl),
    ([0b11001011#8, 0b00011110#8], .rrHl),
    ([0b11001011#8, 0b00100110#8], .slaHl),
    ([0b11001011#8, 0b00101110#8], .sraHl),
    ([0b11001011#8, 0b00110110#8], .swapHl),
    ([0b11001011#8, 0b00111110#8], .srlHl),
    ([0b11001011#8, 0b00000101#8], .rlcR .l),
    ([0b11001011#8, 0b00001111#8], .rrcR .a),
    ([0b11001011#8, 0b00010010#8], .rlR .d),
    ([0b11001011#8, 0b00011100#8], .rrR .h)].all (fun (w : List Byte × Instr) => decodes w.1 w.2) = true := by decide

/-- Words written out from the Encoding lines of spec/44_rotate_shift.md. -/
theorem test_decode_rotates_2 : [
    ([0b11001011#8, 0b00100001#8], .slaR .c),
    ([0b11001011#8, 0b00101000#8], .sraR .b),
    ([0b11001011#8, 0b00110011#8], .swapR .e),
    ([0b11001011#8, 0b00111101#8], .srlR .l)].all (fun (w : List Byte × Instr) => decodes w.1 w.2) = true := by decide

/-- Words written out from the Encoding lines of spec/45_bit.md. -/
theorem test_decode_bits : [
    ([0b11001011#8, 0b01010110#8], .bitBHl 2#3),
    ([0b11001011#8, 0b10110110#8], .resBHl 6#3),
    ([0b11001011#8, 0b11001110#8], .setBHl 1#3),
    ([0b11001011#8, 0b01101111#8], .bitBR 5#3 .a),
    ([0b11001011#8, 0b10010010#8], .resBR 2#3 .d),
    ([0b11001011#8, 0b11110100#8], .setBR 6#3 .h)].all (fun (w : List Byte × Instr) => decodes w.1 w.2) = true := by decide

/-- Words written out from the Encoding lines of spec/46_control.md. -/
theorem test_decode_control : [
    ([0b00011000#8, 0b01011010#8], .jrE8 0x5A#8),
    ([0b11000011#8, 0b01000111#8, 0b11100011#8], .jpA16 0xE347#16),
    ([0b11001001#8], .ret),
    ([0b11001101#8, 0b01011010#8, 0b10011100#8], .callA16 0x9C5A#16),
    ([0b11011001#8], .reti),
    ([0b11101001#8], .jpHl),
    ([0b00110000#8, 0b01000111#8], .jrCcE8 .nc 0x47#8),
    ([0b11011000#8], .retCc .c),
    ([0b11001010#8, 0b01000111#8, 0b11100011#8], .jpCcA16 .z 0xE347#16),
    ([0b11000100#8, 0b01011010#8, 0b10011100#8], .callCcA16 .nz 0x9C5A#16),
    ([0b11101111#8], .rstT 5#3)].all (fun (w : List Byte × Instr) => decodes w.1 w.2) = true := by decide

/-- Words written out from the Encoding lines of spec/47_system.md (but for the escape row, whose pair is every row of the secondary map). -/
theorem test_decode_system : [
    ([0b00000000#8], .nop),
    ([0b00010000#8, 0b11100011#8], .stop 0xE3#8),
    ([0b01110110#8], .halt),
    ([0b11110011#8], .di),
    ([0b11111011#8], .ei),
    ([0b11010011#8], .unknown 0xD3#8)].all (fun (w : List Byte × Instr) => decodes w.1 w.2) = true := by decide

/-- The escape row's term stands for the pair, and the decoder answers its secondary row (R80, R245, log 8). -/
theorem test_decode_escape_pair : decode (encode (.prefixCb 0b00110111#8)) = .ok (.swapR .a, []) := by decide

/-- A table word's bit 0 is the lowest bit of the first byte, and bits above the row's length are 0. -/
theorem test_decode_table_word :
    decodeTableWord 16 0x7F06 = some (.ldRN8 .b 0x7F#8) ∧ decodeTableWord 8 0xFFC3 = some (.jpA16 0x0000#16) := by decide

/-! ## The spec's vectors, one tick each -/

/-- What `look` shows of the state after one tick on `bytes` laid at `pc`. -/
def seen {α : Type} (s : State) (bytes : List Byte) (look : State → α) : Option α :=
  match step (s.placeAll s.pc bytes) with
  | .next t => some (look t)
  | .fault _ => none
  | .refused _ => none

/-- The fault of one tick on `bytes` laid at `pc`. -/
def faultOf (s : State) (bytes : List Byte) : Option Fault :=
  match step (s.placeAll s.pc bytes) with
  | .next _ => none
  | .fault f => some f
  | .refused _ => none

/-- S3 of spec/95_test_vectors.md: a word at 0xC100, low byte lower. -/
theorem test_word_round_trip :
    ((State.reset.write16 0xC100#16 0xBEEF#16).toOption.map fun t => (t.read8 0xC100#16, t.read8 0xC101#16, t.read16 0xC100#16)) =
      some (.ok 0xEF#8, .ok 0xBE#8, .ok 0xBEEF#16) := by decide

/-- The set-up of V1 to V4, with the overlay live. -/
def overlay : Config :=
  { bootOverlayLive := true
    bootImage := [(0x00, 0xAA#8), (0xFF, 0xBB#8)]
    cartRom := [(0x0000, 0x11#8), (0x00FF, 0x22#8), (0x0100, 0x33#8), (0x3FFF, 0x44#8)] }

/-- V2 of spec/95_test_vectors.md: the overlay answers 0x0000 to 0x00FF and nothing after it. -/
theorem test_boot_overlay :
    let s : State := { State.reset with config := overlay }
    (s.read8 0x0000#16, s.read8 0x00FF#16, s.read8 0x0100#16, s.read8 0x3FFF#16) =
      (.ok 0xAA#8, .ok 0xBB#8, .ok 0x33#8, .ok 0x44#8) := by decide

/-- V10 of spec/95_test_vectors.md: the lower byte faults first, the wrap is never reached. -/
theorem test_word_at_the_top : State.reset.read16 0xFFFF#16 = .error (.addressFault 0xFFFF#16 .read) := by decide

/-- A program word placed where the machine fetches runs as the first instruction after reset (log 6). -/
theorem test_with_fetch_word :
    (match step (State.reset.withFetchWord 16 0x0F3E) with | .next t => some (t.a, t.pc) | _ => none) =
      some (0x0F#8, 0xC002#16) := by decide

/-! ### 8-bit loads -/

/-- V30 of spec/95_test_vectors.md. -/
theorem test_ld_r_r : seen { State.reset with c := 0x5A#8, f := 0xF0#8 } [0x41#8]
    (fun t => (t.b, t.pc, t.f)) = some (0x5A#8, 0xC001#16, 0xF0#8) := by decide

/-- V31 of spec/95_test_vectors.md. -/
theorem test_ld_r_n8 : seen State.reset [0x3E#8, 0x0F#8]
    (fun t => (t.a, t.pc)) = some (0x0F#8, 0xC002#16) := by decide

/-- V32 of spec/95_test_vectors.md. -/
theorem test_ld_h_at_hl : seen (({ State.reset with h := 0xC1#8, l := 0x00#8 } : State).placeAll 0xC100#16 [0x9F#8]) [0x66#8]
    (fun t => (t.h, t.l)) = some (0x9F#8, 0x00#8) := by decide

/-- V33 of spec/95_test_vectors.md. -/
theorem test_ld_at_hl_h : seen { State.reset with h := 0xC1#8, l := 0x23#8 } [0x74#8]
    (fun t => t.mem.read 0xC123) = some 0xC1#8 := by decide

/-- V34 of spec/95_test_vectors.md. -/
theorem test_ld_at_hl_n8 : seen { State.reset with h := 0xDF#8, l := 0xFF#8 } [0x36#8, 0xFF#8]
    (fun t => (t.mem.read 0xDFFF, t.pc)) = some (0xFF#8, 0xC002#16) := by decide

/-- V35 of spec/95_test_vectors.md. -/
theorem test_ld_a_at_bc : seen (({ State.reset with b := 0x01#8, c := 0x50#8 } : State).placeAll 0x0150#16 [0x3C#8]) [0x0A#8]
    (fun t => t.a) = some 0x3C#8 := by decide

/-- V36 of spec/95_test_vectors.md. -/
theorem test_ld_at_de_a_unmapped : faultOf { State.reset with d := 0x40#8, e := 0x00#8 } [0x12#8] =
    some (.addressFault 0x4000#16 .write) := by decide

/-- V37 of spec/95_test_vectors.md. -/
theorem test_ld_a_a16 : seen (State.reset.placeAll 0xC234#16 [0x99#8]) [0xFA#8, 0x34#8, 0xC2#8]
    (fun t => (t.a, t.pc)) = some (0x99#8, 0xC003#16) := by decide

/-- V38 of spec/95_test_vectors.md. -/
theorem test_ld_a16_a : seen { State.reset with a := 0x55#8 } [0xEA#8, 0x00#8, 0x80#8]
    (fun t => (t.mem.read 0x8000, t.pc)) = some (0x55#8, 0xC003#16) := by decide

/-- V39 of spec/95_test_vectors.md. -/
theorem test_ldh_a_a8 : faultOf State.reset [0xF0#8, 0x44#8] =
    some (.addressFault 0xFF44#16 .read) := by decide

/-- V40 of spec/95_test_vectors.md. -/
theorem test_ldh_a8_a : faultOf State.reset [0xE0#8, 0x50#8] =
    some (.addressFault 0xFF50#16 .write) := by decide

/-- V41 of spec/95_test_vectors.md. -/
theorem test_ld_a_at_c : faultOf { State.reset with c := 0x80#8 } [0xF2#8] =
    some (.addressFault 0xFF80#16 .read) := by decide

/-- V42 of spec/95_test_vectors.md. -/
theorem test_ldi_at_hl_a : seen { State.reset with h := 0xC0#8, l := 0xFF#8, a := 0x01#8 } [0x22#8]
    (fun t => (t.mem.read 0xC0FF, t.pair .hl)) = some (0x01#8, 0xC100#16) := by decide

/-- V47 of spec/95_test_vectors.md. -/
theorem test_ldi_at_hl_a_unmapped : faultOf { State.reset with h := 0xFF#8, l := 0xFF#8 } [0x22#8] =
    some (.addressFault 0xFFFF#16 .write) := by decide

/-- V43 of spec/95_test_vectors.md. -/
theorem test_ldi_a_at_hl : seen (({ State.reset with h := 0x3F#8, l := 0xFF#8 } : State).placeAll 0x3FFF#16 [0xC9#8]) [0x2A#8]
    (fun t => (t.a, t.pair .hl)) = some (0xC9#8, 0x4000#16) := by decide

/-- V44 of spec/95_test_vectors.md. -/
theorem test_ldd_at_hl_a : seen { State.reset with h := 0x80#8, l := 0x00#8, a := 0x07#8 } [0x32#8]
    (fun t => (t.mem.read 0x8000, t.pair .hl)) = some (0x07#8, 0x7FFF#16) := by decide

/-- V46 of spec/95_test_vectors.md. -/
theorem test_ldd_at_hl_a_rom : faultOf { State.reset with h := 0x00#8, l := 0x00#8 } [0x32#8] =
    some (.addressFault 0x0000#16 .write) := by decide

/-- V45 of spec/95_test_vectors.md. -/
theorem test_ldd_a_at_hl : seen (({ State.reset with h := 0x00#8, l := 0x00#8 } : State).placeAll 0x0000#16 [0x42#8]) [0x3A#8]
    (fun t => (t.a, t.pair .hl)) = some (0x42#8, 0xFFFF#16) := by decide

/-! ### 16-bit loads and the stack -/

/-- V50 of spec/95_test_vectors.md. -/
theorem test_ld_hl_n16 : seen State.reset [0x21#8, 0x00#8, 0x80#8]
    (fun t => (t.h, t.l, t.pc)) = some (0x80#8, 0x00#8, 0xC003#16) := by decide

/-- V51 of spec/95_test_vectors.md. -/
theorem test_ld_sp_n16 : seen State.reset [0x31#8, 0x00#8, 0xE0#8]
    (fun t => t.sp) = some 0xE000#16 := by decide

/-- V52 of spec/95_test_vectors.md. -/
theorem test_ld_a16_sp : seen { State.reset with sp := 0xDFF0#16 } [0x08#8, 0x10#8, 0xC0#8]
    (fun t => (t.mem.read 0xC010, t.mem.read 0xC011, t.pc)) = some (0xF0#8, 0xDF#8, 0xC003#16) := by decide

/-- V53 of spec/95_test_vectors.md. -/
theorem test_ld_a16_sp_second_byte : faultOf { State.reset with sp := 0x1234#16 } [0x08#8, 0xFF#8, 0xDF#8] =
    some (.addressFault 0xE000#16 .write) := by decide

/-- V54 of spec/95_test_vectors.md. -/
theorem test_ld_sp_hl : seen { State.reset with h := 0xDF#8, l := 0xFE#8, f := 0xF0#8 } [0xF9#8]
    (fun t => (t.sp, t.f)) = some (0xDFFE#16, 0xF0#8) := by decide

/-- V55 of spec/95_test_vectors.md. -/
theorem test_ld_hl_sp_plus : seen { State.reset with sp := 0xC0FF#16 } [0xF8#8, 0x01#8]
    (fun t => (t.pair .hl, t.f, t.sp)) = some (0xC100#16, 0x30#8, 0xC0FF#16) := by decide

/-- V56 of spec/95_test_vectors.md. -/
theorem test_ld_hl_sp_minus : seen { State.reset with sp := 0xDFF0#16 } [0xF8#8, 0xFE#8]
    (fun t => (t.pair .hl, t.f)) = some (0xDFEE#16, 0x10#8) := by decide

/-- S9 of spec/95_test_vectors.md. -/
theorem test_push_bc : seen { State.reset with sp := 0xE000#16, b := 0x12#8, c := 0x34#8 } [0xC5#8]
    (fun t => (t.sp, t.mem.read 0xDFFE, t.mem.read 0xDFFF)) = some (0xDFFE#16, 0x34#8, 0x12#8) := by decide

/-- V60 of spec/95_test_vectors.md. -/
theorem test_push_at_reset : faultOf State.reset [0xC5#8] =
    some (.addressFault 0xFFFE#16 .write) := by decide

/-- V61 of spec/95_test_vectors.md. -/
theorem test_pop_af : seen (({ State.reset with sp := 0xDFFE#16 } : State).placeAll 0xDFFE#16 [0xFF#8, 0x12#8]) [0xF1#8]
    (fun t => (t.a, t.f, t.sp)) = some (0x12#8, 0xFF#8, 0xE000#16) := by decide

/-- V59 of spec/95_test_vectors.md. -/
theorem test_pop_second_byte : faultOf { State.reset with sp := 0xDFFF#16 } [0xC1#8] =
    some (.addressFault 0xE000#16 .read) := by decide

/-! ### 8-bit arithmetic and logic -/

/-- S5 of spec/95_test_vectors.md. -/
theorem test_add_a_r : seen { State.reset with a := 0x0F#8, b := 0x01#8 } [0x80#8]
    (fun t => (t.a, t.f, t.pc)) = some (0x10#8, 0x20#8, 0xC001#16) := by decide

/-- V70 of spec/95_test_vectors.md. -/
theorem test_add_a_a : seen { State.reset with a := 0x80#8 } [0x87#8]
    (fun t => (t.a, t.f)) = some (0x00#8, 0x90#8) := by decide

/-- V71 of spec/95_test_vectors.md. -/
theorem test_add_a_n8 : seen { State.reset with a := 0x0F#8 } [0xC6#8, 0x01#8]
    (fun t => (t.a, t.f, t.pc)) = some (0x10#8, 0x20#8, 0xC002#16) := by decide

/-- V72 of spec/95_test_vectors.md. -/
theorem test_add_a_at_hl : seen (({ State.reset with a := 0xFF#8, h := 0xC1#8, l := 0x00#8 } : State).placeAll 0xC100#16 [0x01#8]) [0x86#8]
    (fun t => (t.a, t.f)) = some (0x00#8, 0xB0#8) := by decide

/-- V73 of spec/95_test_vectors.md. -/
theorem test_adc_a_r_all_ones : seen { State.reset with a := 0xFF#8, b := 0xFF#8, f := 0x10#8 } [0x88#8]
    (fun t => (t.a, t.f)) = some (0xFF#8, 0x30#8) := by decide

/-- V75 of spec/95_test_vectors.md. -/
theorem test_adc_a_r_carry_alone : seen { State.reset with a := 0x00#8, b := 0xFF#8, f := 0x10#8 } [0x88#8]
    (fun t => (t.a, t.f)) = some (0x00#8, 0xB0#8) := by decide

/-- S7 of spec/95_test_vectors.md. -/
theorem test_sub_r : seen { State.reset with a := 0x00#8, b := 0x01#8 } [0x90#8]
    (fun t => (t.a, t.f)) = some (0xFF#8, 0x70#8) := by decide

/-- V77 of spec/95_test_vectors.md. -/
theorem test_sub_a : seen { State.reset with a := 0x5C#8 } [0x97#8]
    (fun t => (t.a, t.f)) = some (0x00#8, 0xC0#8) := by decide

/-- V78 of spec/95_test_vectors.md. -/
theorem test_sub_n8 : seen State.reset [0xD6#8, 0x01#8]
    (fun t => (t.a, t.f)) = some (0xFF#8, 0x70#8) := by decide

/-- V80 of spec/95_test_vectors.md. -/
theorem test_sbc_a_r_borrow_of_256 : seen { State.reset with a := 0x00#8, b := 0xFF#8, f := 0x10#8 } [0x98#8]
    (fun t => (t.a, t.f)) = some (0x00#8, 0xF0#8) := by decide

/-- V81 of spec/95_test_vectors.md. -/
theorem test_sbc_a_r_half : seen { State.reset with a := 0x10#8, b := 0x0F#8, f := 0x10#8 } [0x98#8]
    (fun t => (t.a, t.f)) = some (0x00#8, 0xE0#8) := by decide

/-- V83 of spec/95_test_vectors.md. -/
theorem test_cp_r : seen { State.reset with a := 0x3C#8, b := 0x40#8 } [0xB8#8]
    (fun t => (t.a, t.f)) = some (0x3C#8, 0x50#8) := by decide

/-- V84 of spec/95_test_vectors.md. -/
theorem test_cp_a : seen { State.reset with a := 0x77#8 } [0xBF#8]
    (fun t => (t.a, t.f)) = some (0x77#8, 0xC0#8) := by decide

/-- V85 of spec/95_test_vectors.md. -/
theorem test_and_r : seen { State.reset with a := 0x5A#8, b := 0x0F#8 } [0xA0#8]
    (fun t => (t.a, t.f)) = some (0x0A#8, 0x20#8) := by decide

/-- V86 of spec/95_test_vectors.md. -/
theorem test_and_a : seen { State.reset with a := 0x00#8, f := 0x50#8 } [0xA7#8]
    (fun t => (t.a, t.f)) = some (0x00#8, 0xA0#8) := by decide

/-- V87 of spec/95_test_vectors.md. -/
theorem test_xor_r : seen { State.reset with a := 0xFF#8, b := 0x0F#8 } [0xA8#8]
    (fun t => (t.a, t.f)) = some (0xF0#8, 0x00#8) := by decide

/-- V88 of spec/95_test_vectors.md. -/
theorem test_xor_a : seen { State.reset with a := 0x77#8, f := 0xF0#8 } [0xAF#8]
    (fun t => (t.a, t.f)) = some (0x00#8, 0x80#8) := by decide

/-- V89 of spec/95_test_vectors.md. -/
theorem test_or_r : seen State.reset [0xB0#8]
    (fun t => (t.a, t.f)) = some (0x00#8, 0x80#8) := by decide

/-- V90 of spec/95_test_vectors.md. -/
theorem test_inc_r : seen { State.reset with b := 0x0F#8, f := 0x10#8 } [0x04#8]
    (fun t => (t.b, t.f)) = some (0x10#8, 0x30#8) := by decide

/-- V91 of spec/95_test_vectors.md. -/
theorem test_inc_a_wraps : seen { State.reset with a := 0xFF#8, f := 0x10#8 } [0x3C#8]
    (fun t => (t.a, t.f)) = some (0x00#8, 0xB0#8) := by decide

/-- V92 of spec/95_test_vectors.md. -/
theorem test_inc_at_hl : seen (({ State.reset with h := 0xC0#8, l := 0x10#8 } : State).placeAll 0xC010#16 [0xFF#8]) [0x34#8]
    (fun t => (t.mem.read 0xC010, t.f)) = some (0x00#8, 0xA0#8) := by decide

/-- V97 of spec/95_test_vectors.md. -/
theorem test_inc_at_hl_rom : faultOf (({ State.reset with h := 0x00#8, l := 0x00#8 } : State).placeAll 0x0000#16 [0x05#8]) [0x34#8] =
    some (.addressFault 0x0000#16 .write) := by decide

/-- V94 of spec/95_test_vectors.md. -/
theorem test_dec_r_wraps : seen { State.reset with b := 0x00#8, f := 0x10#8 } [0x05#8]
    (fun t => (t.b, t.f)) = some (0xFF#8, 0x70#8) := by decide

/-- V95 of spec/95_test_vectors.md. -/
theorem test_dec_r_half : seen { State.reset with b := 0x10#8 } [0x05#8]
    (fun t => (t.b, t.f)) = some (0x0F#8, 0x60#8) := by decide

/-- V96 of spec/95_test_vectors.md. -/
theorem test_dec_at_hl : seen { State.reset with h := 0x80#8, l := 0x00#8 } [0x35#8]
    (fun t => (t.mem.read 0x8000, t.f)) = some (0xFF#8, 0x60#8) := by decide

/-- V99 of spec/95_test_vectors.md. -/
theorem test_daa_both_corrections : seen { State.reset with a := 0x9A#8 } [0x27#8]
    (fun t => (t.a, t.f)) = some (0x00#8, 0x90#8) := by decide

/-- V102 of spec/95_test_vectors.md. -/
theorem test_daa_after_subtraction : seen { State.reset with a := 0xFF#8, f := 0x70#8 } [0x27#8]
    (fun t => (t.a, t.f)) = some (0x99#8, 0x50#8) := by decide

/-- V108 of spec/95_test_vectors.md. -/
theorem test_cpl : seen { State.reset with a := 0x35#8 } [0x2F#8]
    (fun t => (t.a, t.f)) = some (0xCA#8, 0x60#8) := by decide

/-- V109 of spec/95_test_vectors.md. -/
theorem test_scf : seen { State.reset with f := 0xE0#8 } [0x37#8]
    (fun t => t.f) = some 0x90#8 := by decide

/-- V110 of spec/95_test_vectors.md. -/
theorem test_ccf : seen { State.reset with f := 0x10#8 } [0x3F#8]
    (fun t => t.f) = some 0x00#8 := by decide

/-! ### 16-bit arithmetic -/

/-- V121 of spec/95_test_vectors.md. -/
theorem test_add_hl_hl : seen { State.reset with h := 0x8A#8, l := 0x23#8 } [0x29#8]
    (fun t => (t.pair .hl, t.f)) = some (0x1446#16, 0x30#8) := by decide

/-- V122 of spec/95_test_vectors.md. -/
theorem test_add_hl_bc_keeps_z : seen { State.reset with h := 0xFF#8, l := 0xFF#8, b := 0x00#8, c := 0x01#8, f := 0x80#8 } [0x09#8]
    (fun t => (t.pair .hl, t.f)) = some (0x0000#16, 0xB0#8) := by decide

/-- V123 of spec/95_test_vectors.md. -/
theorem test_inc_bc : seen { State.reset with b := 0x00#8, c := 0xFF#8, f := 0xF0#8 } [0x03#8]
    (fun t => (t.pair .bc, t.f)) = some (0x0100#16, 0xF0#8) := by decide

/-- V126 of spec/95_test_vectors.md. -/
theorem test_inc_sp : seen { State.reset with sp := 0xFFFF#16 } [0x33#8]
    (fun t => t.sp) = some 0x0000#16 := by decide

/-- V125 of spec/95_test_vectors.md. -/
theorem test_dec_bc : seen { State.reset with b := 0x00#8, c := 0x00#8 } [0x0B#8]
    (fun t => t.pair .bc) = some 0xFFFF#16 := by decide

/-- V128 of spec/95_test_vectors.md. -/
theorem test_add_sp_minus_128 : seen { State.reset with sp := 0xE000#16 } [0xE8#8, 0x80#8]
    (fun t => (t.sp, t.f)) = some (0xDF80#16, 0x00#8) := by decide

/-- V130 of spec/95_test_vectors.md. -/
theorem test_add_sp_minus_1 : seen { State.reset with sp := 0x0001#16 } [0xE8#8, 0xFF#8]
    (fun t => (t.sp, t.f)) = some (0x0000#16, 0x30#8) := by decide

/-! ### Rotates, shifts, bits -/

/-- V140 of spec/95_test_vectors.md. -/
theorem test_rlca : seen { State.reset with a := 0x85#8 } [0x07#8]
    (fun t => (t.a, t.f)) = some (0x0B#8, 0x10#8) := by decide

/-- V141 of spec/95_test_vectors.md. -/
theorem test_rlca_of_zero : seen { State.reset with a := 0x00#8, f := 0xF0#8 } [0x07#8]
    (fun t => (t.a, t.f)) = some (0x00#8, 0x00#8) := by decide

/-- V142 of spec/95_test_vectors.md. -/
theorem test_rrca : seen { State.reset with a := 0x3B#8 } [0x0F#8]
    (fun t => (t.a, t.f)) = some (0x9D#8, 0x10#8) := by decide

/-- V143 of spec/95_test_vectors.md. -/
theorem test_rla : seen { State.reset with a := 0x95#8, f := 0x10#8 } [0x17#8]
    (fun t => (t.a, t.f)) = some (0x2B#8, 0x10#8) := by decide

/-- V144 of spec/95_test_vectors.md. -/
theorem test_rra : seen { State.reset with a := 0x81#8 } [0x1F#8]
    (fun t => (t.a, t.f)) = some (0x40#8, 0x10#8) := by decide

/-- V145 of spec/95_test_vectors.md. -/
theorem test_rlc_r : seen { State.reset with b := 0x00#8, f := 0x70#8 } [0xCB#8, 0x00#8]
    (fun t => (t.b, t.f)) = some (0x00#8, 0x80#8) := by decide

/-- V146 of spec/95_test_vectors.md. -/
theorem test_rrc_r : seen { State.reset with c := 0x01#8 } [0xCB#8, 0x09#8]
    (fun t => (t.c, t.f)) = some (0x80#8, 0x10#8) := by decide

/-- V147 of spec/95_test_vectors.md. -/
theorem test_rl_r : seen { State.reset with l := 0x11#8 } [0xCB#8, 0x15#8]
    (fun t => (t.l, t.f)) = some (0x22#8, 0x00#8) := by decide

/-- V149 of spec/95_test_vectors.md. -/
theorem test_rr_r : seen { State.reset with a := 0x8A#8, f := 0x10#8 } [0xCB#8, 0x1F#8]
    (fun t => (t.a, t.f)) = some (0xC5#8, 0x00#8) := by decide

/-- V151 of spec/95_test_vectors.md. -/
theorem test_sla_r : seen { State.reset with b := 0xB1#8 } [0xCB#8, 0x20#8]
    (fun t => (t.b, t.f)) = some (0x62#8, 0x10#8) := by decide

/-- V152 of spec/95_test_vectors.md. -/
theorem test_sra_r : seen { State.reset with b := 0x8A#8 } [0xCB#8, 0x28#8]
    (fun t => (t.b, t.f)) = some (0xC5#8, 0x00#8) := by decide

/-- V154 of spec/95_test_vectors.md. -/
theorem test_swap_r : seen { State.reset with a := 0xF1#8 } [0xCB#8, 0x37#8]
    (fun t => (t.a, t.f)) = some (0x1F#8, 0x00#8) := by decide

/-- V156 of spec/95_test_vectors.md. -/
theorem test_srl_r : seen { State.reset with a := 0xFF#8 } [0xCB#8, 0x3F#8]
    (fun t => (t.a, t.f)) = some (0x7F#8, 0x10#8) := by decide

/-- V157 of spec/95_test_vectors.md. -/
theorem test_srl_at_hl_of_itself : seen { State.reset with h := 0xC0#8, l := 0x00#8 } [0xCB#8, 0x3E#8]
    (fun t => (t.mem.read 0xC000, t.f, t.pc)) = some (0x65#8, 0x10#8, 0xC002#16) := by decide

/-- V158 of spec/95_test_vectors.md. -/
theorem test_rlc_at_hl_unmapped : faultOf { State.reset with h := 0xA0#8, l := 0x00#8 } [0xCB#8, 0x06#8] =
    some (.addressFault 0xA000#16 .read) := by decide

/-- V160 of spec/95_test_vectors.md. -/
theorem test_bit_r : seen { State.reset with h := 0x7F#8, f := 0x50#8 } [0xCB#8, 0x7C#8]
    (fun t => (t.h, t.f)) = some (0x7F#8, 0xB0#8) := by decide

/-- V161 of spec/95_test_vectors.md. -/
theorem test_bit_at_hl_in_rom : seen (({ State.reset with h := 0x01#8, l := 0x50#8, f := 0x10#8 } : State).placeAll 0x0150#16 [0xFE#8]) [0xCB#8, 0x46#8]
    (fun t => t.f) = some 0xB0#8 := by decide

/-- V162 of spec/95_test_vectors.md. -/
theorem test_res_r : seen { State.reset with a := 0xFF#8, f := 0xF0#8 } [0xCB#8, 0x87#8]
    (fun t => (t.a, t.f)) = some (0xFE#8, 0xF0#8) := by decide

/-- V163 of spec/95_test_vectors.md. -/
theorem test_res_at_hl : seen (({ State.reset with h := 0x80#8, l := 0x00#8, f := 0xF0#8 } : State).placeAll 0x8000#16 [0x80#8]) [0xCB#8, 0xBE#8]
    (fun t => (t.mem.read 0x8000, t.f)) = some (0x00#8, 0xF0#8) := by decide

/-- V164 of spec/95_test_vectors.md. -/
theorem test_set_r : seen { State.reset with a := 0x01#8 } [0xCB#8, 0xFF#8]
    (fun t => t.a) = some 0x81#8 := by decide

/-- V165 of spec/95_test_vectors.md. -/
theorem test_set_at_hl_of_itself : seen { State.reset with h := 0xC0#8, l := 0x00#8 } [0xCB#8, 0xC6#8]
    (fun t => t.mem.read 0xC000) = some 0xCB#8 := by decide

/-! ### Control transfer -/

/-- V170 of spec/95_test_vectors.md. -/
theorem test_jp : seen State.reset [0xC3#8, 0x10#8, 0xC0#8]
    (fun t => t.pc) = some 0xC010#16 := by decide

/-- V171 of spec/95_test_vectors.md. -/
theorem test_jp_cc : seen { State.reset with f := 0x80#8 } [0xCA#8, 0x00#8, 0x80#8]
    (fun t => t.pc) = some 0x8000#16 := by decide

/-- V172 of spec/95_test_vectors.md. -/
theorem test_jp_hl : seen { State.reset with h := 0xC1#8, l := 0x23#8 } [0xE9#8]
    (fun t => t.pc) = some 0xC123#16 := by decide

/-- S10 of spec/95_test_vectors.md. -/
theorem test_jr_back : seen { State.reset with pc := 0x0105#16 } [0x18#8, 0xFE#8]
    (fun t => t.pc) = some 0x0105#16 := by decide

/-- V177 of spec/95_test_vectors.md. -/
theorem test_jr_out_of_memory : seen { State.reset with pc := 0xDFFE#16 } [0x18#8, 0x7F#8]
    (fun t => t.pc) = some 0xE07F#16 := by decide

/-- V17 of spec/95_test_vectors.md. -/
theorem test_jr_cc_not_taken : seen { State.reset with f := 0x80#8 } [0x20#8, 0x05#8]
    (fun t => t.pc) = some 0xC002#16 := by decide

/-- V175 (its second tick) of spec/95_test_vectors.md. -/
theorem test_jr_cc_taken : seen { State.reset with pc := 0xC011#16, f := 0x40#8 } [0x20#8, 0xFD#8]
    (fun t => t.pc) = some 0xC010#16 := by decide

/-- V178 of spec/95_test_vectors.md. -/
theorem test_call : seen { State.reset with pc := 0xC005#16, sp := 0xE000#16 } [0xCD#8, 0x20#8, 0xC0#8]
    (fun t => (t.sp, t.mem.read 0xDFFE, t.mem.read 0xDFFF, t.pc)) = some (0xDFFE#16, 0x08#8, 0xC0#8, 0xC020#16) := by decide

/-- V179 of spec/95_test_vectors.md. -/
theorem test_call_cc_not_taken : seen { State.reset with pc := 0xC005#16, sp := 0xE000#16 } [0xDC#8, 0x20#8, 0xC0#8]
    (fun t => (t.pc, t.sp)) = some (0xC008#16, 0xE000#16) := by decide

/-- V181 of spec/95_test_vectors.md. -/
theorem test_ret : seen (({ State.reset with sp := 0xDFFE#16 } : State).placeAll 0xDFFE#16 [0x08#8, 0xC0#8]) [0xC9#8]
    (fun t => (t.pc, t.sp)) = some (0xC008#16, 0xE000#16) := by decide

/-- V182 of spec/95_test_vectors.md. -/
theorem test_ret_cc_not_taken : seen (({ State.reset with pc := 0xC030#16, sp := 0xDFFE#16, f := 0x80#8 } : State).placeAll 0xDFFE#16 [0x08#8, 0xC0#8]) [0xC0#8]
    (fun t => (t.pc, t.sp)) = some (0xC031#16, 0xDFFE#16) := by decide

/-- V182 of spec/95_test_vectors.md. -/
theorem test_ret_cc_taken : seen (({ State.reset with pc := 0xC030#16, sp := 0xDFFE#16, f := 0x80#8 } : State).placeAll 0xDFFE#16 [0x08#8, 0xC0#8]) [0xC8#8]
    (fun t => (t.pc, t.sp)) = some (0xC008#16, 0xE000#16) := by decide

/-- V183 of spec/95_test_vectors.md. -/
theorem test_reti : seen (({ State.reset with sp := 0xDFFE#16 } : State).placeAll 0xDFFE#16 [0x08#8, 0xC0#8]) [0xD9#8]
    (fun t => (t.pc, t.sp, t.ime, t.imePending)) = some (0xC008#16, 0xE000#16, true, false) := by decide

/-- V184 of spec/95_test_vectors.md. -/
theorem test_rst : seen { State.reset with pc := 0xC100#16, sp := 0xE000#16 } [0xEF#8]
    (fun t => (t.sp, t.mem.read 0xDFFE, t.mem.read 0xDFFF, t.pc)) = some (0xDFFE#16, 0x01#8, 0xC1#8, 0x0028#16) := by decide

/-! ### System instructions, the EI delay, fetch faults -/

/-- V11 of spec/95_test_vectors.md. -/
theorem test_nop : seen State.reset [0x00#8]
    (fun t => t.pc) = some 0xC001#16 := by decide

/-- V196 (its first tick) of spec/95_test_vectors.md. -/
theorem test_halt : seen { State.reset with pc := 0xC00A#16 } [0x76#8]
    (fun t => (t.run, t.pc)) = some (.halted, 0xC00B#16) := by decide

/-- V197 of spec/95_test_vectors.md. -/
theorem test_stop : seen State.reset [0x10#8, 0x00#8]
    (fun t => (t.run, t.pc)) = some (.stopped, 0xC002#16) := by decide

/-- V190 of spec/95_test_vectors.md. -/
theorem test_ei : seen State.reset [0xFB#8]
    (fun t => (t.ime, t.imePending, t.pc)) = some (false, true, 0xC001#16) := by decide

/-- V193 (its second tick) of spec/95_test_vectors.md. -/
theorem test_ei_after_ei : seen { State.reset with imePending := true } [0xFB#8]
    (fun t => (t.ime, t.imePending)) = some (true, true) := by decide

/-- V191 (its second tick) of spec/95_test_vectors.md. -/
theorem test_nop_after_ei : seen { State.reset with imePending := true } [0x00#8]
    (fun t => (t.ime, t.imePending)) = some (true, false) := by decide

/-- V192 (its second tick) of spec/95_test_vectors.md. -/
theorem test_di_after_ei : seen { State.reset with imePending := true } [0xF3#8]
    (fun t => (t.ime, t.imePending)) = some (false, false) := by decide

/-- V194 (its second tick) of spec/95_test_vectors.md. -/
theorem test_halt_after_ei : seen { State.reset with imePending := true } [0x76#8]
    (fun t => (t.ime, t.run)) = some (true, .halted) := by decide

/-- S12 of spec/95_test_vectors.md. -/
theorem test_unknown : faultOf State.reset [0xD3#8] =
    some (.unknownInstructionFault [0xD3#8] 0xC000#16) := by decide

/-- V24 of spec/95_test_vectors.md. -/
theorem test_unknown_at_the_end_of_memory : faultOf { State.reset with pc := 0xDFFF#16 } [0xD3#8] =
    some (.unknownInstructionFault [0xD3#8] 0xDFFF#16) := by decide

/-- V22 of spec/95_test_vectors.md. -/
theorem test_fetch_of_an_operand : faultOf { State.reset with pc := 0xDFFE#16 } [0xC3#8, 0x00#8] =
    some (.addressFault 0xE000#16 .read) := by decide

/-- V23 of spec/95_test_vectors.md. -/
theorem test_fetch_of_a_bitcode : faultOf { State.reset with pc := 0xDFFF#16 } [0xCB#8] =
    some (.addressFault 0xE000#16 .read) := by decide

/-! ## Witnesses: states that meet the hypotheses of each statement, one for each clause, at the ends of its range -/

/-- The state after reset with a program at 0xC000. -/
def prog (bytes : List Byte) : State := State.reset.placeAll 0xC000#16 bytes

/-- The state after reset with these values in HL and `sp`. -/
def hlSp (hl sp : Word) : State := (State.reset.setPair .hl hl).setSp sp

theorem witness_DecodeOfEncode : (Instr.setBR 7#3 .a).wellFormed = true ∧ (Instr.unknown 0xFD#8).wellFormed = true := by decide

theorem witness_EncodeOfDecode : decode [0xCB#8, 0xFF#8, 0x00#8] = .ok (.setBR 7#3 .a, [0x00#8]) := by decide

theorem witness_EscapePair :
    lowField 0x3F#8 ≠ 6#3 ∧ InRam ((hlSp 0xDFFF#16 0#16).pair .hl) ∧
      (topField 0x7E#8 = 1#2 ∧ Mapped ((hlSp 0x3FFF#16 0#16).pair .hl)) := by decide

theorem witness_UnassignedBytes :
    decode [0xFD#8] = .ok (.unknown 0xFD#8, []) ∧ (prog [0xD3#8]).run = .running ∧
      (prog [0xD3#8]).read8 (prog [0xD3#8]).pc = .ok 0xD3#8 := by decide

/-- For StepRunsTheDecodedInstruction, OperandBytesAreConsumedWhenNotTaken. -/
theorem witness_BytesAt : BytesAt (prog [0x3E#8, 0x0F#8]) 0xC000#16 [0x3E#8, 0x0F#8] := by
  unfold BytesAt; decide

/-- With an EI pending, an instruction that takes the transfer, one that cancels it, and one that faults. -/
theorem witness_StepRuns :
    let s : State := { prog [0x3E#8, 0x0F#8] with imePending := true }
    let d : State := { prog [0xF3#8] with imePending := true }
    (s.run = .running ∧ decode [0x3E#8, 0x0F#8] = .ok (.ldRN8 .a 0x0F#8, []) ∧
      ∃ t, exec (.ldRN8 .a 0x0F#8) { s with pc := s.pc + BitVec.ofNat 16 2, imePending := false } = .next t) ∧
    (d.run = .running ∧ decode [0xF3#8] = .ok (.di, []) ∧
      ∃ t, exec .di { d with pc := d.pc + BitVec.ofNat 16 1, imePending := false } = .next t) ∧
    exec (.ldhAA8 0x44#8) { prog [0xF0#8, 0x44#8] with pc := 0xC002#16 } = .fault (.addressFault 0xFF44#16 .read) :=
  ⟨⟨rfl, by decide, _, rfl⟩, ⟨rfl, by decide, _, rfl⟩, rfl⟩

/-- No byte, one byte and two bytes before the end of working RAM. -/
theorem witness_FetchFaults :
    let s1 := State.reset.place 0xDFFF#16 0x3E#8
    let s2 := (State.reset.place 0xDFFE#16 0xC3#8)
    BytesAt State.reset 0xE000#16 [] ∧ decode [] = .error (.truncated 0) ∧ ¬ Mapped 0xE000#16 ∧
      BytesAt s1 0xDFFF#16 [0x3E#8] ∧ decode [0x3E#8] = .error (.truncated 1) ∧ ¬ Mapped (0xDFFF#16 + BitVec.ofNat 16 1) ∧
      BytesAt s2 0xDFFE#16 [0xC3#8, 0x00#8] ∧ decode [0xC3#8, 0x00#8] = .error (.truncated 2) := by
  unfold BytesAt; decide

theorem witness_OperandBytes_not_taken :
    BytesAt (prog [0x20#8, 0x05#8]) 0xC000#16 [0x20#8, 0x05#8] ∧ decode [0x20#8, 0x05#8] = .ok (.jrCcE8 .nz 0x05#8, []) ∧
      ({ prog [0x20#8, 0x05#8] with f := 0x80#8 } : State).cond .nz = false ∧
      BytesAt (prog [0xCA#8, 0x05#8, 0xC0#8]) 0xC000#16 [0xCA#8, 0x05#8, 0xC0#8] ∧
      decode [0xCA#8, 0x05#8, 0xC0#8] = .ok (.jpCcA16 .z 0xC005#16, []) ∧ (prog [0xCA#8, 0x05#8, 0xC0#8]).cond .z = false ∧
      BytesAt (prog [0xDC#8, 0x05#8, 0xC0#8]) 0xC000#16 [0xDC#8, 0x05#8, 0xC0#8] ∧
      decode [0xDC#8, 0x05#8, 0xC0#8] = .ok (.callCcA16 .c 0xC005#16, []) ∧ (prog [0xDC#8, 0x05#8, 0xC0#8]).cond .c = false := by
  unfold BytesAt; decide

theorem witness_OperandBytes_faults :
    let s1 : State := { State.reset.place 0xDFFF#16 0x20#8 with pc := 0xDFFF#16 }
    let s2 : State := { State.reset.place 0xDFFE#16 0xDC#8 with pc := 0xDFFE#16 }
    s1.read8 s1.pc = .ok 0x20#8 ∧ ¬ Mapped (s1.pc + 1#16) ∧
      s2.read8 s2.pc = .ok 0xDC#8 ∧ s2.read8 (s2.pc + 1#16) = .ok 0x00#8 ∧ ¬ Mapped (s2.pc + 2#16) := by decide

/-- A two-byte instruction, run.
For PcAdvancesOverStraightLineCode, StepKeepsTheConfiguration. -/
theorem witness_Pc_advances :
    (prog [0x3E#8, 0x0F#8]).run = .running ∧
      decodeFrom (prog [0x3E#8, 0x0F#8]).pull = .ok (.ldRN8 .a 0x0F#8, 2) ∧ isTransfer (.ldRN8 .a 0x0F#8) = false ∧
      ∃ t, step (prog [0x3E#8, 0x0F#8]) = .next t :=
  ⟨rfl, by decide, rfl, _, rfl⟩

/-- A tick faults; the machine may be left in a state that differs in its registers; and so after another tick.
For OnlyARunningMachineExecutes. -/
theorem witness_OnlyARunning :
    let s := prog [0xD3#8]
    let f := Fault.unknownInstructionFault [0xD3#8] 0xC000#16
    let t : State := { s.withFault f with a := 0x5A#8 }
    let u : State := { t with b := 0x5A#8 }
    step s = .fault f ∧ TickTo s t ∧ TickTo t u :=
  ⟨rfl, ⟨rfl, rfl⟩, ⟨rfl, rfl⟩⟩

/-- HALT, STOP, DI, EI, RETI, POP AF, and an instruction that is none of these, answer next.
For OnlyHaltAndStopWriteRun, LatchesAreWrittenByDiEiReti, LowBitsOfFAreStorage. -/
theorem witness_exec_next :
    (∃ t, exec .halt State.reset = .next t) ∧ (∃ t, exec (.stop 0x00#8) State.reset = .next t) ∧
      (∃ t, exec .di State.reset = .next t) ∧ (∃ t, exec .ei State.reset = .next t) ∧
      (∃ t, exec .reti (hlSp 0#16 0xDFFE#16) = .next t) ∧ (∃ t, exec (.popRr .af) (hlSp 0#16 0xDFFE#16) = .next t) ∧
      ∃ t, exec .nop State.reset = .next t :=
  ⟨⟨_, rfl⟩, ⟨_, rfl⟩, ⟨_, rfl⟩, ⟨_, rfl⟩, ⟨_, rfl⟩, ⟨_, rfl⟩, _, rfl⟩

/-- EI, then NOP, DI or EI. -/
theorem witness_EiTakesEffect :
    ∀ w ∈ [(0x00#8, Instr.nop), (0xF3#8, Instr.di), (0xFB#8, Instr.ei)],
      (prog [0xFB#8, w.1]).run = .running ∧ decodeFrom (prog [0xFB#8, w.1]).pull = .ok (.ei, 1) ∧
      ∃ t u, step (prog [0xFB#8, w.1]) = .next t ∧ decodeFrom t.pull = .ok (w.2, 1) ∧ step t = .next u := by
  intro w hw
  simp only [List.mem_cons, List.not_mem_nil, or_false] at hw
  rcases hw with rfl | rfl | rfl
  · exact ⟨rfl, rfl, _, _, rfl, rfl, rfl⟩
  · exact ⟨rfl, rfl, _, _, rfl, rfl, rfl⟩
  · exact ⟨rfl, rfl, _, _, rfl, rfl, rfl⟩

/-- A state with a byte in every store, whose tick writes memory.
For StepKeepsTheInvariant. -/
theorem witness_Invariant :
    let s : State := { State.reset with h := 0x80#8, mem := [(0x8000, 0x01#8), (0xC000, 0x77#8)], config := overlay }
    s.inv = true ∧ ∃ t, step s = .next t ∧ t.mem = [(0xC000, 0x77#8)] :=
  ⟨by decide, _, rfl, by decide⟩

theorem witness_ofImages :
    ∃ s, State.ofImages true (List.replicate 256 0xFF#8) (List.replicate 16384 0xFF#8) (List.replicate 8192 0xFF#8)
      (List.replicate 8192 0xFF#8) = some s := by
  simp only [State.ofImages, List.length_replicate, and_self, if_true]
  exact ⟨_, rfl⟩

/-- A tick's AddressFault on a read, and on a write. -/
theorem witness_AddressFaults :
    step { State.reset with pc := 0x4000#16 } = .fault (.addressFault 0x4000#16 .read) ∧
      step (prog [0x36#8, 0x55#8]) = .fault (.addressFault 0x0000#16 .write) :=
  ⟨rfl, rfl⟩

/-- Both ends of the eight ranges. -/
theorem witness_ReadByteByRegion :
    (0x00FF#16).toNat ≤ 0x00FF ∧ (0x0000#16).toNat ≤ 0x00FF ∧ 0x0100 ≤ (0x0100#16).toNat ∧ (0x3FFF#16).toNat ≤ 0x3FFF ∧
      (0x4000 ≤ (0x4000#16).toNat ∧ (0x7FFF#16).toNat ≤ 0x7FFF) ∧ (0x8000 ≤ (0x8000#16).toNat ∧ (0x9FFF#16).toNat ≤ 0x9FFF) ∧
      (0xA000 ≤ (0xA000#16).toNat ∧ (0xBFFF#16).toNat ≤ 0xBFFF) ∧ (0xC000 ≤ (0xC000#16).toNat ∧ (0xDFFF#16).toNat ≤ 0xDFFF) ∧
      0xE000 ≤ (0xE000#16).toNat ∧ ({ Config.initial with bootOverlayLive := true }).bootOverlayLive = true ∧
      Config.initial.bootOverlayLive = false := by decide

theorem witness_WriteByteByRegion :
    InRam 0x8000#16 ∧ InRam 0x9FFF#16 ∧ InRam 0xC000#16 ∧ InRam 0xDFFF#16 ∧
      ¬ InRam 0x0000#16 ∧ ¬ InRam 0x7FFF#16 ∧ ¬ InRam 0xA000#16 ∧ ¬ InRam 0xBFFF#16 ∧ ¬ InRam 0xE000#16 ∧ ¬ InRam 0xFFFF#16 := by
  decide

theorem witness_WordAccess :
    (InRam 0xDFFE#16 ∧ InRam (0xDFFE#16 + 1#16)) ∧ ¬ InRam 0xFFFF#16 ∧ (InRam 0xDFFF#16 ∧ ¬ InRam (0xDFFF#16 + 1#16)) ∧
      (State.reset.read8 0x3FFE#16 = .ok 0x00#8 ∧ State.reset.read8 (0x3FFE#16 + 1#16) = .ok 0x00#8) ∧
      ¬ Mapped 0xFFFF#16 ∧ (Mapped 0x3FFF#16 ∧ ¬ Mapped (0x3FFF#16 + 1#16)) := by decide

/-- A byte at HL, BC and DE that reads, at the last address of the cartridge window; and for the loads from HL, its neighbour.
For LoadsFromMemory, LoadsThatMoveHl, AdditionsToA, SubtractionsFromA, LogicOnA, BitTest. -/
theorem witness_readable :
    (hlSp 0x3FFF#16 0#16).read8 ((hlSp 0x3FFF#16 0#16).pair .hl) = .ok 0x00#8 ∧
      (State.reset.setPair .bc 0x3FFF#16).read8 ((State.reset.setPair .bc 0x3FFF#16).pair .bc) = .ok 0x00#8 ∧
      (State.reset.setPair .de 0x3FFF#16).read8 ((State.reset.setPair .de 0x3FFF#16).pair .de) = .ok 0x00#8 ∧
      State.reset.read8 0xDFFF#16 = .ok 0x00#8 := by decide

/-- HL, BC, DE and an immediate address that no region answers.
For the ReadFaults of LoadsFromMemory, LoadsThatMoveHl, AdditionsToA, SubtractionsFromA, LogicOnA, BitTest, and the ModifyFaults
of BitResetAndSet, ReadModifyWriteFaults. -/
theorem witness_unmapped :
    ¬ Mapped ((hlSp 0x4000#16 0#16).pair .hl) ∧ ¬ Mapped ((State.reset.setPair .bc 0xA000#16).pair .bc) ∧
      ¬ Mapped ((State.reset.setPair .de 0xFFFF#16).pair .de) ∧ ¬ Mapped 0xE000#16 := by decide

/-- HL, BC, DE and an immediate address in RAM; the byte at HL reads.
For StoresToMemory, StoresThatMoveHl, IncrementsAndDecrements, GeneralRotates, ShiftsAndSwap, BitResetAndSet. -/
theorem witness_in_ram :
    InRam ((hlSp 0x8000#16 0#16).pair .hl) ∧ InRam ((State.reset.setPair .bc 0x9FFF#16).pair .bc) ∧
      InRam ((State.reset.setPair .de 0xC000#16).pair .de) ∧ InRam 0xDFFF#16 ∧
      (hlSp 0x8000#16 0#16).read8 ((hlSp 0x8000#16 0#16).pair .hl) = .ok 0x00#8 := by decide

/-- HL, BC, DE and an immediate address outside RAM; that of HL is readable, for the instructions that read first.
For the WriteFaults of StoresToMemory, StoresThatMoveHl, and the ModifyFaults of BitResetAndSet, ReadModifyWriteFaults. -/
theorem witness_not_in_ram :
    ¬ InRam ((hlSp 0x3FFF#16 0#16).pair .hl) ∧ Mapped ((hlSp 0x3FFF#16 0#16).pair .hl) ∧
      ¬ InRam ((State.reset.setPair .bc 0x7FFF#16).pair .bc) ∧ ¬ InRam ((State.reset.setPair .de 0xE000#16).pair .de) ∧
      ¬ InRam 0x0000#16 := by decide

/-- A push completes at both ends of RAM; it faults on its lower byte at reset, and on its upper byte where the lower is the
last of working RAM.
For PushStoresThePair, CallsAndRestarts. -/
theorem witness_push :
    CanPush (hlSp 0#16 0xE000#16) ∧ CanPush (hlSp 0#16 0x8002#16) ∧ ¬ InRam ((hlSp 0#16 0x0000#16).sp - 2#16) ∧
      (InRam ((hlSp 0#16 0xE001#16).sp - 2#16) ∧ ¬ InRam ((hlSp 0#16 0xE001#16).sp - 2#16 + 1#16)) := by decide

/-- A pop reads both bytes; its lower byte is unmapped; its lower byte is mapped and its upper is not.
For PopLoadsThePair, ReturnPopsPc, JumpToHlAndReturns. -/
theorem witness_pop :
    ((hlSp 0#16 0xDFFE#16).read8 0xDFFE#16 = .ok 0x00#8 ∧ (hlSp 0#16 0xDFFE#16).read8 (0xDFFE#16 + 1#16) = .ok 0x00#8) ∧
      ¬ Mapped (hlSp 0#16 0xE000#16).sp ∧
      (Mapped (hlSp 0#16 0xDFFF#16).sp ∧ ¬ Mapped ((hlSp 0#16 0xDFFF#16).sp + 1#16)) := by decide

/-- `LD (a16),SP` stores both bytes, or faults on the first, or on the second.
For StackPointerAsOperand. -/
theorem witness_ld_a16_sp :
    (InRam 0xDFFE#16 ∧ InRam (0xDFFE#16 + 1#16)) ∧ ¬ InRam 0xBFFF#16 ∧ (InRam 0x9FFF#16 ∧ ¬ InRam (0x9FFF#16 + 1#16)) := by
  decide

/-- A push, and a call, that answer next.
For PopAfterPushRestores, ReturnAfterCallComesBack. -/
theorem witness_push_and_call_complete :
    (∃ t, exec (.pushRr .bc) (hlSp 0#16 0xE000#16) = .next t) ∧
      ∃ t, exec (.callA16 0xC020#16) (hlSp 0#16 0xE000#16) = .next t :=
  ⟨⟨_, rfl⟩, _, rfl⟩

/-- The largest packed decimal operands. -/
theorem witness_DecimalAdjustIsDecimal :
    let s : State := { State.reset with a := 0x99#8 }
    99 < 100 ∧ 0 < 100 ∧ s.a = bcd 99 := by decide

theorem witness_WordIncrements : (Reg16.hl, Pair.hl) ∈ [(Reg16.bc, Pair.bc), (.de, .de), (.hl, .hl)] := by decide

/-- A condition that holds and one that does not, where a call can push and a return can pop.
For CallsAndRestarts, JumpToHlAndReturns. -/
theorem witness_conditions :
    ((hlSp 0#16 0xDFFE#16).cond .nz = true ∧ CanPush (hlSp 0#16 0xDFFE#16)) ∧ (hlSp 0#16 0xDFFE#16).cond .c = false := by decide

/-- A taken call whose lower, or upper, byte cannot be written; a taken return whose lower, or upper, byte cannot be read.
For CallsAndRestarts, JumpToHlAndReturns. -/
theorem witness_conditions_taken_faults :
    (State.reset.cond .nc = true ∧ ¬ InRam (State.reset.sp - 2#16)) ∧
      ((hlSp 0#16 0xE001#16).cond .nc = true ∧ InRam ((hlSp 0#16 0xE001#16).sp - 2#16) ∧
        ¬ InRam ((hlSp 0#16 0xE001#16).sp - 2#16 + 1#16)) ∧
      ((hlSp 0#16 0xFFFF#16).cond .nz = true ∧ ¬ Mapped (hlSp 0#16 0xFFFF#16).sp) ∧
      ((hlSp 0#16 0x3FFF#16).cond .nz = true ∧ Mapped (hlSp 0#16 0x3FFF#16).sp ∧
        ¬ Mapped ((hlSp 0#16 0x3FFF#16).sp + 1#16)) := by decide

/-- Halted, Stopped and Faulted machines.
For OnlyARunningMachineExecutes. -/
theorem witness_not_running :
    ({ State.reset with run := .halted } : State).run = .halted ∧ ({ State.reset with run := .stopped } : State).run = .stopped ∧
      (State.reset.withFault (.addressFault 0xE000#16 .read)).run = .faulted (.addressFault 0xE000#16 .read) := by decide

theorem witness_ReadModifyWrite :
    Instr.srlHl ∈ [Instr.incHl, .decHl, .rlcHl, .rrcHl, .rlHl, .rrHl, .slaHl, .sraHl, .swapHl, .srlHl] := by decide

end Sys2Proof.Tests
end

section
/-! The registers: pair and cell round trips, and their values after reset (spec/10_state.md R11 to R13, R31, R32). -/

namespace Sys2Proof.Machine

/-! ## Pairs by their halves -/

/-- A pair reads as its high cell followed by its low cell (R11). -/
theorem pair_toNat (s : State) (p : Pair) :
    (s.pair p).toNat = (s.cell (pairHi p)).toNat * 256 + (s.cell (pairLo p)).toNat := wordOf_toNat _ _

/-- The high half of a pair write survives the write of the low half, since the two are different cells. -/
@[simp] theorem setPair_cell_pairHi (s : State) (p : Pair) (v : Word) : (s.setPair p v).cell (pairHi p) = hiByte v := by
  rw [setPair_cell, if_neg (pairHi_ne_pairLo p p), if_pos rfl]

@[simp] theorem setPair_cell_pairLo (s : State) (p : Pair) (v : Word) : (s.setPair p v).cell (pairLo p) = loByte v := by
  rw [setPair_cell, if_pos rfl]

/-- Settles O24, from the laws of `setCell` and `setPair` and the values of a word's two halves. -/
theorem pairsRoundTrip : Obligations.PairsRoundTrip := by
  refine ⟨fun s p v => ⟨setPair_pair_same s p v, ?high, ?low, pair_toNat s p, fun q hq => setPair_pair_other s hq v⟩,
    fun s r v => ⟨setCell_cell_same s r v, fun q hq => setCell_cell_other s hq v⟩⟩
  case high => rw [setPair_cell_pairHi, hiByte_toNat]
  case low => rw [setPair_cell_pairLo, loByte_toNat]

/-! ## The launch state: `State.reset` and every `State.resetCpu` are launch states -/

@[simp] theorem launch_cell (config : Config) (mem : Memory) (r : Cell) : (State.launch config mem).cell r = 0x00#8 := by
  cases r <;> rfl

@[simp] theorem launch_f (config : Config) (mem : Memory) : (State.launch config mem).f = 0x00#8 := rfl
@[simp] theorem launch_sp (config : Config) (mem : Memory) : (State.launch config mem).sp = 0x0000#16 := rfl
@[simp] theorem launch_pc (config : Config) (mem : Memory) : (State.launch config mem).pc = 0xC000#16 := rfl

/-- Every bit of F is 0 at launch, so every flag is (R31). -/
@[simp] theorem launch_flag (config : Config) (mem : Memory) (g : Flag) : (State.launch config mem).flag g = false := by
  simp [State.flag]

/-- The machine after reset, and after a reset of the CPU state, is a launch state of some launch parameters. -/
theorem exists_eq_launch_of_mem_resets {old t : State} (h : t ∈ [State.reset, old.resetCpu]) :
    ∃ config mem, t = State.launch config mem := by
  obtain rfl | rfl : t = State.reset ∨ t = old.resetCpu := by simpa using h
  · exact ⟨_, _, rfl⟩
  · exact ⟨_, _, rfl⟩

/-- Settles O26: a launch state has these register values whatever its launch parameters. -/
theorem resetRegisters : Obligations.ResetRegisters := by
  intro old t ht
  obtain ⟨config, mem, rfl⟩ := exists_eq_launch_of_mem_resets ht
  refine ⟨launch_cell config mem, launch_flag config mem, ?lowBitsOfF, launch_sp config mem, launch_pc config mem⟩
  case lowBitsOfF => rw [launch_f]; decide

end Sys2Proof.Machine
end

section
/-! Decoding is total: what the decoder answers is well-formed, and what stops it is a pull (spec/30_encoding.md R70, R79, R86, R88). -/

namespace Sys2Proof

/-! ## The blocks of the two opcode maps answer well-formed instructions -/

theorem aluBlock_wellFormed (y : Nat) (o : Operand8) : (aluBlock y o).wellFormed = true := by
  cases o <;> (simp only [aluBlock]; split <;> rfl)

theorem aluImmediate_wellFormed (y : Nat) (n : Byte) : (aluImmediate y n).wellFormed = true := by
  unfold aluImmediate
  split <;> rfl

theorem loadBlock_wellFormed (dst src : Operand8) : (loadBlock dst src).wellFormed = true := by
  cases dst <;> cases src <;> rfl

theorem shiftBlock_wellFormed (y : Nat) (o : Operand8) : (shiftBlock y o).wellFormed = true := by
  cases o <;> (simp only [shiftBlock]; split <;> rfl)

/-- The secondary map has no unassigned bitcode (R85). -/
theorem secondary_wellFormed (bitcode : Byte) : (secondary bitcode).wellFormed = true := by
  simp only [secondary]
  split
  case h_1 => exact shiftBlock_wellFormed _ _
  all_goals rfl

/-! ## The primary map: the instruction is well-formed whatever the operand bytes are -/

/-- Every instruction that an entry of the primary map can become with its operand bytes is well-formed. The escape stands for
no instruction by itself: the secondary map answers for it (R80). -/
def Opcode.WellFormed : Opcode → Prop
  | .op i => i.wellFormed = true
  | .n8 k => ∀ n, (k n).wellFormed = true
  | .e8 k => ∀ e, (k e).wellFormed = true
  | .n16 k => ∀ v, (k v).wellFormed = true
  | .escape => True

theorem quadrant0_wellFormed (y z : Nat) (o : Operand8) : (quadrant0 y z o).WellFormed := by
  unfold quadrant0
  repeat' split
  all_goals simp [Opcode.WellFormed, Instr.wellFormed, Instr.illFormed]

/-- The places of the quadrant x = 3 that the primary map leaves unassigned (R82), by the fields `y` and `z`. -/
def UnassignedPlace (y z : Nat) : Prop :=
  (z = 3 ∧ y ≠ 0 ∧ y ≠ 1 ∧ y ≠ 6 ∧ y ≠ 7) ∨ (z = 4 ∧ ¬ y < 4) ∨ (z = 5 ∧ (y = 3 ∨ y = 5 ∨ y = 7))

/-- The unassigned places of R82 hold the eleven bytes of R86, which are those `unknown` may carry. -/
theorem unknown_wellFormed_of_unassignedPlace (op : Byte)
    (hx : (topField op).toNat ≠ 0 ∧ (topField op).toNat ≠ 1 ∧ (topField op).toNat ≠ 2)
    (hyz : UnassignedPlace (midField op).toNat (lowField op).toNat) : (Instr.unknown op).wellFormed = true := by
  revert op
  unfold UnassignedPlace
  decide

/-- The quadrant x = 3 answers `unknown` at the unassigned places only. -/
theorem quadrant3_wellFormed {op : Byte} {y z : Nat} (t : BitVec 3)
    (hop : UnassignedPlace y z → (Instr.unknown op).wellFormed = true) : (quadrant3 op y z t).WellFormed := by
  unfold quadrant3
  split
  case h_4 => -- `z = 3`
    split
    case h_5 h0 h1 h6 h7 => exact hop (.inl ⟨rfl, h0, h1, h6, h7⟩)
    all_goals simp [Opcode.WellFormed, Instr.wellFormed, Instr.illFormed]
  case h_5 => -- `z = 4`
    split
    case isFalse hy => exact hop (.inr (.inl ⟨rfl, hy⟩))
    case isTrue => exact fun _ => rfl
  case h_6 => -- `z = 5`
    split
    case h_2 => exact hop (.inr (.inr ⟨rfl, .inl rfl⟩))
    case h_3 => exact hop (.inr (.inr ⟨rfl, .inr (.inl rfl)⟩))
    case h_4 => exact hop (.inr (.inr ⟨rfl, .inr (.inr rfl)⟩))
    all_goals simp [Opcode.WellFormed, Instr.wellFormed, Instr.illFormed]
  case h_7 => exact aluImmediate_wellFormed y
  case h_8 => rfl
  all_goals split <;> simp [Opcode.WellFormed, Instr.wellFormed, Instr.illFormed]

theorem primary_wellFormed (op : Byte) : (primary op).WellFormed := by
  simp only [primary]
  split
  case h_1 => exact quadrant0_wellFormed _ _ _
  case h_2 => exact loadBlock_wellFormed _ _
  case h_3 => exact aluBlock_wellFormed _ _
  case h_4 h0 h1 h2 => exact quadrant3_wellFormed _ (unknown_wellFormed_of_unassignedPlace op ⟨h0, h1, h2⟩)

/-! ## The decoder over any pull source -/

/-- What the decoder answers is well-formed and 1 to 3 bytes long (R70). -/
theorem decodeFrom_ok {ε : Type} {pull : Nat → Except ε Byte} {i : Instr} {n : Nat} (h : decodeFrom pull = .ok (i, n)) :
    i.wellFormed = true ∧ 1 ≤ n ∧ n ≤ 3 := by
  unfold decodeFrom at h
  split at h
  case h_1 => cases h
  case h_2 op _ =>
    have hop := primary_wellFormed op
    split at h <;> rename_i hp <;> rw [hp] at hop
    case h_1 => cases h; exact ⟨hop, by decide⟩ -- `OP`
    case h_2 | h_3 => split at h <;> cases h; exact ⟨hop _, by decide⟩ -- `OP_N8`, `OP_E8`
    case h_4 => -- `OP_N16`
      split at h
      case h_1 => cases h
      case h_2 => split at h <;> cases h; exact ⟨hop _, by decide⟩
    case h_5 => split at h <;> cases h; exact ⟨secondary_wellFormed _, by decide⟩ -- `CB_OP`

/-- Only a pull stops the decoder, one of the first three. -/
theorem decodeFrom_error {ε : Type} {pull : Nat → Except ε Byte} {e : ε} (h : decodeFrom pull = .error e) :
    ∃ k, k ≤ 2 ∧ pull k = .error e := by
  unfold decodeFrom at h
  split at h
  case h_1 h0 => cases h; exact ⟨0, by decide, h0⟩
  case h_2 =>
    split at h
    case h_1 => cases h -- `OP`
    case h_4 => -- `OP_N16`
      split at h
      case h_1 h1 => cases h; exact ⟨1, by decide, h1⟩
      case h_2 =>
        split at h
        case h_1 h2 => cases h; exact ⟨2, by decide, h2⟩
        case h_2 => cases h
    all_goals -- the formats with one more byte
      split at h
      case h_1 h1 => cases h; exact ⟨1, by decide, h1⟩
      case h_2 => cases h

end Sys2Proof

namespace Sys2Proof.Machine

/-- `Unknown`, executed, is fatal (R246); the byte's address is the advanced `pc` less 1 (log 9). -/
theorem exec_unknown (op : Byte) (s : State) :
    exec (.unknown op) s = .fault (.unknownInstructionFault [op] (s.pc - 1#16)) := rfl

/-- Settles O4: the decoder's two outcomes over any pull source, and a tick's pull is a read through the Router, which fails at
an unmapped address only. -/
theorem decodingIsTotal : Obligations.DecodingIsTotal := by
  refine ⟨fun s => ?decoding, fun op s => ⟨_, exec_unknown op s⟩⟩
  cases h : decodeFrom s.pull with
  | ok answer => exact .inl ⟨answer.1, answer.2, rfl, decodeFrom_ok h⟩
  | error f =>
    obtain ⟨k, hk, hpull⟩ := decodeFrom_error h
    obtain ⟨hunmapped, rfl⟩ := read8_error s hpull
    exact .inr ⟨k, hk, hunmapped, rfl⟩

end Sys2Proof.Machine
end

section
/-! The 8-bit loads (spec/40_load8.md R100 to R111, R116 to R119): what each shape of the family does, then the instructions by their shape. -/

namespace Sys2Proof.Machine

/-! ## Where an instruction that begins with one access faults (R111) -/

/-- An instruction that begins with a load of one byte faults where that byte is unmapped. -/
theorem readFaults_of_exec_loadByte {i : Instr} {s : State} {x : Word} {k : Byte → Result}
    (hi : exec i s = loadByte s x k) : ReadFaults i s x :=
  fun hx => hi.trans (loadByte_unmapped hx k)

/-- An instruction that begins with a store of one byte faults where that byte is not in RAM. -/
theorem writeFaults_of_exec_storeByte {i : Instr} {s : State} {x : Word} {v : Byte} {k : State → Result}
    (hi : exec i s = storeByte s x v k) : WriteFaults i s x :=
  fun hx => hi.trans (storeByte_outside v hx k)

/-! ## The effect of each shape where it completes -/

/-- A write of one cell other than F. -/
theorem effect_of_exec_setCell {i : Instr} {s : State} {r : Cell} {v : Byte} (hr : r ≠ .f)
    (hi : exec i s = .next (s.setCell r v)) : Effect i s [r] [] [] s.sp s.pc fun t => t.cell r = v :=
  ⟨_, hi, Frame.setCell s hr v (List.mem_singleton_self r) [] [], setCell_sp s r v, setCell_pc s r v,
    setCell_cell_same s r v⟩

/-- A load copies the byte into the cell. -/
theorem effect_of_exec_loadReg {i : Instr} {s : State} {r : Cell} {x : Word} {v : Byte} (hr : r ≠ .f)
    (hi : exec i s = loadReg r x s) (hv : s.read8 x = .ok v) : Effect i s [r] [] [] s.sp s.pc fun t => t.cell r = v :=
  effect_of_exec_setCell hr (hi.trans (loadByte_ok hv _))

/-- A store to RAM changes the one byte. -/
theorem effect_of_exec_storeTo {i : Instr} {s : State} {x : Word} {v : Byte} (hi : exec i s = storeTo x v s)
    (hx : InRam x) : Effect i s [] [] [x] s.sp s.pc fun t => t.read8 x = .ok v :=
  ⟨_, hi.trans (storeByte_ram v hx _), Frame.store s x v [] [] (List.mem_singleton_self x), rfl, rfl,
    read8_setMem_same s v hx⟩

/-- A pair moved by a step holds the sum modulo 65536 (R19); a step of minus one is 65535. -/
theorem setPair_add_toNat (s : State) (p : Pair) (w step : Word) :
    ((s.setPair p (w + step)).pair p).toNat = (w.toNat + step.toNat) % 65536 := by
  rw [setPair_pair_same, BitVec.toNat_add]

/-- A load that moves HL copies the byte at the old HL into A and adds the step to HL. -/
theorem effect_of_exec_loadAndMove {i : Instr} {s : State} {step : Word} {v : Byte}
    (hi : exec i s = loadAndMove step s) (hv : s.read8 (s.pair .hl) = .ok v) :
    Effect i s [.a, .h, .l] [] [] s.sp s.pc fun t =>
      t.a = v ∧ (t.pair .hl).toNat = ((s.pair .hl).toNat + step.toNat) % 65536 :=
  ⟨_, hi.trans (loadByte_ok hv _),
    (Frame.setCell s (by decide) v (by decide) [] []).trans (Frame.setPair _ (by decide) _ (by decide) (by decide) [] []),
    rfl, rfl, rfl, setPair_add_toNat _ .hl _ step⟩

/-- A store that moves HL puts A at the old HL and adds the step to HL; the move leaves the stored byte. -/
theorem effect_of_exec_storeAndMove {i : Instr} {s : State} {step : Word} (hi : exec i s = storeAndMove step s)
    (hx : InRam (s.pair .hl)) :
    Effect i s [.h, .l] [] [s.pair .hl] s.sp s.pc fun t =>
      t.read8 (s.pair .hl) = .ok s.a ∧ (t.pair .hl).toNat = ((s.pair .hl).toNat + step.toNat) % 65536 :=
  ⟨_, hi.trans (storeByte_ram s.a hx _),
    (Frame.store s _ s.a _ [] (List.mem_singleton_self _)).trans
      (Frame.setPair _ (by decide) _ (by decide) (by decide) [] _),
    rfl, rfl, (setPair_read8 _ .hl _ _).trans (read8_setMem_same s s.a hx), setPair_add_toNat _ .hl _ step⟩

/-! ## The instructions: `exec` of each is a shape of the family by definition -/

/-- Settles O28: both forms are one cell write, of a value read from the old state. -/
theorem registerAndImmediateLoads : Obligations.RegisterAndImmediateLoads :=
  ⟨fun dst _ _ => effect_of_exec_setCell (cellOf_ne_f dst) rfl, fun r _ _ => effect_of_exec_setCell (cellOf_ne_f r) rfl⟩

/-- Settles O29: the four forms are `loadReg` at an address of the old registers. -/
theorem loadsFromMemory : Obligations.LoadsFromMemory := by
  intro s v
  refine ⟨fun r => effect_of_exec_loadReg (cellOf_ne_f r) rfl, ?atBc, ?atDe, fun _ => ?atA16,
    fun _ => readFaults_of_exec_loadByte rfl, readFaults_of_exec_loadByte rfl, readFaults_of_exec_loadByte rfl,
    fun _ => readFaults_of_exec_loadByte rfl⟩
  case atBc | atDe | atA16 => exact effect_of_exec_loadReg (r := .a) (by decide) rfl

/-- Settles O30: the five forms are `storeTo` at an address of the old registers. -/
theorem storesToMemory : Obligations.StoresToMemory := fun _ =>
  ⟨fun _ => effect_of_exec_storeTo rfl, fun _ => effect_of_exec_storeTo rfl, effect_of_exec_storeTo rfl,
    effect_of_exec_storeTo rfl, fun _ => effect_of_exec_storeTo rfl,
    fun _ => writeFaults_of_exec_storeByte rfl, fun _ => writeFaults_of_exec_storeByte rfl,
    writeFaults_of_exec_storeByte rfl, writeFaults_of_exec_storeByte rfl, fun _ => writeFaults_of_exec_storeByte rfl⟩

/-- Settles O31: the two forms are `loadAndMove` by 1 and by -1, which is 65535 modulo 65536. -/
theorem loadsThatMoveHl : Obligations.LoadsThatMoveHl := fun _ _ =>
  ⟨fun hv => ⟨effect_of_exec_loadAndMove (step := 1#16) rfl hv, effect_of_exec_loadAndMove (step := -1#16) rfl hv⟩,
    readFaults_of_exec_loadByte rfl, readFaults_of_exec_loadByte rfl⟩

/-- Settles O32: the two forms are `storeAndMove` by 1 and by -1, which is 65535 modulo 65536. -/
theorem storesThatMoveHl : Obligations.StoresThatMoveHl := fun _ =>
  ⟨fun hx => ⟨effect_of_exec_storeAndMove (step := 1#16) rfl hx, effect_of_exec_storeAndMove (step := -1#16) rfl hx⟩,
    writeFaults_of_exec_storeByte rfl, writeFaults_of_exec_storeByte rfl⟩

end Sys2Proof.Machine
end

section
/-! The 16-bit loads and the stack (spec/41_load16_stack.md R130, R132, R136, R137): what each shape of the family does, then the instructions by their shape. -/

namespace Sys2Proof.Machine

/-! ## Where a two-byte access faults: at the first of its bytes that cannot be served (spec/20_memory.md R49, R50) -/

theorem loadWord_first_unmapped {s : State} {x : Word} (h : ¬ Mapped x) (k : Word → Result) :
    loadWord s x k = .fault (.addressFault x .read) := by
  simp only [loadWord, State.read16, read8_unmapped s h, raise]

theorem loadWord_second_unmapped {s : State} {x : Word} (h1 : Mapped x) (h2 : ¬ Mapped (x + 1#16)) (k : Word → Result) :
    loadWord s x k = .fault (.addressFault (x + 1#16) .read) := by
  obtain ⟨lo, hlo⟩ := (read8_ok_iff s x).mpr h1
  simp only [loadWord, State.read16, hlo, read8_unmapped s h2, raise]

theorem storeWord_first_outside {s : State} {x : Word} (v : Word) (h : ¬ InRam x) (k : State → Result) :
    storeWord s x v k = .fault (.addressFault x .write) := by
  simp only [storeWord, State.write16, write8_eq, if_neg h, raise]

theorem storeWord_second_outside {s : State} {x : Word} (v : Word) (h1 : InRam x) (h2 : ¬ InRam (x + 1#16))
    (k : State → Result) : storeWord s x v k = .fault (.addressFault (x + 1#16) .write) := by
  simp only [storeWord, State.write16, write8_eq, if_pos h1, if_neg h2, raise]

/-- An instruction that begins with a load of two bytes faults at the first of them that is unmapped. -/
theorem wordReadFaults_of_exec_loadWord {i : Instr} {s : State} {x : Word} {k : Word → Result}
    (hi : exec i s = loadWord s x k) : WordReadFaults i s x :=
  ⟨fun h => hi.trans (loadWord_first_unmapped h k), fun h1 h2 => hi.trans (loadWord_second_unmapped h1 h2 k)⟩

/-- An instruction that begins with a store of two bytes, perhaps after a move of `sp`, faults at the first of them that is not
in RAM. -/
theorem wordWriteFaults_of_exec_storeWord {i : Instr} {s u : State} {x v : Word} {k : State → Result}
    (hi : exec i s = storeWord u x v k) : WordWriteFaults i s x :=
  ⟨fun h => hi.trans (storeWord_first_outside v h k), fun h1 h2 => hi.trans (storeWord_second_outside v h1 h2 k)⟩

/-! ## The effect of each shape where it completes -/

/-- A write of a pair other than AF. -/
theorem effect_of_exec_setPair {i : Instr} {s : State} {p : Pair} {v : Word} (hp : p ≠ .af)
    (hi : exec i s = .next (s.setPair p v)) :
    Effect i s [pairHi p, pairLo p] [] [] s.sp s.pc fun t =>
      (t.cell (pairHi p)).toNat = v.toNat / 256 ∧ (t.cell (pairLo p)).toNat = v.toNat % 256 := by
  refine ⟨_, hi, Frame.setPair s hp v (by simp) (by simp) [] [], setPair_sp s p v, setPair_pc s p v, ?high, ?low⟩
  case high => rw [setPair_cell_pairHi, hiByte_toNat]
  case low => rw [setPair_cell_pairLo, loByte_toNat]

/-- A write of `sp`. -/
theorem effect_of_exec_setSp {i : Instr} {s : State} {v : Word} {post : State → Prop}
    (hi : exec i s = .next (s.setSp v)) (hpost : post (s.setSp v)) : Effect i s [] [] [] v s.pc post :=
  ⟨_, hi, Frame.setSp s v [] [] [], rfl, rfl, hpost⟩

/-- A stronger postcondition of an instruction gives a weaker one. -/
theorem Effect.mono {i : Instr} {s : State} {cells : List Cell} {flags : List Flag} {bytes : List Word} {sp pc : Word}
    {post post' : State → Prop} (h : Effect i s cells flags bytes sp pc post) (himp : ∀ t, post t → post' t) :
    Effect i s cells flags bytes sp pc post' := by
  obtain ⟨t, hexec, hframe, hsp, hpc, hpost⟩ := h
  exact ⟨t, hexec, hframe, hsp, hpc, himp t hpost⟩

/-- A push to RAM changes the two bytes and `sp`. -/
theorem effect_of_exec_push {i : Instr} {s : State} {v : Word} (hi : exec i s = pushWord s v fun t => .next t)
    (h : CanPush s) :
    Effect i s [] [] (pushedBytes s) (s.sp - 2#16) s.pc fun t => t.f = s.f ∧ Pushed s t v := by
  obtain ⟨hframe, hpushed⟩ := push_effect v h
  exact ⟨_, hi.trans (pushWord_ram v h.1 h.2 _), hframe, rfl, rfl, rfl, hpushed⟩

/-- The two halves of a pair are its two cells, all 8 bits of each (R11, R16). -/
@[simp] theorem hiByte_pair (s : State) (p : Pair) : hiByte (s.pair p) = s.cell (pairHi p) := hiByte_wordOf _ _

@[simp] theorem loByte_pair (s : State) (p : Pair) : loByte (s.pair p) = s.cell (pairLo p) := loByte_wordOf _ _

/-- A pop of two bytes that can be read writes `sp` and the pair. -/
theorem exec_popRr_of_bytes {s : State} {lo hi : Byte} (hlo : s.read8 s.sp = .ok lo) (hhi : s.read8 (s.sp + 1#16) = .ok hi)
    (p : Pair) : exec (.popRr p) s = .next ((s.setSp (s.sp + 2#16)).setPair p (wordOf hi lo)) :=
  popWord_ok (read16_of_bytes hlo hhi) fun v t => .next (t.setPair p v)

/-- The four flags of a state whose F is this byte (R14). -/
theorem flagsAre_of_f {t : State} {v : Byte} (h : t.f = v) :
    FlagsAre t (v.getLsbD 7) (v.getLsbD 6) (v.getLsbD 5) (v.getLsbD 4) := by
  subst h
  exact ⟨rfl, rfl, rfl, rfl⟩

/-! ## The instructions: `exec` of each is a shape of the family by definition -/

/-- Settles O34: a pair write for BC, DE and HL, and a write of `sp` for the two others. -/
theorem wordLoads : Obligations.WordLoads := fun s _ =>
  ⟨effect_of_exec_setPair (p := .bc) (by decide) rfl, effect_of_exec_setPair (p := .de) (by decide) rfl,
    effect_of_exec_setPair (p := .hl) (by decide) rfl, effect_of_exec_setSp rfl trivial,
    effect_of_exec_setSp rfl (pair_toNat s .hl)⟩

/-- Settles O36: the two bytes pushed are the two halves of the pair; the faults are those of the two-byte store. -/
theorem pushStoresThePair : Obligations.PushStoresThePair := by
  refine fun s p => ⟨fun h => (effect_of_exec_push rfl h).mono fun t ht => ?bytes, wordWriteFaults_of_exec_storeWord rfl⟩
  case bytes => simpa [Pushed] using ht

/-- Settles O37: a pop writes `sp` and the two halves of the pair; of AF the low half is F, which holds the flags. -/
theorem popLoadsThePair : Obligations.PopLoadsThePair := by
  refine ⟨fun s lo hi hlo hhi => ?completes, fun s p => wordReadFaults_of_exec_loadWord rfl⟩
  have hexec := exec_popRr_of_bytes hlo hhi
  refine ⟨fun p hp => ?pair, ?af⟩
  case pair =>
    have hframe := (Frame.setSp s (s.sp + 2#16) [pairHi p, pairLo p] [] []).trans
      (Frame.setPair _ hp (wordOf hi lo) (by simp) (by simp) [] [])
    exact ⟨_, hexec p, hframe, setPair_sp _ p _, setPair_pc _ p _, by simp, by simp, setPair_f _ hp _⟩
  case af =>
    have hf : ((s.setSp (s.sp + 2#16)).setPair .af (wordOf hi lo)).f = lo := loByte_wordOf hi lo
    refine ⟨_, hexec .af, hiByte_wordOf hi lo, hf, rfl, rfl, flagsAre_of_f hf, fun r hra hrf => ?cells,
      setPair_read8 _ .af _, rfl, rfl, rfl, rfl⟩
    case cells => rw [setPair_cell_other _ hra hrf, setSp_cell]

end Sys2Proof.Machine
end

section
/-! The 8-bit additions, subtractions and comparison on A (spec/42_alu8.md R150 to R153, R157, R166): the sums in integers, what each operation does, then the instructions by their operation. -/

namespace Sys2Proof.Machine

/-! ## Results of the byte operations as integers (R167) -/

theorem bitOf_toNat (c : Bool) : (bitOf c).toNat = c.toNat := by cases c <;> rfl

/-- The zero test of a byte is that of its number. -/
theorem isZero_eq_decide_toNat (v : Byte) : isZero v = decide (v.toNat = 0) := by
  rw [isZero, beq_eq_decide, decide_eq_decide, ← BitVec.toNat_inj, BitVec.toNat_zero]

theorem add_add_bitOf_toNat (a v : Byte) (c : Bool) :
    (a + v + bitOf c).toNat = (a.toNat + v.toNat + c.toNat) % 256 := by
  simp only [BitVec.toNat_add, bitOf_toNat, Nat.mod_add_mod]

/-- A difference, with 512 added so that the two subtractions stay among the natural numbers. -/
theorem sub_sub_bitOf_toNat (a v : Byte) (c : Bool) :
    (a - v - bitOf c).toNat = (a.toNat + 512 - v.toNat - c.toNat) % 256 := by
  have hv := v.isLt
  have hc := c.toNat_le
  rw [BitVec.toNat_sub, BitVec.toNat_sub, bitOf_toNat]
  omega

/-- The difference of SUB and CP, whose borrow-in is 0. -/
theorem sub_toNat_of_no_borrow (a v : Byte) : (a - v).toNat = (a.toNat + 512 - v.toNat - false.toNat) % 256 := by
  rw [← sub_sub_bitOf_toNat, show bitOf false = 0#8 from rfl, BitVec.sub_zero]

/-! ## The operations on the accumulator where they complete (R166) -/

/-- The form with its operand at HL is the operation on that byte where it can be read. -/
theorem exec_aluAtHl_ok {i : Instr} {s : State} {op : Byte → State → State} {v : Byte} (hi : exec i s = aluAtHl op s)
    (hv : s.read8 (s.pair .hl) = .ok v) : exec i s = .next (op v s) :=
  hi.trans (loadByte_ok hv _)

/-- A write of A, then of the four flags. -/
theorem effect_of_exec_setA_setFlags {i : Instr} {s : State} {r : Byte} {z n h c : Bool}
    (hi : exec i s = .next ((s.setCell .a r).setFlags z n h c)) :
    Effect i s [.a] allFlags [] s.sp s.pc fun t => t.a = r ∧ FlagsAre t z n h c :=
  ⟨_, hi, (Frame.setCell s (by decide) r (by decide) _ []).trans (Frame.setFlags _ z n h c _ []), rfl, rfl, rfl,
    setFlags_are _ z n h c⟩

/-- An addition writes a byte that is the sum modulo 256, with the flags of the sum. -/
theorem addEffect_of_exec_setA_setFlags {i : Instr} {s : State} {v r : Byte} {c : Bool}
    (hr : r.toNat = (s.a.toNat + v.toNat + c.toNat) % 256)
    (hi : exec i s = .next ((s.setCell .a r).setFlags (isZero r) false (addHalf s.a v c) (addCarry s.a v c))) :
    AddEffect i s v c := by
  refine (effect_of_exec_setA_setFlags hi).mono fun t ⟨ha, hflags⟩ => ⟨by rw [ha, hr], ?flags⟩
  case flags => rwa [isZero_eq_decide_toNat, hr] at hflags

/-- ADD is the addition whose carry-in is 0. -/
theorem addEffect_of_exec_aluAdd {i : Instr} {s : State} {v : Byte} (hi : exec i s = .next (aluAdd v s)) :
    AddEffect i s v false :=
  addEffect_of_exec_setA_setFlags (BitVec.toNat_add s.a v) hi

theorem addEffect_of_exec_aluAdc {i : Instr} {s : State} {v : Byte} (hi : exec i s = .next (aluAdc v s)) :
    AddEffect i s v (s.flag .c) :=
  addEffect_of_exec_setA_setFlags (add_add_bitOf_toNat s.a v _) hi

/-- Flags written from a byte that is the difference modulo 256 are those of the subtraction. -/
theorem subFlags_of_flagsAre {s t : State} {v r : Byte} {c : Bool}
    (hr : r.toNat = (s.a.toNat + 512 - v.toNat - c.toNat) % 256)
    (h : FlagsAre t (isZero r) true (subHalf s.a v c) (subCarry s.a v c)) : SubFlags s v c t := by
  rwa [isZero_eq_decide_toNat, hr] at h

/-- A subtraction writes a byte that is the difference modulo 256, with the flags of the difference. -/
theorem subEffect_of_exec_setA_setFlags {i : Instr} {s : State} {v r : Byte} {c : Bool}
    (hr : r.toNat = (s.a.toNat + 512 - v.toNat - c.toNat) % 256)
    (hi : exec i s = .next ((s.setCell .a r).setFlags (isZero r) true (subHalf s.a v c) (subCarry s.a v c))) :
    SubEffect i s v c :=
  (effect_of_exec_setA_setFlags hi).mono fun _ ⟨ha, hflags⟩ => ⟨by rw [ha, hr], subFlags_of_flagsAre hr hflags⟩

theorem subEffect_of_exec_aluSub {i : Instr} {s : State} {v : Byte} (hi : exec i s = .next (aluSub v s)) :
    SubEffect i s v false :=
  subEffect_of_exec_setA_setFlags (sub_toNat_of_no_borrow s.a v) hi

theorem subEffect_of_exec_aluSbc {i : Instr} {s : State} {v : Byte} (hi : exec i s = .next (aluSbc v s)) :
    SubEffect i s v (s.flag .c) :=
  subEffect_of_exec_setA_setFlags (sub_sub_bitOf_toNat s.a v _) hi

/-- CP writes the flags of the subtraction and nothing else. -/
theorem compareEffect_of_exec_aluCp {i : Instr} {s : State} {v : Byte} (hi : exec i s = .next (aluCp v s)) :
    CompareEffect i s v :=
  ⟨_, hi, Frame.setFlags s _ _ _ _ [] [], rfl, rfl,
    subFlags_of_flagsAre (sub_toNat_of_no_borrow s.a v) (setFlags_are s _ _ _ _)⟩

/-! ## The instructions: `exec` of each is its operation by definition -/

/-- Settles O39: every form is ADD or ADC on its operand; the `(HL)` forms read it first and fault where that fails. -/
theorem additionsToA : Obligations.AdditionsToA := fun _ =>
  ⟨fun _ => addEffect_of_exec_aluAdd rfl, fun _ => addEffect_of_exec_aluAdd rfl,
    fun _ hv => addEffect_of_exec_aluAdd (exec_aluAtHl_ok rfl hv),
    fun _ => addEffect_of_exec_aluAdc rfl, fun _ => addEffect_of_exec_aluAdc rfl,
    fun _ hv => addEffect_of_exec_aluAdc (exec_aluAtHl_ok rfl hv),
    readFaults_of_exec_loadByte rfl, readFaults_of_exec_loadByte rfl⟩

/-- Settles O40: every form is SUB, SBC or CP on its operand; the `(HL)` forms read it first and fault where that fails. -/
theorem subtractionsFromA : Obligations.SubtractionsFromA := fun _ =>
  ⟨fun _ => subEffect_of_exec_aluSub rfl, fun _ => subEffect_of_exec_aluSub rfl,
    fun _ hv => subEffect_of_exec_aluSub (exec_aluAtHl_ok rfl hv),
    fun _ => subEffect_of_exec_aluSbc rfl, fun _ => subEffect_of_exec_aluSbc rfl,
    fun _ hv => subEffect_of_exec_aluSbc (exec_aluAtHl_ok rfl hv),
    fun _ => compareEffect_of_exec_aluCp rfl, fun _ => compareEffect_of_exec_aluCp rfl,
    fun _ hv => compareEffect_of_exec_aluCp (exec_aluAtHl_ok rfl hv),
    readFaults_of_exec_loadByte rfl, readFaults_of_exec_loadByte rfl, readFaults_of_exec_loadByte rfl⟩

end Sys2Proof.Machine
end

section
/-! The accumulator rotates (spec/44_rotate_shift.md R190 to R193, R202): the shifted-out bit and the filled result in integers, then the instructions by their rotate. -/

namespace Sys2Proof.Machine

/-! ## The bit that leaves, as a number and as a test -/

theorem getLsbD_seven_toNat (v : Byte) : (v.getLsbD 7).toNat = v.toNat / 128 := by
  have hv := v.isLt
  rw [BitVec.getLsbD, Nat.toNat_testBit]
  omega

theorem getLsbD_zero_toNat (v : Byte) : (v.getLsbD 0).toNat = v.toNat % 2 := by
  rw [BitVec.getLsbD, Nat.toNat_testBit, Nat.pow_zero, Nat.div_one]

theorem getLsbD_seven_eq_decide (v : Byte) : v.getLsbD 7 = decide (v.toNat / 128 = 1) := by
  rw [← getLsbD_seven_toNat]
  cases v.getLsbD 7 <;> rfl

theorem getLsbD_zero_eq_decide (v : Byte) : v.getLsbD 0 = decide (v.toNat % 2 = 1) := by
  rw [← getLsbD_zero_toNat]
  cases v.getLsbD 0 <;> rfl

/-! ## A shift by one whose vacated bit is filled: the two parts share no bit, so their `|||` is their sum -/

theorem shiftLeft_or_bitOf_toNat (v : Byte) (c : Bool) :
    ((v <<< 1) ||| bitOf c).toNat = v.toNat * 2 % 256 + c.toNat := by
  have hshift : (v <<< 1).toNat = 2 ^ 1 * (v.toNat % 128) := by
    rw [BitVec.toNat_shiftLeft, Nat.shiftLeft_eq]
    omega
  rw [BitVec.toNat_or, hshift, bitOf_toNat, ← Nat.two_pow_add_eq_or_of_lt c.toNat_lt]
  omega

theorem shiftRight_or_bitOf_toNat (v : Byte) (c : Bool) :
    ((v >>> 1) ||| (bitOf c <<< 7)).toNat = v.toNat / 2 + c.toNat * 128 := by
  have hv : v.toNat / 2 < 2 ^ 7 := by have := v.isLt; omega
  have hfill : (bitOf c <<< 7).toNat = 2 ^ 7 * c.toNat := by cases c <;> rfl
  rw [BitVec.toNat_or, hfill, BitVec.toNat_ushiftRight, Nat.shiftRight_eq_div_pow, Nat.pow_one, Nat.or_comm,
    ← Nat.two_pow_add_eq_or_of_lt hv]
  omega

/-! ## The four rotates in integers -/

theorem rotLeft_toNat (v : Byte) (c : Bool) : (rotLeft v c).1.toNat = v.toNat * 2 % 256 + v.toNat / 128 := by
  rw [rotLeft, shiftLeft_or_bitOf_toNat, getLsbD_seven_toNat]

theorem rotRight_toNat (v : Byte) (c : Bool) : (rotRight v c).1.toNat = v.toNat / 2 + v.toNat % 2 * 128 := by
  rw [rotRight, shiftRight_or_bitOf_toNat, getLsbD_zero_toNat]

theorem rotLeftCarry_toNat (v : Byte) (c : Bool) : (rotLeftCarry v c).1.toNat = v.toNat * 2 % 256 + c.toNat :=
  shiftLeft_or_bitOf_toNat v c

theorem rotRightCarry_toNat (v : Byte) (c : Bool) : (rotRightCarry v c).1.toNat = v.toNat / 2 + c.toNat * 128 :=
  shiftRight_or_bitOf_toNat v c

/-! ## The accumulator form of a rotate -/

/-- An accumulator form of an operation whose result and shifted-out bit are known in integers: it writes A, then the flags, of
which Carry alone depends on the operand. -/
theorem rotateAEffect_of_exec_rotateA {i : Instr} {g : Byte → Bool → Byte × Bool} {result : Nat → Nat → Nat}
    {carry : Nat → Bool} (hi : ∀ s, exec i s = rotateA g s)
    (hresult : ∀ v c, (g v c).1.toNat = result v.toNat c.toNat) (hcarry : ∀ v c, (g v c).2 = carry v.toNat) :
    RotateAEffect i result carry := by
  refine fun s => (effect_of_exec_setA_setFlags (hi s)).mono fun t ⟨ha, hflags⟩ => ⟨?a, ?flags⟩
  case a => rw [ha, hresult]
  case flags => rwa [hcarry] at hflags

/-! ## The instructions: `exec` of each is its rotate by definition -/

/-- Settles O48: a left rotate sends bit 7 to Carry and a right one bit 0; the vacated bit is the one that left, or for RLA and
RRA the old Carry. -/
theorem accumulatorRotates : Obligations.AccumulatorRotates :=
  ⟨rotateAEffect_of_exec_rotateA (fun _ => rfl) rotLeft_toNat fun v _ => getLsbD_seven_eq_decide v,
    rotateAEffect_of_exec_rotateA (fun _ => rfl) rotRight_toNat fun v _ => getLsbD_zero_eq_decide v,
    rotateAEffect_of_exec_rotateA (fun _ => rfl) rotLeftCarry_toNat fun v _ => getLsbD_seven_eq_decide v,
    rotateAEffect_of_exec_rotateA (fun _ => rfl) rotRightCarry_toNat fun v _ => getLsbD_zero_eq_decide v⟩

end Sys2Proof.Machine
end

section
/-! RES and SET (spec/45_bit.md R211 to R213): the bits of the mask and of the byte written back, the read-modify-write at HL, then the instructions by their form. -/

namespace Sys2Proof.Machine

/-! ## The byte written back, bit by bit -/

/-- The mask is the power of two of the bit index, which is below 8. -/
theorem bitMask_getLsbD (b : BitVec 3) (k : Nat) : (bitMask b).getLsbD k = decide (b.toNat = k) := by
  rw [bitMask, ← BitVec.twoPow_eq, BitVec.getLsbD_twoPow, decide_eq_true b.isLt, Bool.true_and]

/-- `g` writes `x` to bit `b` of a byte and keeps its other bits. -/
def WritesBit (b : BitVec 3) (x : Bool) (g : Byte → Byte) : Prop :=
  ∀ v k, k < 8 → (g v).getLsbD k = if k = b.toNat then x else v.getLsbD k

theorem clearBit_writesBit (b : BitVec 3) : WritesBit b false (clearBit b) := by
  intro v k hk
  rw [clearBit, BitVec.getLsbD_and, BitVec.getLsbD_not, bitMask_getLsbD]
  by_cases h : k = b.toNat
  · simp [h]
  · simp [h, Ne.symm h, hk]

theorem setBit_writesBit (b : BitVec 3) : WritesBit b true (setBit b) := by
  intro v k _
  rw [setBit, BitVec.getLsbD_or, bitMask_getLsbD]
  by_cases h : k = b.toNat
  · simp [h]
  · simp [h, Ne.symm h]

/-! ## The read-modify-write of the byte at HL -/

/-- It faults on the read where the byte is unmapped and on the write where the byte is only readable, whatever would be
written (R213). -/
theorem modifyFaults_of_exec_modifyAtHl {i : Instr} {s : State} {g : Byte → Byte} {k : Byte → State → Result}
    (hi : exec i s = modifyAtHl s g k) : ModifyFaults i s (s.pair .hl) := by
  refine ⟨readFaults_of_exec_loadByte hi, fun hmapped => ?write⟩
  case write =>
    obtain ⟨v, hv⟩ := (read8_ok_iff s _).mpr hmapped
    exact writeFaults_of_exec_storeByte (hi.trans (loadByte_ok hv _))

/-- In RAM, with nothing after the write, it changes the one byte. -/
theorem effect_of_exec_modifyAtHl {i : Instr} {s : State} {g : Byte → Byte} {v : Byte}
    (hi : exec i s = modifyAtHl s g fun _ t => .next t) (hv : s.read8 (s.pair .hl) = .ok v) (hx : InRam (s.pair .hl)) :
    Effect i s [] [] [s.pair .hl] s.sp s.pc fun t => t.read8 (s.pair .hl) = .ok (g v) :=
  effect_of_exec_storeTo (hi.trans (loadByte_ok hv _)) hx

/-! ## A write of one bit, in a register and at HL -/

theorem effect_of_exec_writesBit_reg {i : Instr} {s : State} {b : BitVec 3} {x : Bool} {g : Byte → Byte} {r : Reg8}
    (hg : WritesBit b x g) (hi : exec i s = .next (s.setReg r (g (s.reg r)))) :
    Effect i s [cellOf r] [] [] s.sp s.pc fun t =>
      ∀ k, k < 8 → (t.reg r).getLsbD k = if k = b.toNat then x else (s.reg r).getLsbD k :=
  (effect_of_exec_setCell (cellOf_ne_f r) hi).mono fun t ht => by
    rw [State.reg, ht]
    exact hg (s.reg r)

theorem effect_of_exec_writesBit_atHl {i : Instr} {s : State} {b : BitVec 3} {x : Bool} {g : Byte → Byte} {v : Byte}
    (hg : WritesBit b x g) (hi : exec i s = modifyAtHl s g fun _ t => .next t) (hv : s.read8 (s.pair .hl) = .ok v)
    (hx : InRam (s.pair .hl)) :
    Effect i s [] [] [s.pair .hl] s.sp s.pc fun t =>
      ∃ w, t.read8 (s.pair .hl) = .ok w ∧ ∀ k, k < 8 → w.getLsbD k = if k = b.toNat then x else v.getLsbD k :=
  (effect_of_exec_modifyAtHl hi hv hx).mono fun _ ht => ⟨g v, ht, hg v⟩

/-! ## The instructions: `exec` of each is its form by definition -/

/-- Settles O52: RES writes 0 to the bit and SET 1, in a register or by the read-modify-write at HL. -/
theorem bitResetAndSet : Obligations.BitResetAndSet := fun _ b =>
  ⟨fun _ => ⟨effect_of_exec_writesBit_reg (clearBit_writesBit b) rfl, effect_of_exec_writesBit_reg (setBit_writesBit b) rfl⟩,
    fun _ hv hx => ⟨effect_of_exec_writesBit_atHl (clearBit_writesBit b) rfl hv hx,
      effect_of_exec_writesBit_atHl (setBit_writesBit b) rfl hv hx⟩,
    modifyFaults_of_exec_modifyAtHl rfl, modifyFaults_of_exec_modifyAtHl rfl⟩

end Sys2Proof.Machine
end

section
/-! Jumps to an absolute target and RET (spec/46_control.md R220, R221, R227): what a write of `pc`, a condition and a return do, then the instructions by their shape. -/

namespace Sys2Proof.Machine

/-! ## A condition (R229) -/

theorem whenCond_true {cc : Cond} {s : State} (h : s.cond cc = true) (taken : State → Result) :
    whenCond cc s taken = taken s := if_pos h

theorem whenCond_false {cc : Cond} {s : State} (h : s.cond cc = false) (taken : State → Result) :
    whenCond cc s taken = .next s := if_neg (Bool.eq_false_iff.mp h)

/-! ## The effect of each shape -/

/-- A write of `pc`. -/
theorem effect_of_exec_setPc {i : Instr} {s : State} {target : Word} {post : State → Prop}
    (hi : exec i s = .next (s.setPc target)) (hpost : post (s.setPc target)) : Effect i s [] [] [] s.sp target post :=
  ⟨_, hi, Frame.setPc s target [] [] [], rfl, rfl, hpost⟩

/-- A conditional write of `pc`, to a target that may depend on the state, leaves the state where it is not made. -/
theorem effect_of_exec_whenCond_setPc {i : Instr} {cc : Cond} {s : State} {target : State → Word}
    (hi : exec i s = whenCond cc s fun t => .next (t.setPc (target t))) :
    Effect i s [] [] [] s.sp (if s.cond cc then target s else s.pc) fun _ => True := by
  cases h : s.cond cc with
  | true => exact effect_of_exec_setPc (hi.trans (whenCond_true h _)) trivial
  | false => exact ⟨s, hi.trans (whenCond_false h _), Frame.refl s [] [] [], rfl, rfl, trivial⟩

/-- A return whose two bytes can be read writes `sp` and `pc`. -/
theorem effect_of_exec_returnTo {i : Instr} {s : State} {lo hi : Byte} (hexec : exec i s = returnTo s)
    (hlo : s.read8 s.sp = .ok lo) (hhi : s.read8 (s.sp + 1#16) = .ok hi) :
    Effect i s [] [] [] (s.sp + 2#16) (wordOf hi lo) fun t => t.pc.toNat = hi.toNat * 256 + lo.toNat :=
  ⟨_, hexec.trans (popWord_ok (read16_of_bytes hlo hhi) _),
    (Frame.setSp s (s.sp + 2#16) [] [] []).trans (Frame.setPc _ (wordOf hi lo) [] [] []), rfl, rfl, wordOf_toNat hi lo⟩

/-! ## The instructions: `exec` of each is a shape of the family by definition -/

/-- Settles O54: JP writes `pc`, JP cc writes it where its condition holds; a condition is a flag or its negation by definition. -/
theorem absoluteJumps : Obligations.AbsoluteJumps := fun _ a16 _ =>
  ⟨effect_of_exec_setPc rfl trivial, effect_of_exec_whenCond_setPc (target := fun _ => a16) rfl, rfl, rfl, rfl, rfl⟩

/-- Settles O57: RET is a return; it begins with the load of the two bytes at `sp` and faults where that load does. -/
theorem returnPopsPc : Obligations.ReturnPopsPc :=
  ⟨fun _ _ _ hlo hhi => effect_of_exec_returnTo rfl hlo hhi, fun _ => wordReadFaults_of_exec_loadWord rfl⟩

end Sys2Proof.Machine
end

section
/-! Encoding and decoding are inverse (spec/30_encoding.md R70 to R86): the fields of a byte, the bytes of each constructor through the two opcode maps, and the bytes that an answer of the decoder was pulled from. -/

namespace Sys2Proof

/-! ## The fields of a byte built from its fields (R71), and the operand of a register's code (R74) -/

@[simp] theorem topField_append (x : BitVec 2) (y z : BitVec 3) : topField (x ++ y ++ z) = x := by
  revert x y z; decide

@[simp] theorem midField_append (x : BitVec 2) (y z : BitVec 3) : midField (x ++ y ++ z) = y := by
  revert x y z; decide

@[simp] theorem lowField_append (x : BitVec 2) (y z : BitVec 3) : lowField (x ++ y ++ z) = z := by
  revert x y z; decide

@[simp] theorem operand8_code (r : Reg8) : operand8 r.code = .reg r := by cases r <;> rfl

/-! ## From an instruction to its bytes and back -/

/-- An operand word follows the first byte low byte first (R73). -/
theorem decode_n16_bytes {op : Byte} {k : Word → Instr} (h : primary op = .n16 k) (v : Word) (rest : List Byte) :
    decode (op :: loByte v :: hiByte v :: rest) = .ok (k v, rest) := by
  rw [decode_n16 h, Machine.wordOf_hiByte_loByte]

/-- The escape byte and the bitcode of a secondary row decode to the row (R80). -/
theorem decode_bitcode {bitcode : Byte} {i : Instr} (h : secondary bitcode = i) (rest : List Byte) :
    decode (0xCB#8 :: bitcode :: rest) = .ok (i, rest) := by
  rw [decode_escape rfl, h]

/-- Each of the eleven unassigned bytes is an instruction of its own, one byte long (R86). -/
theorem decode_unknown {op : Byte} (h : op ∈ unassignedBytes) (rest : List Byte) :
    decode (op :: rest) = .ok (.unknown op, rest) := by
  unfold unassignedBytes at h
  fin_cases h <;> exact decode_op rfl rest

theorem mem_unassignedBytes_of_wellFormed {op : Byte} (h : (Instr.unknown op).wellFormed = true) :
    op ∈ unassignedBytes := by
  by_contra hop
  simp [Instr.wellFormed, Instr.illFormed, hop] at h

/-- Decoding the encoding of a well-formed instruction gives it back and leaves what follows, by its format and its operand. -/
theorem decode_encode {i : Instr} (h : i.wellFormed = true) (rest : List Byte) :
    decode (encode i ++ rest) = .ok (i, rest) := by
  cases i
  case prefixCb => cases h
  case unknown op => exact decode_unknown (mem_unassignedBytes_of_wellFormed h) rest
  case stop | ldHlN8 | addAN8 | adcAN8 | subN8 | sbcAN8 | andN8 | xorN8 | orN8 | cpN8 | ldhA8A | ldhAA8 =>
    exact decode_n8 rfl _ rest
  case jrE8 | addSpE8 | ldHlSpE8 => exact decode_e8 rfl _ rest
  case ldA16Sp | jpA16 | callA16 | ldA16A | ldAA16 => exact decode_n16_bytes rfl _ rest
  case jrCcE8 cc _ => cases cc <;> exact decode_e8 rfl _ rest
  case jpCcA16 cc _ | callCcA16 cc _ => cases cc <;> exact decode_n16_bytes rfl _ rest
  case ldRrN16 rr _ => cases rr <;> exact decode_n16_bytes rfl _ rest
  case ldRN8 r _ => cases r <;> exact decode_n8 rfl _ rest
  case incRr x | decRr x | addHlRr x | popRr x | pushRr x | retCc x => cases x <;> exact decode_op rfl rest
  case incR r | decR r | ldRHl r | ldHlR r | addAR r | adcAR r | subR r | sbcAR r | andR r | xorR r | orR r | cpR r =>
    cases r <;> exact decode_op rfl rest
  case ldRR dst src => cases dst <;> cases src <;> exact decode_op rfl rest
  case rstT t => exact decode_op (by simp [primary, quadrant3]) rest
  case rlcR r | rrcR r | rlR r | rrR r | slaR r | sraR r | swapR r | srlR r =>
    cases r <;> exact decode_bitcode rfl rest
  case rlcHl | rrcHl | rlHl | rrHl | slaHl | sraHl | swapHl | srlHl => exact decode_bitcode rfl rest
  case bitBHl | resBHl | setBHl => exact decode_bitcode (by simp [secondary, operand8]) rest
  case bitBR | resBR | setBR => exact decode_bitcode (by simp [secondary]) rest
  all_goals exact decode_op rfl rest

/-- Settles O1, constructor by constructor through the two opcode maps. -/
theorem decodeOfEncodeIsTheInstruction : Obligations.DecodeOfEncodeIsTheInstruction :=
  fun _ rest h => decode_encode h rest

/-! ## From bytes to an instruction and back -/

/-- Every instruction that an entry of the primary map can become at this first byte is encoded as the byte and its operand. -/
def Opcode.Encodes (op : Byte) (entry : Opcode) : Prop :=
  ∀ (n : Byte) (v : Word),
    match entry with
    | .op i => encode i = [op]
    | .n8 k => encode (k n) = [op, n]
    | .e8 k => encode (k n) = [op, n]
    | .n16 k => encode (k v) = [op, loByte v, hiByte v]
    | .escape => op = 0xCB#8

/-- Entry by entry of the primary map (R82). -/
theorem primary_encodes (op : Byte) : (primary op).Encodes op := by
  obtain ⟨op⟩ := op
  fin_cases op <;> exact fun _ _ => rfl

theorem encode_secondary (bitcode : Byte) : encode (secondary bitcode) = [0xCB#8, bitcode] := by
  revert bitcode; decide

/-- A pull source answers these bytes from its first place on. -/
def Pulls {ε : Type} (pull : Nat → Except ε Byte) (bytes : List Byte) : Prop :=
  ∀ (k : Nat) (b : Byte), bytes[k]? = some b → pull k = .ok b

theorem pulls_nil {ε : Type} (pull : Nat → Except ε Byte) : Pulls pull [] := by simp [Pulls]

theorem pulls_cons {ε : Type} {pull : Nat → Except ε Byte} {b : Byte} {bytes : List Byte} :
    Pulls pull (b :: bytes) ↔ pull 0 = .ok b ∧ Pulls (fun k => pull (k + 1)) bytes := by
  simp [Pulls, ← Nat.and_forall_add_one (p := fun k => ∀ x, (b :: bytes)[k]? = some x → _)]

/-- The bytes of a list are what its pull source answers. -/
theorem pullList_eq_ok_iff {bytes : List Byte} {k : Nat} {b : Byte} : pullList bytes k = .ok b ↔ bytes[k]? = some b := by
  unfold pullList
  cases bytes[k]? <;> simp

/-- The decoder answers an instruction when the bytes it has pulled are those of its encoding, and consumes exactly these. -/
theorem decodeFrom_pulls_encode {ε : Type} {pull : Nat → Except ε Byte} {i : Instr} {n : Nat}
    (h : decodeFrom pull = .ok (i, n)) : n = (encode i).length ∧ Pulls pull (encode i) := by
  unfold decodeFrom at h
  split at h
  case h_1 => cases h
  case h_2 op h0 =>
    have hop := primary_encodes op
    split at h <;> rename_i hp <;> rw [hp] at hop
    case h_1 => -- `OP`
      cases h
      rw [hop 0 0]
      exact ⟨rfl, pulls_cons.mpr ⟨h0, pulls_nil _⟩⟩
    case h_2 | h_3 => -- `OP_N8`, `OP_E8`
      split at h <;> cases h
      rename_i n h1
      rw [hop n 0]
      exact ⟨rfl, pulls_cons.mpr ⟨h0, pulls_cons.mpr ⟨h1, pulls_nil _⟩⟩⟩
    case h_4 => -- `OP_N16`
      split at h
      case h_1 => cases h
      case h_2 lo h1 =>
        split at h <;> cases h
        rename_i hi h2
        rw [hop 0 (wordOf hi lo), Machine.loByte_wordOf, Machine.hiByte_wordOf]
        exact ⟨rfl, pulls_cons.mpr ⟨h0, pulls_cons.mpr ⟨h1, pulls_cons.mpr ⟨h2, pulls_nil _⟩⟩⟩⟩
    case h_5 => -- `CB_OP`
      split at h <;> cases h
      rename_i bitcode h1
      rw [encode_secondary, ← (hop 0 0 : op = 0xCB#8)]
      exact ⟨rfl, pulls_cons.mpr ⟨h0, pulls_cons.mpr ⟨h1, pulls_nil _⟩⟩⟩

/-- A list whose pull source answers some bytes begins with them. -/
theorem beginsWith_of_pulls_pullList {bytes front : List Byte} (h : Pulls (pullList bytes) front) : front <+: bytes := by
  rw [List.prefix_iff_getElem?]
  exact fun k hk => pullList_eq_ok_iff.mp (h k _ (List.getElem?_eq_getElem hk))

/-- The decoder on a list answers what it answers on the list's pull source, and the bytes it has not pulled. -/
theorem decode_eq_ok_iff {bytes rest : List Byte} {i : Instr} :
    decode bytes = .ok (i, rest) ↔ ∃ n, decodeFrom (pullList bytes) = .ok (i, n) ∧ bytes.drop n = rest := by
  unfold decode
  cases decodeFrom (pullList bytes) <;> simp [Prod.ext_iff]

/-- What the decoder answers on a list of bytes is the instruction that the list begins with. -/
theorem encode_append_of_decode {bytes rest : List Byte} {i : Instr} (h : decode bytes = .ok (i, rest)) :
    encode i ++ rest = bytes := by
  obtain ⟨n, hn, rfl⟩ := decode_eq_ok_iff.mp h
  obtain ⟨rfl, hpulls⟩ := decodeFrom_pulls_encode hn
  exact List.prefix_iff_eq_append.mp (beginsWith_of_pulls_pullList hpulls)

theorem wellFormed_of_decode {bytes rest : List Byte} {i : Instr} (h : decode bytes = .ok (i, rest)) :
    i.wellFormed = true := by
  obtain ⟨n, hn, -⟩ := decode_eq_ok_iff.mp h
  exact (decodeFrom_ok hn).1

/-- Settles O2: the bytes the decoder pulled are the encoding of its answer, over any pull source. -/
theorem encodeOfDecodeIsTheBytes : Obligations.EncodeOfDecodeIsTheBytes :=
  fun _ _ _ h => ⟨wellFormed_of_decode h, encode_append_of_decode h⟩

/-- A list that is the encoding of an instruction decodes to it with nothing left over. -/
theorem decode_of_encode_eq {i : Instr} {bytes : List Byte} (h : i.wellFormed = true) (hi : encode i = bytes) :
    decode bytes = .ok (i, []) := by
  rw [← hi, ← List.append_nil (encode i)]
  exact decode_encode h []

/-- Settles O6: each word is the encoding of its instruction. -/
theorem sampleWordsDecode : Obligations.SampleWordsDecode :=
  ⟨decode_of_encode_eq rfl rfl, decode_of_encode_eq rfl rfl, decode_of_encode_eq rfl rfl, decode_of_encode_eq rfl rfl,
    decode_of_encode_eq rfl rfl, decode_of_encode_eq rfl rfl, decode_of_encode_eq rfl rfl, decode_of_encode_eq rfl rfl,
    decode_of_encode_eq rfl rfl, decode_of_encode_eq rfl rfl, decode_of_encode_eq rfl rfl, decode_of_encode_eq rfl rfl⟩

end Sys2Proof
end

section
/-! The tick (spec/70_reset_and_hazards.md R296, spec/20_memory.md R61): what the bytes at `pc` make it do, the unassigned bytes, the operand bytes of the conditional transfers, and the states in which nothing is fetched. -/

namespace Sys2Proof

/-! ## The decoder on two pull sources -/

/-- Two pull sources that agree wherever the first answers stop the decoder at the same place. -/
theorem decodeFrom_error_mono {ε δ : Type} {p : Nat → Except ε Byte} {q : Nat → Except δ Byte} {e : ε} {d : δ}
    (h : decodeFrom p = .error e) (hpq : ∀ k b, p k = .ok b → q k = .ok b)
    (herror : ∀ k, p k = .error e → q k = .error d) : decodeFrom q = .error d := by
  unfold decodeFrom at h ⊢
  split at h
  case h_1 h0 => cases h; rw [herror 0 h0]
  case h_2 op h0 =>
    rw [hpq 0 op h0]
    simp only
    split at h
    case h_1 => cases h -- `OP`
    case h_4 => -- `OP_N16`
      split at h
      case h_1 h1 => cases h; rw [herror 1 h1]
      case h_2 lo h1 =>
        rw [hpq 1 lo h1]
        split at h <;> cases h
        rename_i h2
        simp only [herror 2 h2]
    all_goals -- the formats with one more byte
      split at h <;> cases h
      rename_i h1
      rw [herror 1 h1]

/-- A list that is too short for an instruction ends before the byte at its own length. -/
theorem pullList_eq_truncated {bytes : List Byte} {k place : Nat} (h : pullList bytes k = .error (.truncated place)) :
    k = place := by
  unfold pullList at h
  split at h <;> cases h
  rfl

end Sys2Proof

namespace Sys2Proof.Machine

/-! ## A tick of a Running machine, by what the decoder answers -/

theorem step_of_decode {s : State} {i : Instr} {n : Nat} (hrun : s.run = .running) (h : decodeFrom s.pull = .ok (i, n)) :
    step s = finishTick s.imePending i (exec i (s.beginTick n)) := by
  simp only [step, hrun, h]

theorem step_of_decode_error {s : State} {f : Fault} (hrun : s.run = .running) (h : decodeFrom s.pull = .error f) :
    step s = .fault f := by
  simp only [step, hrun, h, raise]

/-- The bytes at `pc` are what a tick pulls. -/
theorem pull_of_bytesAt {s : State} {bytes : List Byte} (h : BytesAt s s.pc bytes) {k : Nat} {b : Byte}
    (hb : pullList bytes k = .ok b) : s.pull k = .ok b := by
  obtain ⟨hk, rfl⟩ := List.getElem?_eq_some_iff.mp (pullList_eq_ok_iff.mp hb)
  exact h k hk

theorem bytesAt_singleton {s : State} {b : Byte} (h : s.read8 s.pc = .ok b) : BytesAt s s.pc [b] := by
  intro k hk
  obtain rfl : k = 0 := by simpa using hk
  simpa using h

theorem bytesAt_pair {s : State} {a b : Byte} (h0 : s.read8 s.pc = .ok a) (h1 : s.read8 (s.pc + 1#16) = .ok b) :
    BytesAt s s.pc [a, b] := by
  intro k hk
  obtain rfl | rfl : k = 0 ∨ k = 1 := by simp at hk; omega
  · simpa using h0
  · exact h1

/-- The bytes at `pc` decode as they do in a list that holds an instruction and no more. -/
theorem decodeFrom_pull_of_bytesAt {s : State} {bytes : List Byte} {i : Instr} (h : BytesAt s s.pc bytes)
    (hdecode : decode bytes = .ok (i, [])) : decodeFrom s.pull = .ok (i, bytes.length) := by
  obtain ⟨n, hn, -⟩ := decode_eq_ok_iff.mp hdecode
  have hlength : n = bytes.length := by
    rw [(decodeFrom_pulls_encode hn).1, ← encode_append_of_decode hdecode, List.append_nil]
  rw [← hlength]
  exact decodeFrom_mono hn fun _ _ => pull_of_bytesAt h

theorem cancelsEi_eq_decide (i : Instr) : cancelsEi i = decide (i = .di) := by cases i <;> rfl

/-- The transfer of an EI is made unless the instruction is DI (R243). -/
theorem commitEi_eq (pending : Bool) (i : Instr) (t : State) :
    commitEi pending i t = if pending = true ∧ i ≠ .di then { t with ime := true } else t := by
  simp [commitEi, cancelsEi_eq_decide]

/-- Settles O7: the tick's end is the transfer on an answer, and a fault skips it. -/
theorem stepRunsTheDecodedInstruction : Obligations.StepRunsTheDecodedInstruction := by
  intro s bytes i hrun hbytes hdecode
  have hstep := step_of_decode hrun (decodeFrom_pull_of_bytesAt hbytes hdecode)
  refine ⟨fun t ht => ?next, fun f hf => ?fault⟩
  case next => rw [hstep, ← commitEi_eq]; exact congrArg _ ht
  case fault => rw [hstep]; exact congrArg _ hf

/-- Settles O8: the decoder stops at the first pull that the list does not answer, which is the unmapped address. -/
theorem fetchFromUnmappedAddressFaults : Obligations.FetchFromUnmappedAddressFaults := by
  intro s bytes hrun hbytes hdecode hunmapped
  have hlist : decodeFrom (pullList bytes) = .error (.truncated bytes.length) := by
    unfold decode at hdecode
    split at hdecode <;> cases hdecode
    assumption
  refine step_of_decode_error hrun (decodeFrom_error_mono hlist (fun _ _ => pull_of_bytesAt hbytes) fun k hk => ?pull)
  case pull =>
    rw [pullList_eq_truncated hk]
    exact read8_unmapped s hunmapped

/-! ## The unassigned bytes (spec/30_encoding.md R86) -/

/-- Settles O5: the eleven bytes are those a well-formed `unknown` carries, and the tick that fetches one executes it. -/
theorem unassignedBytesAreFatal : Obligations.UnassignedBytesAreFatal := by
  refine ⟨fun op bytes hop => decode_unknown hop bytes, fun op bytes x rest h => ?assigned, exec_unknown,
    fun s op hrun hop hmem => ?tick⟩
  case assigned =>
    obtain ⟨rfl, -⟩ : x = op ∧ rest = bytes := by simpa [encode] using encode_append_of_decode h
    exact mem_unassignedBytes_of_wellFormed (wellFormed_of_decode h)
  case tick =>
    have hfault := (stepRunsTheDecodedInstruction s [op] (.unknown op) hrun (bytesAt_singleton hop)
      (decode_unknown hmem [])).2 _ (exec_unknown op _)
    simpa using hfault

@[simp] theorem beginTick_cell (s : State) (n : Nat) (r : Cell) : (s.beginTick n).cell r = s.cell r := by cases r <;> rfl

@[simp] theorem commitEi_cell (p : Bool) (i : Instr) (t : State) (r : Cell) : (commitEi p i t).cell r = t.cell r := by
  unfold commitEi
  split
  · cases r <;> rfl
  · rfl

/-! ## The operand bytes of the conditional transfers (spec/30_encoding.md R87) -/

/-- A fetch ends at the second byte of an instruction where that byte is unmapped. -/
theorem step_second_byte_unmapped {s : State} {op : Byte} (hrun : s.run = .running) (hop : s.read8 s.pc = .ok op)
    (hdecode : decode [op] = .error (.truncated 1)) (hunmapped : ¬ Mapped (s.pc + 1#16)) :
    step s = .fault (.addressFault (s.pc + 1#16) .read) :=
  fetchFromUnmappedAddressFaults s [op] hrun (bytesAt_singleton hop) hdecode hunmapped

theorem step_third_byte_unmapped {s : State} {op lo : Byte} (hrun : s.run = .running) (hop : s.read8 s.pc = .ok op)
    (hlo : s.read8 (s.pc + 1#16) = .ok lo) (hdecode : decode [op, lo] = .error (.truncated 2))
    (hunmapped : ¬ Mapped (s.pc + 2#16)) : step s = .fault (.addressFault (s.pc + 2#16) .read) :=
  fetchFromUnmappedAddressFaults s [op, lo] hrun (bytesAt_pair hop hlo) hdecode hunmapped

/-- A conditional transfer that is not taken leaves the state alone (spec/46_control.md R229). -/
theorem exec_not_taken {i : Instr} {cc : Cond} {s : State} (h : s.cond cc = false)
    (hi : (∃ e8, i = .jrCcE8 cc e8) ∨ (∃ a16, i = .jpCcA16 cc a16) ∨ ∃ a16, i = .callCcA16 cc a16) :
    exec i s = .next s := by
  obtain ⟨_, rfl⟩ | ⟨_, rfl⟩ | ⟨_, rfl⟩ := hi <;>
    simp only [exec, execJrCcE8, execJpCcA16, execCallCcA16, whenCond_false h]

/-- Settles O9: the decoder pulls the operand bytes before the condition is looked at. -/
theorem operandBytesAreConsumedWhenNotTaken : Obligations.OperandBytesAreConsumedWhenNotTaken := by
  refine ⟨fun s bytes i cc hrun hbytes hdecode hcond hi => ?notTaken, fun s op hrun hop hmem => ?second,
    fun s op lo hrun hop hmem hlo => ?third⟩
  case notTaken =>
    have hexec : exec i (s.beginTick bytes.length) = .next (s.beginTick bytes.length) := exec_not_taken hcond hi
    have hstep := step_of_decode hrun (decodeFrom_pull_of_bytesAt hbytes hdecode)
    rw [hexec] at hstep
    exact ⟨_, hstep, by simp, by simp, fun r => by simp, by simp, by simp, fun x => by simp⟩
  case second =>
    have hdecode : decode [op] = .error (.truncated 1) := by fin_cases hmem <;> rfl
    exact step_second_byte_unmapped hrun hop hdecode
  case third =>
    have hdecode : decode [op, lo] = .error (.truncated 2) := by fin_cases hmem <;> rfl
    exact step_third_byte_unmapped hrun hop hlo hdecode

/-! ## The states in which nothing is fetched (spec/60_exceptions.md R264, R274) -/

theorem step_halted_or_stopped {s : State} (h : s.run = .halted ∨ s.run = .stopped) : step s = .next s := by
  obtain h | h := h <;> simp only [step, h]

theorem step_faulted {s : State} {f : Fault} (h : s.run = .faulted f) : step s = .fault f := by
  simp only [step, h, raise]

theorem tickTo_of_step_next {s t u : State} (h : step s = .next u) (ht : TickTo s t) : t = u := by
  simpa only [TickTo, h] using ht

theorem tickTo_of_step_fault {s t : State} {f : Fault} (h : step s = .fault f) (ht : TickTo s t) : t.run = .faulted f := by
  simp only [TickTo, h] at ht
  exact ht.1

/-- Settles O11: a tick that faulted leaves `run` Faulted with its fault, and such a machine reports that fault again. -/
theorem onlyARunningMachineExecutes : Obligations.OnlyARunningMachineExecutes := by
  refine ⟨fun s h => ⟨step_halted_or_stopped h, fun t => tickTo_of_step_next (step_halted_or_stopped h)⟩,
    fun s f => step_faulted, fun s t u f hs ht => ?reports⟩
  case reports =>
    have hrun := tickTo_of_step_fault hs ht
    exact ⟨hrun, step_faulted hrun, fun hu => step_faulted (tickTo_of_step_fault (step_faulted hrun) hu)⟩

end Sys2Proof.Machine
end

section
/-! Memory through the Router (spec/20_memory.md R41 to R51): a read by the ranges of the region table, one-byte and two-byte writes, and the accesses of page 0xFF that no region answers (spec/40_load8.md R112 to R115). -/

namespace Sys2Proof.Machine

/-! ## A read by the ranges of the region table (R41) -/

theorem read8_of_boot {s : State} {x : Word} (hx : x.toNat ≤ 0x00FF) (hlive : s.config.bootOverlayLive = true) :
    s.read8 x = .ok (s.config.bootImage.read x.toNat) := by
  simp [State.read8, State.regionOf, region, hx, hlive]

/-- The cartridge answers below 0x4000 wherever the overlay does not. -/
theorem read8_of_rom {s : State} {x : Word} (hx : x.toNat ≤ 0x3FFF)
    (hlive : 0x0100 ≤ x.toNat ∨ s.config.bootOverlayLive = false) :
    s.read8 x = .ok (s.config.cartRom.read x.toNat) := by
  have hboot : ¬ (x.toNat ≤ 0x00FF ∧ s.config.bootOverlayLive = true) := by
    rintro ⟨hlow, h⟩
    rcases hlive with hhigh | hlive
    · omega
    · simp [hlive] at h
  simp [State.read8, State.regionOf, region, hboot, hx]

/-- Settles O21: below 0x4000 the overlay or the cartridge answers, in RAM the memory, anywhere else nothing. -/
theorem readByteByRegion : Obligations.ReadByteByRegion := by
  intro s x
  refine ⟨read8_of_boot, fun hx hlive => read8_of_rom (by omega) (.inr hlive), fun hx hx' => read8_of_rom hx' (.inl hx),
    fun _ _ => read8_unmapped s ?_, fun _ _ => read8_of_ram s ?_, fun _ _ => read8_unmapped s ?_,
    fun _ _ => read8_of_ram s ?_, fun _ => read8_unmapped s ?_⟩
  all_goals omega

/-! ## Writes of one byte and of two -/

/-- Settles O22: the byte is stored exactly at the addresses of RAM. -/
theorem writeByteByRegion : Obligations.WriteByteByRegion := by
  refine fun s x v => ⟨fun hx => ?ram, fun hx => by rw [write8_eq, if_neg hx]⟩
  case ram =>
    have hread := read8_setMem_same s v hx
    refine ⟨_, by rw [write8_eq, if_pos hx], hread, ?fetch, rfl, rfl, rfl, Frame.store s x v [] [] (List.mem_singleton_self x)⟩
    case fetch => simpa [State.pull] using hread

/-- A store of two bytes to listed addresses is in the frame. -/
theorem Frame.storeWord (s : State) (x v : Word) (cells : List Cell) (flags : List Flag) :
    Frame s { s with mem := (s.mem.write x.toNat (loByte v)).write (x + 1#16).toNat (hiByte v) } cells flags [x, x + 1#16] :=
  (Frame.store s x (loByte v) cells flags (by simp)).trans (Frame.store _ (x + 1#16) (hiByte v) cells flags (by simp))

theorem read16_first_unmapped {s : State} {x : Word} (h : ¬ Mapped x) : s.read16 x = .error (.addressFault x .read) := by
  simp only [State.read16, read8_unmapped s h]

theorem read16_second_unmapped {s : State} {x : Word} (h1 : Mapped x) (h2 : ¬ Mapped (x + 1#16)) :
    s.read16 x = .error (.addressFault (x + 1#16) .read) := by
  obtain ⟨lo, hlo⟩ := (read8_ok_iff s x).mpr h1
  simp only [State.read16, hlo, read8_unmapped s h2]

/-- Settles O23: both accesses are two one-byte accesses, the lower address first. -/
theorem wordAccessIsLittleEndian : Obligations.WordAccessIsLittleEndian := by
  refine fun s x v => ⟨fun h1 h2 => ?stored, fun h => ?first, fun h1 h2 => ?second, fun lo hi hlo hhi => ?read,
    read16_first_unmapped, read16_second_unmapped⟩
  case stored =>
    obtain ⟨hlo, hhi, -⟩ := read8_setMem16 s v h1 h2
    refine ⟨_, write16_of_ram s v h1 h2, ?_, ⟨_, hlo, loByte_toNat v⟩, ⟨_, hhi, hiByte_toNat v⟩, rfl, rfl, rfl,
      Frame.storeWord s x v [] []⟩
    rw [read16_of_bytes hlo hhi, wordOf_hiByte_loByte]
  case first => simp only [State.write16, write8_eq, if_neg h]
  case second => simp only [State.write16, write8_eq, if_pos h1, if_neg h2]
  case read => exact ⟨_, read16_of_bytes hlo hhi, wordOf_toNat hi lo⟩

/-! ## Page 0xFF (spec/40_load8.md R112 to R115) -/

theorem highPage_toNat (v : Byte) : (highPage v).toNat = 0xFF00 + v.toNat := wordOf_toNat _ _

theorem highPage_unmapped (v : Byte) : ¬ Mapped (highPage v) := by
  simp only [Mapped, InRam, highPage_toNat]
  omega

theorem loadReg_highPage (r : Cell) (v : Byte) (s : State) :
    loadReg r (highPage v) s = .fault (.addressFault (highPage v) .read) :=
  loadByte_unmapped (highPage_unmapped v) _

theorem storeTo_highPage (v w : Byte) (s : State) :
    storeTo (highPage v) w s = .fault (.addressFault (highPage v) .write) :=
  storeByte_outside w (fun h => highPage_unmapped v (.inr h)) _

/-- Settles O33: no region answers page 0xFF. -/
theorem highPageAccessesAlwaysFault : Obligations.HighPageAccessesAlwaysFault := fun s =>
  ⟨fun a8 => ⟨highPage a8, highPage_toNat a8, loadReg_highPage .a a8 s, storeTo_highPage a8 s.a s⟩,
    highPage s.c, highPage_toNat s.c, loadReg_highPage .a s.c s, storeTo_highPage s.c s.a s⟩

end Sys2Proof.Machine
end

section
/-! One flag of F (spec/10_state.md R14, R15), the state after reset (R30, R33), the system instructions (spec/47_system.md R240 to R244), and the invariant of the launch states (spec/70_reset_and_hazards.md R291). -/

namespace Sys2Proof.Machine

/-! ## One flag -/

/-- Settles O25: the mask of each flag is its byte of R15, and one flag's bit is no other's. -/
theorem flagWriteChangesOneBit : Obligations.FlagWriteChangesOneBit := by
  refine fun s v => ⟨rfl, rfl, rfl, rfl, rfl, rfl, rfl, rfl, fun g => ⟨?same, fun q hq => ?other, setFlag_low s g v,
    fun r hr => setFlag_cell s g v hr⟩⟩
  case same => rw [setFlag_flag, if_pos rfl]
  case other => rw [setFlag_flag, if_neg hq]

/-! ## Reset and the system instructions -/

/-- Settles O27: the two reset states are launch states, and a reset of the CPU keeps the launch parameters. -/
theorem resetControlState : Obligations.ResetControlState := by
  intro old t ht
  obtain ⟨config, mem, rfl⟩ := exists_eq_launch_of_mem_resets ht
  exact ⟨rfl, rfl, rfl, rfl, rfl, fun _ => rfl⟩

/-- Settles O60: each of the five writes the latches or the run state that its rule names. -/
theorem systemInstructions : Obligations.SystemInstructions := fun _ _ =>
  ⟨rfl, ⟨_, rfl, rfl, rfl⟩, ⟨_, rfl, rfl, rfl⟩, ⟨_, rfl, rfl, rfl, rfl⟩, ⟨_, rfl, rfl, rfl⟩⟩

end Sys2Proof.Machine

namespace Sys2Proof

/-! ## Stores built from images -/

/-- A store built from an image lists addresses of the image alone. -/
theorem Memory.mem_ofBytes_range {a : Nat} {bytes : List Byte} {e : Nat × Byte} (h : e ∈ Memory.ofBytes a bytes) :
    a ≤ e.1 ∧ e.1 < a + bytes.length := by
  induction bytes generalizing a with
  | nil => cases h
  | cons v rest ih =>
    have hrest : e ∈ Memory.ofBytes (a + 1) rest → a ≤ e.1 ∧ e.1 < a + (rest.length + 1) := fun h => by
      have := ih h
      omega
    rw [List.length_cons]
    unfold Memory.ofBytes at h
    split at h
    · exact hrest h
    · rcases List.mem_cons.mp h with rfl | h
      · simp
      · exact hrest h

theorem Memory.within_iff {p : Nat → Bool} {m : Memory} : m.within p = true ↔ ∀ e ∈ m, p e.1 = true := List.all_eq_true

/-- Two stores in canonical form, the second at higher addresses, make one. -/
theorem Memory.wf_append {m m' : Memory} (h : m.wf) (h' : m'.wf) (hlt : ∀ e ∈ m, ∀ e' ∈ m', e.1 < e'.1) :
    Memory.wf (m ++ m') := by
  induction m with
  | nil => exact h'
  | cons e rest ih =>
    obtain ⟨k, x⟩ := e
    simp only [Memory.wf, List.cons_append, Bool.and_eq_true, List.all_eq_true, decide_eq_true_eq, List.mem_append] at h ⊢
    obtain ⟨⟨hx, hk⟩, hrest⟩ := h
    refine ⟨⟨hx, fun e he => he.elim (hk e) (hlt (k, x) (by simp) e)⟩, ih hrest fun e he => hlt e (by simp [he])⟩

end Sys2Proof

namespace Sys2Proof.Machine

/-- The two RAM images together are a canonical store of RAM. -/
theorem ramImages_inv {vramInit wramInit : List Byte} (hv : vramInit.length = 8192) (hw : wramInit.length = 8192) :
    Memory.wf (Memory.ofBytes 0x8000 vramInit ++ Memory.ofBytes 0xC000 wramInit) = true ∧
      Memory.within ramKey (Memory.ofBytes 0x8000 vramInit ++ Memory.ofBytes 0xC000 wramInit) = true := by
  refine ⟨Memory.wf_append (Memory.wf_ofBytes _ _) (Memory.wf_ofBytes _ _) fun e he e' he' => ?lower,
    Memory.within_iff.mpr fun e he => ?inside⟩
  case lower =>
    have := Memory.mem_ofBytes_range he
    have := Memory.mem_ofBytes_range he'
    omega
  case inside =>
    simp only [ramKey, Bool.or_eq_true, Bool.and_eq_true, decide_eq_true_eq]
    rcases List.mem_append.mp he with he | he
    all_goals
      have := Memory.mem_ofBytes_range he
      omega

theorem image_within {bytes : List Byte} {last : Nat} (h : bytes.length = last + 1) :
    (Memory.ofBytes 0 bytes).within (fun k => decide (k ≤ last)) = true :=
  Memory.within_iff.mpr fun e he => by
    have := Memory.mem_ofBytes_range he
    simp only [decide_eq_true_eq]
    omega

/-- Settles O16: an image of the right size lists only addresses of its region. -/
theorem resetMeetsTheInvariant : Obligations.ResetMeetsTheInvariant := by
  refine ⟨rfl, fun live boot rom vramInit wramInit s h => ?images⟩
  unfold State.ofImages at h
  split at h <;> cases h
  rename_i hsizes
  obtain ⟨hboot, hrom, hvram, hwram⟩ := hsizes
  obtain ⟨hwf, hwithin⟩ := ramImages_inv hvram hwram
  simp only [State.inv, Bool.and_eq_true]
  exact ⟨⟨⟨⟨⟨hwf, hwithin⟩, Memory.wf_ofBytes _ _⟩, image_within hrom⟩, Memory.wf_ofBytes _ _⟩, image_within hboot⟩

end Sys2Proof.Machine
end

section
/-! 8-bit logic, INC and DEC, DAA, CPL, SCF, CCF (spec/42_alu8.md R154 to R165): what each shape writes, DAA in integers and on packed decimals, then the instructions. -/

namespace Sys2Proof.Machine

/-! ## Logic on A (R154 to R156) -/

/-- A logic operation writes a byte that is the operation bit by bit, with its zero test and its forced flags. -/
theorem logicEffect_of_exec_setA_setFlags {i : Instr} {s : State} {v r : Byte} {op : Bool → Bool → Bool} {h : Bool}
    (hr : ∀ k, r.getLsbD k = op (s.a.getLsbD k) (v.getLsbD k))
    (hi : exec i s = .next ((s.setCell .a r).setFlags (isZero r) false h false)) : LogicEffect i s v op h := by
  refine (effect_of_exec_setA_setFlags hi).mono fun t ⟨ha, hflags⟩ => ?result
  case result =>
    rw [isZero_eq_decide_toNat, ← ha] at hflags
    exact ⟨fun k _ => by rw [ha, hr], hflags⟩

theorem logicEffect_of_exec_aluAnd {i : Instr} {s : State} {v : Byte} (hi : exec i s = .next (aluAnd v s)) :
    LogicEffect i s v and true := logicEffect_of_exec_setA_setFlags (fun _ => BitVec.getLsbD_and) hi

theorem logicEffect_of_exec_aluXor {i : Instr} {s : State} {v : Byte} (hi : exec i s = .next (aluXor v s)) :
    LogicEffect i s v xor false := logicEffect_of_exec_setA_setFlags (fun _ => BitVec.getLsbD_xor) hi

theorem logicEffect_of_exec_aluOr {i : Instr} {s : State} {v : Byte} (hi : exec i s = .next (aluOr v s)) :
    LogicEffect i s v or false := logicEffect_of_exec_setA_setFlags (fun _ => BitVec.getLsbD_or) hi

/-- Settles O41: every form is AND, XOR or OR on its operand; the `(HL)` forms read it first and fault where that fails. -/
theorem logicOnA : Obligations.LogicOnA := fun _ =>
  ⟨fun _ => logicEffect_of_exec_aluAnd rfl, fun _ => logicEffect_of_exec_aluAnd rfl,
    fun _ hv => logicEffect_of_exec_aluAnd (exec_aluAtHl_ok rfl hv),
    fun _ => logicEffect_of_exec_aluXor rfl, fun _ => logicEffect_of_exec_aluXor rfl,
    fun _ hv => logicEffect_of_exec_aluXor (exec_aluAtHl_ok rfl hv),
    fun _ => logicEffect_of_exec_aluOr rfl, fun _ => logicEffect_of_exec_aluOr rfl,
    fun _ hv => logicEffect_of_exec_aluOr (exec_aluAtHl_ok rfl hv),
    readFaults_of_exec_loadByte rfl, readFaults_of_exec_loadByte rfl, readFaults_of_exec_loadByte rfl⟩

/-! ## A write of an operand, then of Z, N and H (R158 to R161) -/

theorem setZNH_are (s : State) (z n h : Bool) : FlagsAre (s.setZNH z n h) z n h (s.flag .c) := by
  simp [FlagsAre, setZNH_flag]

theorem effect_of_exec_setReg_setZNH {i : Instr} {s : State} {r : Reg8} {w : Byte} {z n h : Bool}
    (hi : exec i s = .next ((s.setReg r w).setZNH z n h)) :
    Effect i s [cellOf r] [.z, .n, .h] [] s.sp s.pc fun t => t.reg r = w ∧ FlagsAre t z n h (s.flag .c) := by
  refine ⟨_, hi, (Frame.setCell s (cellOf_ne_f r) w (List.mem_singleton_self _) _ []).trans (Frame.setZNH _ z n h _ []),
    setReg_sp s r w, setReg_pc s r w, ?reg, ?flags⟩
  case reg => rw [State.reg, setZNH_cell _ _ _ _ (cellOf_ne_f r)]; exact setReg_reg_same s r w
  case flags => simpa using setZNH_are (s.setReg r w) z n h

/-- The read-modify-write at HL, with flags that depend on the byte read. -/
theorem effect_of_exec_modifyAtHl_setZNH {i : Instr} {s : State} {g : Byte → Byte} {z n h : Byte → Bool} {v : Byte}
    (hi : exec i s = modifyAtHl s g fun v t => .next (t.setZNH (z v) (n v) (h v))) (hv : s.read8 (s.pair .hl) = .ok v)
    (hx : InRam (s.pair .hl)) :
    Effect i s [] [.z, .n, .h] [s.pair .hl] s.sp s.pc fun t =>
      t.read8 (s.pair .hl) = .ok (g v) ∧ FlagsAre t (z v) (n v) (h v) (s.flag .c) :=
  ⟨_, hi.trans (modifyAtHl_ram hv hx _ _),
    (Frame.store s _ (g v) [] _ (List.mem_singleton_self _)).trans (Frame.setZNH _ (z v) (n v) (h v) [] _), rfl, rfl,
    read8_setMem_same s (g v) hx, setZNH_are _ (z v) (n v) (h v)⟩

/-! ## Increment and decrement in integers -/

theorem incFlags_of_flagsAre {s t : State} {v : Byte}
    (h : FlagsAre t (isZero (v + 1#8)) false (incHalf v) (s.flag .c)) : IncFlags s v t := by
  rwa [isZero_eq_decide_toNat, BitVec.toNat_add] at h

theorem decFlags_of_flagsAre {s t : State} {v : Byte}
    (h : FlagsAre t (isZero (v - 1#8)) true (decHalf v) (s.flag .c)) : DecFlags s v t := by
  rwa [isZero_eq_decide_toNat, BitVec.toNat_sub, Nat.add_comm] at h

theorem sub_one_toNat (v : Byte) : (v - 1#8).toNat = (v.toNat + 255) % 256 := by
  rw [BitVec.toNat_sub, Nat.add_comm]
  rfl

/-- Settles O42: the operand is written, then Z, N and H; on `(HL)` by the read-modify-write. -/
theorem incrementsAndDecrements : Obligations.IncrementsAndDecrements := by
  refine fun s => ⟨fun r => ?incR, fun r => ?decR, fun v hv hx => ⟨?incHl, ?decHl⟩⟩
  case incR =>
    refine (effect_of_exec_setReg_setZNH (r := r) rfl).mono fun t ⟨hw, hflags⟩ => ⟨?_, incFlags_of_flagsAre hflags⟩
    rw [hw, BitVec.toNat_add]
    rfl
  case decR =>
    refine (effect_of_exec_setReg_setZNH (r := r) rfl).mono fun t ⟨hw, hflags⟩ => ⟨?_, decFlags_of_flagsAre hflags⟩
    rw [hw, sub_one_toNat]
  case incHl =>
    exact (effect_of_exec_modifyAtHl_setZNH rfl hv hx).mono fun t ⟨hw, hflags⟩ =>
      ⟨⟨_, hw, BitVec.toNat_add v 1#8⟩, incFlags_of_flagsAre hflags⟩
  case decHl =>
    exact (effect_of_exec_modifyAtHl_setZNH rfl hv hx).mono fun t ⟨hw, hflags⟩ =>
      ⟨⟨_, hw, sub_one_toNat v⟩, decFlags_of_flagsAre hflags⟩

/-! ## Decimal adjust in integers (R162) -/

theorem daaLow_eq_true_iff (a : Byte) (n h : Bool) :
    daaLow a n h = true ↔ h = true ∨ (n = false ∧ a.toNat % 16 > 0x09) := by simp [daaLow]

theorem daaHigh_eq_true_iff (a : Byte) (n c : Bool) :
    daaHigh a n c = true ↔ c = true ∨ (n = false ∧ a.toNat > 0x99) := by simp [daaHigh]

/-- The two corrections together stay below 256. -/
theorem daaCorrection_toNat (a : Byte) (n h c : Bool) :
    (daaCorrection a n h c).toNat =
      (if daaLow a n h = true then 0x06 else 0) + if daaHigh a n c = true then 0x60 else 0 := by
  unfold daaCorrection
  cases daaLow a n h <;> cases daaHigh a n c <;> rfl

theorem daaResult_toNat_of_add {a : Byte} {n h c : Bool} (hn : n = false) :
    (daaResult a n h c).toNat =
      (a.toNat + (if daaLow a n h = true then 0x06 else 0) + if daaHigh a n c = true then 0x60 else 0) % 256 := by
  subst hn
  rw [daaResult, if_neg Bool.false_ne_true, BitVec.toNat_add, daaCorrection_toNat, Nat.add_assoc]

theorem daaResult_toNat_of_sub {a : Byte} {n h c : Bool} (hn : n = true) :
    (daaResult a n h c).toNat =
      (a.toNat + 256 - (if daaLow a n h = true then 0x06 else 0) - if daaHigh a n c = true then 0x60 else 0) % 256 := by
  subst hn
  rw [daaResult, if_pos rfl, BitVec.toNat_sub, daaCorrection_toNat]
  split <;> split <;> omega

/-- A write of A, then of Z, H and C. -/
theorem effect_of_exec_setA_setZHC {i : Instr} {s : State} {r : Byte} {z h c : Bool}
    (hi : exec i s = .next ((((s.setCell .a r).setFlag .z z).setFlag .h h).setFlag .c c)) :
    Effect i s [.a] [.z, .h, .c] [] s.sp s.pc fun t => t.a = r ∧ FlagsAre t z (s.flag .n) h c := by
  refine ⟨_, hi, ?frame, rfl, rfl, rfl, ?flags⟩
  case frame =>
    exact (((Frame.setCell s (by decide) r (by decide) _ []).trans (Frame.setFlag _ .z z _ (by decide) [])).trans
      (Frame.setFlag _ .h h _ (by decide) [])).trans (Frame.setFlag _ .c c _ (by decide) [])
  case flags => simp [FlagsAre, setFlag_flag, setCell_flag]

/-- Settles O43: A is the result, and the three flags written are its zero test, 0 and the test of the high correction. -/
theorem decimalAdjust : Obligations.DecimalAdjust := by
  intro s
  simp only [← daaLow_eq_true_iff, ← daaHigh_eq_true_iff]
  refine (effect_of_exec_setA_setZHC rfl).mono fun t ⟨ha, hflags⟩ =>
    ⟨fun hn => ha ▸ daaResult_toNat_of_add hn, fun hn => ha ▸ daaResult_toNat_of_sub hn, ?flags⟩
  case flags => rwa [isZero_eq_decide_toNat, ← ha] at hflags

/-! ## Decimal adjust on packed decimals -/

theorem bcd_toNat {tens ones : Nat} (htens : tens < 10) (hones : ones < 10) :
    (bcd (10 * tens + ones)).toNat = 16 * tens + ones := by
  simp only [bcd, BitVec.toNat_ofNat]
  omega

theorem exists_digits {n : Nat} (h : n < 100) : ∃ tens ones, tens < 10 ∧ ones < 10 ∧ n = 10 * tens + ones :=
  ⟨n / 10, n % 10, by omega, by omega, by omega⟩

theorem bcd_mod_toNat (n : Nat) : (bcd (n % 100)).toNat = 16 * (n % 100 / 10) + n % 10 := by
  simp only [bcd, BitVec.toNat_ofNat]
  omega

/-- From the sums of the tens and of the ones of two decimals, the corrected binary sum is the packed decimal sum modulo 100. -/
theorem corrected_sum {tens ones a : Nat} (htens : tens < 19) (hones : ones < 19) (ha : a = (16 * tens + ones) % 256) :
    (a + (if ones > 15 ∨ a % 16 > 9 then 6 else 0) + if 16 * tens + ones > 255 ∨ a > 0x99 then 0x60 else 0) % 256 =
      16 * ((10 * tens + ones) % 100 / 10) + (10 * tens + ones) % 10 := by
  have htens' : (10 * tens + ones) % 100 / 10 = (tens + ones / 10) % 10 := by omega
  have hones' : (10 * tens + ones) % 10 = ones % 10 := by omega
  simp only [htens', hones', ha]
  clear htens' hones' ha
  obtain hcarry | hcarry : ones / 10 = 0 ∨ ones / 10 = 1 := by omega
  all_goals
    rw [hcarry]
    split <;> split <;> omega

/-- From the digits of two decimals, the corrected binary difference is the packed decimal difference modulo 100. -/
theorem corrected_difference {xt xo yt yo a : Nat} (hxt : xt < 10) (hxo : xo < 10) (hyt : yt < 10) (hyo : yo < 10)
    (ha : a = (16 * xt + xo + 512 - (16 * yt + yo)) % 256) :
    (a + 256 - (if xo < yo then 6 else 0) - if 16 * xt + xo < 16 * yt + yo then 0x60 else 0) % 256 =
      16 * ((10 * xt + xo + 100 - (10 * yt + yo)) % 100 / 10) + (10 * xt + xo + 100 - (10 * yt + yo)) % 10 := by
  have htens : (10 * xt + xo + 100 - (10 * yt + yo)) % 100 / 10 = (xt + 9 - yt + (xo + 10 - yo) / 10) % 10 := by omega
  have hones : (10 * xt + xo + 100 - (10 * yt + yo)) % 10 = (xo + 10 - yo) % 10 := by omega
  simp only [htens, hones, ha]
  clear htens hones ha
  obtain hborrow | hborrow : (xo + 10 - yo) / 10 = 0 ∨ (xo + 10 - yo) / 10 = 1 := by omega
  all_goals
    rw [hborrow]
    split <;> split <;> omega

/-- ADD of packed decimals leaves in H and C the carries of the two digits, from which DAA makes the decimal sum. -/
theorem daa_after_add {s : State} {xt xo yt yo : Nat} (hxt : xt < 10) (hxo : xo < 10) (hyt : yt < 10) (hyo : yo < 10)
    (ha : s.a = bcd (10 * xt + xo)) :
    ∃ t u, exec (.addAN8 (bcd (10 * yt + yo))) s = .next t ∧ exec .daa t = .next u ∧
      u.a = bcd ((10 * xt + xo + (10 * yt + yo)) % 100) ∧ u.flag .c = decide (10 * xt + xo + (10 * yt + yo) ≥ 100) := by
  obtain ⟨t, ht, -, -, -, hat, -, hn, hh, hc⟩ : AddEffect (.addAN8 (bcd (10 * yt + yo))) s _ false :=
    addEffect_of_exec_aluAdd rfl
  obtain ⟨u, hu, -, -, -, hau, -, -, -, -, hcu⟩ := decimalAdjust t
  have hxlow : (16 * xt + xo) % 16 = xo := by omega
  have hylow : (16 * yt + yo) % 16 = yo := by omega
  have hbinary : 16 * xt + xo + (16 * yt + yo) = 16 * (xt + yt) + (xo + yo) := by omega
  have hdecimal : 10 * xt + xo + (10 * yt + yo) = 10 * (xt + yt) + (xo + yo) := by omega
  simp only [ha, bcd_toNat hxt hxo, bcd_toNat hyt hyo, hxlow, hylow, hbinary, Bool.toNat_false, Nat.add_zero] at hat hh hc
  replace hau := hau hn
  simp only [hn, hh, hc, decide_eq_true_eq, true_and] at hau
  refine ⟨t, u, ht, hu, BitVec.eq_of_toNat_eq ?_, ?_⟩
  · rw [hau, hdecimal, bcd_mod_toNat]
    exact corrected_sum (by omega) (by omega) hat
  · rw [hcu, hn, hc, hdecimal, Bool.not_false, Bool.true_and, ← Bool.decide_or, decide_eq_decide]
    omega

/-- SUB of packed decimals leaves in H and C the borrows of the two digits, from which DAA makes the decimal difference. -/
theorem daa_after_sub {s : State} {xt xo yt yo : Nat} (hxt : xt < 10) (hxo : xo < 10) (hyt : yt < 10) (hyo : yo < 10)
    (ha : s.a = bcd (10 * xt + xo)) :
    ∃ t u, exec (.subN8 (bcd (10 * yt + yo))) s = .next t ∧ exec .daa t = .next u ∧
      u.a = bcd ((10 * xt + xo + 100 - (10 * yt + yo)) % 100) ∧ u.flag .c = decide (10 * xt + xo < 10 * yt + yo) := by
  obtain ⟨t, ht, -, -, -, hat, -, hn, hh, hc⟩ : SubEffect (.subN8 (bcd (10 * yt + yo))) s _ false :=
    subEffect_of_exec_aluSub rfl
  obtain ⟨u, hu, -, -, -, -, hau, -, -, -, hcu⟩ := decimalAdjust t
  have hxlow : (16 * xt + xo) % 16 = xo := by omega
  have hylow : (16 * yt + yo) % 16 = yo := by omega
  simp only [ha, bcd_toNat hxt hxo, bcd_toNat hyt hyo, hxlow, hylow, Bool.toNat_false, Nat.add_zero, Nat.sub_zero]
    at hat hh hc
  replace hau := hau hn
  simp only [hn, hh, hc, decide_eq_true_eq, Bool.true_eq_false, false_and, or_false] at hau
  refine ⟨t, u, ht, hu, BitVec.eq_of_toNat_eq ?_, ?_⟩
  · rw [hau, bcd_mod_toNat]
    exact corrected_difference hxt hxo hyt hyo hat
  · rw [hcu, hn, hc, Bool.not_true, Bool.false_and, Bool.or_false, decide_eq_decide]
    omega

/-- Settles O44, on the digits of the two numbers. -/
theorem decimalAdjustIsDecimal : Obligations.DecimalAdjustIsDecimal := by
  intro s x y hx hy ha
  obtain ⟨xt, xo, hxt, hxo, rfl⟩ := exists_digits hx
  obtain ⟨yt, yo, hyt, hyo, rfl⟩ := exists_digits hy
  exact ⟨daa_after_add hxt hxo hyt hyo ha, daa_after_sub hxt hxo hyt hyo ha⟩

/-! ## CPL, SCF and CCF (R163 to R165) -/

theorem setNHC_are (s : State) (n h c : Bool) : FlagsAre (s.setNHC n h c) (s.flag .z) n h c := by
  simp [FlagsAre, setNHC_flag]

/-- A write of N, H and C alone. -/
theorem effect_of_exec_setNHC {i : Instr} {s : State} {n h c : Bool} (hi : exec i s = .next (s.setNHC n h c)) :
    Effect i s [] [.n, .h, .c] [] s.sp s.pc fun t => FlagsAre t (s.flag .z) n h c :=
  ⟨_, hi, Frame.setNHC s n h c [] [], rfl, rfl, setNHC_are s n h c⟩

/-- Settles O45: CPL writes A, N and H; the two others write N, H and C. -/
theorem complementAndCarryFlag : Obligations.ComplementAndCarryFlag := by
  refine fun s => ⟨⟨_, rfl, ?frame, rfl, rfl, BitVec.toNat_not, ?flags⟩, effect_of_exec_setNHC rfl, effect_of_exec_setNHC rfl⟩
  case frame =>
    exact ((Frame.setCell s (by decide) (~~~s.a) (by decide) _ []).trans (Frame.setFlag _ .n true _ (by decide) [])).trans
      (Frame.setFlag _ .h true _ (by decide) [])
  case flags => simp [FlagsAre, setFlag_flag, setCell_flag]

end Sys2Proof.Machine
end

section
/-! 16-bit arithmetic and `sp` as an operand (spec/43_alu16.md R180 to R184, spec/41_load16_stack.md R131, R133): pair writes in integers, the signed displacement, then the instructions. -/

namespace Sys2Proof.Machine

/-! ## A pair written, in integers -/

theorem effect_of_exec_setPair_pair {i : Instr} {s : State} {p : Pair} {v : Word} (hp : p ≠ .af)
    (hi : exec i s = .next (s.setPair p v)) :
    Effect i s [pairHi p, pairLo p] [] [] s.sp s.pc fun t => (t.pair p).toNat = v.toNat :=
  (effect_of_exec_setPair hp hi).mono fun t ⟨hhi, hlo⟩ => by
    rw [pair_toNat, hhi, hlo]
    omega

theorem sub_one_toNat_word (v : Word) : (v - 1#16).toNat = (v.toNat + 65535) % 65536 := by
  rw [BitVec.toNat_sub, Nat.add_comm]
  rfl

/-- A pair moved by one, from the form that `INC rr` and `DEC rr` take on it. -/
theorem effect_of_exec_incPair {i : Instr} {s : State} {p : Pair} (hp : p ≠ .af)
    (hi : exec i s = .next (s.setPair p (s.pair p + 1#16))) :
    Effect i s [pairHi p, pairLo p] [] [] s.sp s.pc fun t => (t.pair p).toNat = ((s.pair p).toNat + 1) % 65536 :=
  (effect_of_exec_setPair_pair hp hi).mono fun _ ht => ht.trans (BitVec.toNat_add _ _)

theorem effect_of_exec_decPair {i : Instr} {s : State} {p : Pair} (hp : p ≠ .af)
    (hi : exec i s = .next (s.setPair p (s.pair p - 1#16))) :
    Effect i s [pairHi p, pairLo p] [] [] s.sp s.pc fun t => (t.pair p).toNat = ((s.pair p).toNat + 65535) % 65536 :=
  (effect_of_exec_setPair_pair hp hi).mono fun _ ht => ht.trans (sub_one_toNat_word _)

/-- Settles O47: BC, DE and HL are pair writes, SP a write of `sp`. -/
theorem wordIncrementsAndDecrements : Obligations.WordIncrementsAndDecrements := by
  refine fun s => ⟨fun rr p hmem => ?pairs, effect_of_exec_setSp rfl (BitVec.toNat_add _ _),
    effect_of_exec_setSp rfl (sub_one_toNat_word _)⟩
  case pairs =>
    fin_cases hmem <;> exact ⟨effect_of_exec_incPair (by decide) rfl, effect_of_exec_decPair (by decide) rfl⟩

/-- Settles O46: HL is written, then N, H and C, whose tests are on the two operands. -/
theorem additionToHl : Obligations.AdditionToHl := by
  intro s rr
  refine ⟨_, rfl, ?frame, rfl, rfl, ?sum, ?flags⟩
  case frame =>
    exact (Frame.setPair s (by decide) _ (by decide) (by decide) _ []).trans (Frame.setNHC _ _ _ _ _ [])
  case sum => rw [setNHC_pair _ _ _ _ (by decide), setPair_pair_same, BitVec.toNat_add]
  case flags => exact setNHC_are _ _ _ _

/-! ## `sp` plus a signed displacement (R133, R183) -/

theorem signExtend8_toNat (v : Byte) : (signExtend8 v).toNat = signedMod v := by
  rw [signExtend8, BitVec.toNat_signExtend, BitVec.msb_eq_decide, signedMod]
  have hv := v.isLt
  by_cases h : 128 ≤ v.toNat
  · simp [h, Nat.not_lt.mpr h]
    omega
  · simp [h, Nat.not_le.mp h]
    omega

theorem add_signExtend8_toNat (w : Word) (v : Byte) :
    (w + signExtend8 v).toNat = (w.toNat + signedMod v) % 65536 := by
  rw [BitVec.toNat_add, signExtend8_toNat]

/-- The flags of the two sums (R133, R183). -/
theorem setSpFlags_are (s t : State) (e8 : Byte) :
    FlagsAre (setSpFlags s e8 t) false false (decide (s.sp.toNat % 16 + e8.toNat % 16 > 0x0F))
      (decide (s.sp.toNat % 256 + e8.toNat > 0xFF)) := setFlags_are t _ _ _ _

theorem Frame.setSpFlags (s : State) (e8 : Byte) (cells : List Cell) (bytes : List Word) :
    Frame s (setSpFlags s e8 s) cells allFlags bytes := Frame.setFlags s _ _ _ _ cells bytes

/-- Settles O35: the store is that of a word; the two sums write their register and all four flags. -/
theorem stackPointerAsOperand : Obligations.StackPointerAsOperand := by
  refine fun s a16 e8 => ⟨fun h1 h2 => ?store, wordWriteFaults_of_exec_storeWord rfl, ?ldHl, ?addSp⟩
  case store =>
    obtain ⟨hlo, hhi, -⟩ := read8_setMem16 s s.sp h1 h2
    exact ⟨_, storeWord_ram s.sp h1 h2 _, Frame.storeWord s a16 s.sp [] [], rfl, rfl, ⟨_, hlo, loByte_toNat _⟩,
      _, hhi, hiByte_toNat _⟩
  case ldHl =>
    refine ⟨_, rfl, (Frame.setSpFlags s e8 _ []).trans (Frame.setPair _ (by decide) _ (by decide) (by decide) _ []),
      rfl, rfl, ?_, ?_⟩
    · rw [setPair_pair_same, spPlus, add_signExtend8_toNat]
    · simpa only [FlagsAre, setPair_flag _ (by decide : Pair.hl ≠ .af)] using setSpFlags_are s s e8
  case addSp =>
    refine ⟨_, rfl, (Frame.setSpFlags s e8 [] []).trans (Frame.setSp _ _ [] _ []), ?_, rfl, ?_⟩
    · exact BitVec.eq_of_toNat_eq (by simp [spPlus, signExtend8_toNat])
    · simpa only [FlagsAre, setSp_flag] using setSpFlags_are s s e8

end Sys2Proof.Machine
end

section
/-! The general rotates and shifts, SWAP, BIT and the read-modify-write faults (spec/44_rotate_shift.md R194 to R202, spec/45_bit.md R210), and the escape row (spec/30_encoding.md R80, R85): the operations in integers, their two forms, then the instructions. -/

namespace Sys2Proof.Machine

/-! ## The shifts in integers; the rotates are those of the accumulator forms -/

theorem shiftLeft_toNat (v : Byte) (c : Bool) : (shiftLeft v c).1.toNat = v.toNat * 2 % 256 := by
  rw [shiftLeft, BitVec.toNat_shiftLeft, Nat.shiftLeft_eq, Nat.pow_one]

theorem shiftRightLogical_toNat (v : Byte) (c : Bool) : (shiftRightLogical v c).1.toNat = v.toNat / 2 := by
  rw [shiftRightLogical, BitVec.toNat_ushiftRight, Nat.shiftRight_eq_div_pow, Nat.pow_one]

/-- The kept bit 7 is the bit that a right rotate through it would put in. -/
theorem shiftRightArith_toNat (v : Byte) (c : Bool) :
    (shiftRightArith v c).1.toNat = v.toNat / 2 + v.toNat / 128 * 128 := by
  have hkept : v &&& 0x80#8 = bitOf (v.getLsbD 7) <<< 7 := by revert v; decide
  rw [shiftRightArith, hkept, shiftRight_or_bitOf_toNat, getLsbD_seven_toNat]

theorem swapNibbles_toNat (v : Byte) (c : Bool) : (swapNibbles v c).1.toNat = v.toNat % 16 * 16 + v.toNat / 16 := by
  have hv := v.isLt
  have hlow : v.toNat / 16 % 16 < 2 ^ 4 := Nat.mod_lt _ (by decide)
  simp only [swapNibbles, BitVec.toNat_append, BitVec.extractLsb'_toNat, Nat.shiftRight_eq_div_pow]
  rw [← Nat.shiftLeft_add_eq_or_of_lt hlow, Nat.shiftLeft_eq]
  omega

/-! ## A write of an operand, then of the four flags (R202) -/

theorem effect_of_exec_setReg_setFlags {i : Instr} {s : State} {r : Reg8} {w : Byte} {z n h c : Bool}
    (hi : exec i s = .next ((s.setReg r w).setFlags z n h c)) :
    Effect i s [cellOf r] allFlags [] s.sp s.pc fun t => t.reg r = w ∧ FlagsAre t z n h c := by
  refine ⟨_, hi, (Frame.setCell s (cellOf_ne_f r) w (List.mem_singleton_self _) _ []).trans (Frame.setFlags _ z n h c _ []),
    setReg_sp s r w, setReg_pc s r w, ?reg, setFlags_are _ z n h c⟩
  case reg => rw [State.reg, setFlags_cell _ _ _ _ _ (cellOf_ne_f r)]; exact setReg_reg_same s r w

/-- The read-modify-write at HL, with flags that depend on the byte read. -/
theorem effect_of_exec_modifyAtHl_setFlags {i : Instr} {s : State} {g : Byte → Byte} {z n h c : Byte → Bool} {v : Byte}
    (hi : exec i s = modifyAtHl s g fun v t => .next (t.setFlags (z v) (n v) (h v) (c v)))
    (hv : s.read8 (s.pair .hl) = .ok v) (hx : InRam (s.pair .hl)) :
    Effect i s [] allFlags [s.pair .hl] s.sp s.pc fun t =>
      t.read8 (s.pair .hl) = .ok (g v) ∧ FlagsAre t (z v) (n v) (h v) (c v) :=
  ⟨_, hi.trans (modifyAtHl_ram hv hx _ _),
    (Frame.store s _ (g v) [] _ (List.mem_singleton_self _)).trans (Frame.setFlags _ (z v) (n v) (h v) (c v) [] _), rfl,
    rfl, read8_setMem_same s (g v) hx, setFlags_are _ (z v) (n v) (h v) (c v)⟩

/-- The two general forms of an operation whose result and shifted-out bit are known in integers. -/
theorem shiftEffect_of_exec {onReg : Reg8 → Instr} {atHl : Instr} {g : Byte → Bool → Byte × Bool}
    {result : Nat → Nat → Nat} {carry : Nat → Bool} (hreg : ∀ r s, exec (onReg r) s = shiftReg g r s)
    (hhl : ∀ s, exec atHl s = shiftAtHl g s) (hresult : ∀ v c, (g v c).1.toNat = result v.toNat c.toNat)
    (hcarry : ∀ v c, (g v c).2 = carry v.toNat) : ShiftEffect onReg atHl result carry := by
  refine ⟨fun r s => ?reg, fun s v hv hx => ?hl⟩
  case reg =>
    refine (effect_of_exec_setReg_setFlags (hreg r s)).mono fun t ⟨hw, hflags⟩ => ⟨by rw [hw, hresult], ?_⟩
    rwa [isZero_eq_decide_toNat, ← hw, hcarry] at hflags
  case hl =>
    refine (effect_of_exec_modifyAtHl_setFlags (hhl s) hv hx).mono fun t ⟨hw, hflags⟩ => ⟨_, hw, hresult _ _, ?_⟩
    rwa [isZero_eq_decide_toNat, hcarry] at hflags

/-! ## The instructions: `exec` of each is its form by definition -/

/-- Settles O49: the four rotates of the accumulator forms, with Z computed. -/
theorem generalRotates : Obligations.GeneralRotates :=
  ⟨shiftEffect_of_exec (fun _ _ => rfl) (fun _ => rfl) rotLeft_toNat fun v _ => getLsbD_seven_eq_decide v,
    shiftEffect_of_exec (fun _ _ => rfl) (fun _ => rfl) rotRight_toNat fun v _ => getLsbD_zero_eq_decide v,
    shiftEffect_of_exec (fun _ _ => rfl) (fun _ => rfl) rotLeftCarry_toNat fun v _ => getLsbD_seven_eq_decide v,
    shiftEffect_of_exec (fun _ _ => rfl) (fun _ => rfl) rotRightCarry_toNat fun v _ => getLsbD_zero_eq_decide v⟩

/-- Settles O50: a left shift sends bit 7 to Carry and a right one bit 0; SWAP clears Carry. -/
theorem shiftsAndSwap : Obligations.ShiftsAndSwap :=
  ⟨shiftEffect_of_exec (fun _ _ => rfl) (fun _ => rfl) shiftLeft_toNat fun v _ => getLsbD_seven_eq_decide v,
    shiftEffect_of_exec (fun _ _ => rfl) (fun _ => rfl) shiftRightArith_toNat fun v _ => getLsbD_zero_eq_decide v,
    shiftEffect_of_exec (fun _ _ => rfl) (fun _ => rfl) shiftRightLogical_toNat fun v _ => getLsbD_zero_eq_decide v,
    shiftEffect_of_exec (fun _ _ => rfl) (fun _ => rfl) swapNibbles_toNat fun _ _ => rfl⟩

/-- The zero test of one bit is that of the bit's digit in base 2. -/
theorem not_getLsbD_eq_decide (v : Byte) (k : Nat) : (!v.getLsbD k) = decide (v.toNat / 2 ^ k % 2 = 0) := by
  rw [BitVec.getLsbD, Nat.testBit_eq_decide_div_mod_eq, ← decide_not, decide_eq_decide]
  omega

/-- BIT on a byte writes three flags and nothing else. -/
theorem effect_of_exec_setBitFlags {i : Instr} {s : State} {b : BitVec 3} {v : Byte}
    (hi : exec i s = .next (setBitFlags b v s)) :
    Effect i s [] [.z, .n, .h] [] s.sp s.pc fun t =>
      FlagsAre t (decide (v.toNat / 2 ^ b.toNat % 2 = 0)) false true (s.flag .c) :=
  ⟨_, hi, Frame.setZNH s _ _ _ [] [], rfl, rfl, not_getLsbD_eq_decide v _ ▸ setZNH_are s _ _ _⟩

/-- Settles O51: the flags of BIT from the register, or from the byte at HL where it can be read. -/
theorem bitTest : Obligations.BitTest := fun _ _ =>
  ⟨fun _ => effect_of_exec_setBitFlags rfl, fun _ hv => effect_of_exec_setBitFlags (loadByte_ok hv _),
    readFaults_of_exec_loadByte rfl⟩

/-- Settles O53: each of the ten is a read-modify-write at HL, whatever it would write. -/
theorem readModifyWriteFaults : Obligations.ReadModifyWriteFaults := by
  intro s i hi
  fin_cases hi <;> exact modifyFaults_of_exec_modifyAtHl rfl

end Sys2Proof.Machine
end

section
/-! Relative jumps, calls, restarts and returns (spec/46_control.md R222 to R232), and push and pop as inverses (spec/41_load16_stack.md R138): what a call and a completed push do, then the instructions. -/

namespace Sys2Proof.Machine

/-! ## Relative jumps (R223, R224) -/

/-- Settles O55: the target is the sum of `pc` and the sign-extended displacement. -/
theorem relativeJumps : Obligations.RelativeJumps := fun s e8 _ =>
  ⟨s.relative e8, add_signExtend8_toNat s.pc e8, effect_of_exec_setPc rfl trivial,
    effect_of_exec_whenCond_setPc (target := fun t => t.relative e8) rfl⟩

/-! ## Calls (R225, R226, R232) -/

/-- A call whose two bytes lie in RAM pushes the advanced `pc` and writes `pc`. -/
theorem effect_of_exec_callTo {i : Instr} {s : State} {target : Word} (hi : exec i s = callTo target s) (h : CanPush s) :
    Effect i s [] [] (pushedBytes s) (s.sp - 2#16) target fun u => Pushed s u s.pc := by
  obtain ⟨hframe, hpushed⟩ := push_effect s.pc h
  exact ⟨_, hi.trans (pushWord_ram s.pc h.1 h.2 _), hframe.trans (Frame.setPc _ target [] [] _), rfl, rfl, hpushed⟩

theorem wordWriteFaults_of_exec_callTo {i : Instr} {s : State} {target : Word} (hi : exec i s = callTo target s) :
    WordWriteFaults i s (s.sp - 2#16) := wordWriteFaults_of_exec_storeWord hi

/-- An instruction that does nothing further where its condition is false. -/
theorem effect_of_exec_whenCond_false {i : Instr} {cc : Cond} {s : State} {taken : State → Result}
    (hi : exec i s = whenCond cc s taken) (h : s.cond cc = false) : Effect i s [] [] [] s.sp s.pc fun _ => True :=
  ⟨s, hi.trans (whenCond_false h taken), Frame.refl s [] [] [], rfl, rfl, trivial⟩

theorem exec_callCcA16 {cc : Cond} {s : State} (h : s.cond cc = true) (a16 : Word) :
    exec (.callCcA16 cc a16) s = callTo a16 s := whenCond_true h _

/-- Settles O56: CALL, a taken CALL cc and RST are calls, of the target of each. -/
theorem callsAndRestarts : Obligations.CallsAndRestarts := fun _ a16 _ _ =>
  ⟨fun h => ⟨effect_of_exec_callTo rfl h, fun hcond => effect_of_exec_callTo (exec_callCcA16 hcond a16) h,
      effect_of_exec_callTo rfl h⟩,
    effect_of_exec_whenCond_false rfl, wordWriteFaults_of_exec_callTo rfl, wordWriteFaults_of_exec_callTo rfl,
    fun hcond => wordWriteFaults_of_exec_callTo (exec_callCcA16 hcond a16)⟩

/-! ## Returns (R222, R228, R231), and a pop by the word at `sp` -/

theorem exec_ret_ok {s : State} {v : Word} (h : s.read16 s.sp = .ok v) :
    exec .ret s = .next ((s.setSp (s.sp + 2#16)).setPc v) := popWord_ok h fun v t => .next (t.setPc v)

theorem exec_reti_ok {s : State} {v : Word} (h : s.read16 s.sp = .ok v) :
    exec .reti s = .next { (s.setSp (s.sp + 2#16)).setPc v with ime := true } :=
  popWord_ok h fun v t => .next { t.setPc v with ime := true }

theorem exec_popRr_ok {s : State} {v : Word} (h : s.read16 s.sp = .ok v) (p : Pair) :
    exec (.popRr p) s = .next ((s.setSp (s.sp + 2#16)).setPair p v) := popWord_ok h fun v t => .next (t.setPair p v)

theorem exec_retCc {cc : Cond} {s : State} (h : s.cond cc = true) : exec (.retCc cc) s = returnTo s := whenCond_true h _

/-- Settles O58: JP HL writes `pc`, a taken RET cc is a return, RETI a return that also sets `ime`. -/
theorem jumpToHlAndReturns : Obligations.JumpToHlAndReturns := by
  refine ⟨fun s => effect_of_exec_setPc rfl (pair_toNat s .hl), fun s cc => effect_of_exec_whenCond_false rfl,
    fun s lo hi hlo hhi => ⟨fun cc hcond => (effect_of_exec_returnTo (exec_retCc hcond) hlo hhi).mono fun _ _ => trivial, ?reti⟩,
    fun s => ⟨wordReadFaults_of_exec_loadWord rfl, fun cc hcond => wordReadFaults_of_exec_loadWord (exec_retCc hcond)⟩⟩
  case reti =>
    exact ⟨_, exec_reti_ok (read16_of_bytes hlo hhi), rfl, rfl, rfl, rfl, fun r => by cases r <;> rfl, fun _ => rfl, rfl, rfl⟩

/-! ## A completed push, and the pop after it (spec/41_load16_stack.md R138) -/

/-- The state `u` in which a completed push of `v` from `s` goes on. -/
structure PushedState (s u : State) (v : Word) : Prop where
  sp : u.sp = s.sp - 2#16
  pc : u.pc = s.pc
  cells : ∀ r, u.cell r = s.cell r
  pushed : Pushed s u v
  memory : ∀ x, x ≠ s.sp - 2#16 → x ≠ s.sp - 1#16 → u.read8 x = s.read8 x

theorem pushedState_of_pushWord_next {s t : State} {v : Word} {k : State → Result} (h : pushWord s v k = .next t) :
    ∃ u, k u = .next t ∧ PushedState s u v := by
  obtain ⟨h1, h2, hk⟩ := pushWord_next.mp h
  obtain ⟨hframe, hpushed⟩ := push_effect v ⟨h1, h2⟩
  have hsecond : s.sp - 2#16 + 1#16 = s.sp - 1#16 := by bv_omega
  exact ⟨_, hk, rfl, rfl, fun r => by cases r <;> rfl, hpushed,
    fun x hx hx' => hframe.memory_same x (by simp [pushedBytes, hsecond, hx, hx'])⟩

/-- The word at the new `sp` is the one pushed. -/
theorem PushedState.read16_sp {s u : State} {v : Word} (h : PushedState s u v) : u.read16 u.sp = .ok v := by
  obtain ⟨hlo, hhi⟩ := h.pushed
  rw [h.sp, read16_of_bytes hlo hhi, wordOf_hiByte_loByte]

theorem PushedState.sp_add_two {s u : State} {v : Word} (h : PushedState s u v) : u.sp + 2#16 = s.sp := by
  rw [h.sp, BitVec.sub_add_cancel]

/-- A pair written with what it holds stays, and so does every other cell. -/
theorem setPair_pair_cell {s u : State} (h : ∀ r, u.cell r = s.cell r) (p : Pair) (r : Cell) :
    (u.setPair p (s.pair p)).cell r = s.cell r := by
  rw [setPair_cell, loByte_pair, hiByte_pair, h]
  split
  · simp [*]
  · split <;> simp [*]

/-- Settles O38: the pop reads the word that the push stored, from where it stored it. -/
theorem popAfterPushRestores : Obligations.PopAfterPushRestores := by
  intro s t p q h
  obtain ⟨u, hu, hpush⟩ := pushedState_of_pushWord_next h
  cases hu
  refine ⟨_, exec_popRr_ok hpush.read16_sp q, setPair_pair_same _ q _, ?sp, fun hqp r => ?cells, fun x hx hx' => ?memory⟩
  case sp => rw [setPair_sp, setSp_sp, hpush.sp_add_two]
  case cells => subst hqp; exact setPair_pair_cell (fun r => (setSp_cell _ _ r).trans (hpush.cells r)) q r
  case memory => rw [setPair_read8, setSp_read8, hpush.memory x hx hx']

/-- Settles O59: the return reads the `pc` that the call pushed; a change of `pc` in between changes nothing of that. -/
theorem returnAfterCallComesBack : Obligations.ReturnAfterCallComesBack := by
  intro s t a16 pc' h
  obtain ⟨u, hu, hpush⟩ := pushedState_of_pushWord_next h
  cases hu
  have hread : ((u.setPc a16).setPc pc').read16 ((u.setPc a16).setPc pc').sp = .ok s.pc := hpush.read16_sp
  refine ⟨_, exec_ret_ok hread, rfl, hpush.sp_add_two, fun r => ?cells⟩
  case cells => rw [setPc_cell, setSp_cell, setPc_cell, setPc_cell, hpush.cells r]

end Sys2Proof.Machine
end

section
/-! What an instruction can do, once for every instruction: the faults of its row of R267's table, and what it keeps where it completes (spec/60_exceptions.md R262, R267). -/

namespace Sys2Proof.Machine

/-! ## The faults and the answers of a row of the table -/

/-- The faults that a row of R267's table names: an AddressFault at a byte that no region serves for its kind (R262). -/
def FaultClass.MayRaise : FaultClass → Fault → Prop
  | .none, _ => False
  | .read, f => ∃ x, ¬ Mapped x ∧ f = .addressFault x .read
  | .write, f => ∃ x, ¬ InRam x ∧ f = .addressFault x .write
  | .readOrWrite, f => (∃ x, ¬ Mapped x ∧ f = .addressFault x .read) ∨ ∃ x, ¬ InRam x ∧ f = .addressFault x .write
  | .readAlways, f => ∃ x, 0xFF00 ≤ x.toNat ∧ f = .addressFault x .read
  | .writeAlways, f => ∃ x, 0xFF00 ≤ x.toNat ∧ f = .addressFault x .write
  | .unknownAlways, f => ∃ bytes pc0, f = .unknownInstructionFault bytes pc0

/-- Whether an instruction of the row can complete. -/
def FaultClass.MayComplete : FaultClass → Prop
  | .readAlways | .writeAlways | .unknownAlways => False
  | .none | .read | .write | .readOrWrite => True

/-! ## What an instruction keeps -/

/-- From `s` to `t` only cells, flags, `sp` and bytes of RAM have changed; bits 3:0 of F have not. -/
structure Quiet (s t : State) : Prop where
  pc : t.pc = s.pc
  low : t.f.extractLsb' 0 4 = s.f.extractLsb' 0 4
  ime : t.ime = s.ime
  pending : t.imePending = s.imePending
  run : t.run = s.run
  config : t.config = s.config
  inv : s.inv = true → t.inv = true

theorem Quiet.refl (s : State) : Quiet s s := ⟨rfl, rfl, rfl, rfl, rfl, rfl, id⟩

theorem Quiet.trans {s t u : State} (h1 : Quiet s t) (h2 : Quiet t u) : Quiet s u :=
  ⟨h2.pc.trans h1.pc, h2.low.trans h1.low, h2.ime.trans h1.ime, h2.pending.trans h1.pending, h2.run.trans h1.run,
    h2.config.trans h1.config, h2.inv ∘ h1.inv⟩

theorem Quiet.setCell (s : State) {r : Cell} (hr : r ≠ .f) (v : Byte) : Quiet s (s.setCell r v) :=
  ⟨by simp, by rw [setCell_f s hr], by simp, by simp, by simp, by simp, inv_congr (by simp) (by simp)⟩

theorem Quiet.setReg (s : State) (r : Reg8) (v : Byte) : Quiet s (s.setReg r v) := Quiet.setCell s (cellOf_ne_f r) v

theorem Quiet.setPair (s : State) {p : Pair} (hp : p ≠ .af) (v : Word) : Quiet s (s.setPair p v) :=
  ⟨by simp, by rw [setPair_f s hp], by simp, by simp, by simp, by simp, inv_congr (by simp) (by simp)⟩

theorem Quiet.setA (s : State) (v : Byte) : Quiet s (s.setCell .a v) := Quiet.setCell s (by decide) v

theorem Quiet.setHl (s : State) (v : Word) : Quiet s (s.setPair .hl v) := Quiet.setPair s (by decide) v

theorem Quiet.setSp (s : State) (v : Word) : Quiet s (s.setSp v) :=
  ⟨rfl, rfl, rfl, rfl, rfl, rfl, inv_congr rfl rfl⟩

theorem Quiet.setVal (s : State) (rr : Reg16) (v : Word) : Quiet s (s.setVal rr v) := by
  obtain ⟨hpc, hf, hime, hpending, hrun, hmem, hconfig⟩ := setVal_same s rr v
  exact ⟨hpc, by rw [hf], hime, hpending, hrun, hconfig, inv_congr hmem hconfig⟩

theorem Quiet.setFlag (s : State) (g : Flag) (v : Bool) : Quiet s (s.setFlag g v) :=
  ⟨rfl, setFlag_low s g v, rfl, rfl, rfl, rfl, inv_congr rfl rfl⟩

theorem Quiet.setFlags (s : State) (z n h c : Bool) : Quiet s (s.setFlags z n h c) :=
  ⟨rfl, setFlags_low s z n h c, rfl, rfl, rfl, rfl, inv_congr rfl rfl⟩

theorem Quiet.setZNH (s : State) (z n h : Bool) : Quiet s (s.setZNH z n h) :=
  ⟨rfl, setZNH_low s z n h, rfl, rfl, rfl, rfl, inv_congr rfl rfl⟩

theorem Quiet.setNHC (s : State) (n h c : Bool) : Quiet s (s.setNHC n h c) :=
  ⟨rfl, setNHC_low s n h c, rfl, rfl, rfl, rfl, inv_congr rfl rfl⟩

theorem Quiet.store (s : State) {x : Word} (hx : InRam x) (v : Byte) :
    Quiet s { s with mem := s.mem.write x.toNat v } :=
  ⟨rfl, rfl, rfl, rfl, rfl, rfl, inv_write v hx⟩

/-- What the instruction `i` keeps where it completes (spec/10_state.md R16, R18, R20 to R22, spec/20_memory.md R42): each part
but for the few instructions that write it. -/
structure Keeps (i : Instr) (s t : State) : Prop where
  pc : isTransfer i = false → t.pc = s.pc
  low : i ≠ .popRr .af → t.f.extractLsb' 0 4 = s.f.extractLsb' 0 4
  ime : i ≠ .di → i ≠ .reti → t.ime = s.ime
  pending : i ≠ .di → i ≠ .ei → t.imePending = s.imePending
  run : i ≠ .halt → (∀ pad, i ≠ .stop pad) → t.run = s.run
  config : t.config = s.config
  inv : s.inv = true → t.inv = true

theorem Quiet.keeps {s t : State} (h : Quiet s t) (i : Instr) : Keeps i s t :=
  ⟨fun _ => h.pc, fun _ => h.low, fun _ _ => h.ime, fun _ _ => h.pending, fun _ _ => h.run, h.config, h.inv⟩

/-- A transfer may write `pc` besides. -/
theorem Quiet.keeps_setPc {s t : State} (h : Quiet s t) {i : Instr} (hi : isTransfer i = true) (v : Word) :
    Keeps i s (t.setPc v) :=
  ⟨fun h' => absurd (hi.symm.trans h') (by decide), fun _ => h.low, fun _ _ => h.ime, fun _ _ => h.pending,
    fun _ _ => h.run, h.config, inv_congr rfl rfl ∘ h.inv⟩

/-- A pop writes its pair besides, and of AF also bits 3:0 of F. -/
theorem Quiet.keeps_pop {s t : State} (h : Quiet s t) (p : Pair) (v : Word) : Keeps (.popRr p) s (t.setPair p v) := by
  refine ⟨fun _ => ?pc, fun hp => ?low, fun _ _ => ?ime, fun _ _ => ?pending, fun _ _ => ?run, ?config, fun hinv => ?inv⟩
  case pc => rw [setPair_pc, h.pc]
  case low => rw [setPair_f _ fun hp' => hp (congrArg _ hp'), h.low]
  case ime => rw [setPair_ime, h.ime]
  case pending => rw [setPair_imePending, h.pending]
  case run => rw [setPair_run, h.run]
  case config => rw [setPair_config, h.config]
  case inv => exact inv_congr (setPair_mem t p v) (setPair_config t p v) (h.inv hinv)

theorem Quiet.keeps_reti {s t : State} (h : Quiet s t) (v : Word) : Keeps .reti s { t.setPc v with ime := true } :=
  ⟨fun h' => absurd h' (by decide), fun _ => h.low, fun _ h' => absurd rfl h', fun _ _ => h.pending, fun _ _ => h.run,
    h.config, inv_congr rfl rfl ∘ h.inv⟩

theorem keeps_halt (s : State) : Keeps .halt s { s with run := .halted } :=
  ⟨fun _ => rfl, fun _ => rfl, fun _ _ => rfl, fun _ _ => rfl, fun h => absurd rfl h, rfl, inv_congr rfl rfl⟩

theorem keeps_stop (s : State) (pad : Byte) : Keeps (.stop pad) s { s with run := .stopped } :=
  ⟨fun _ => rfl, fun _ => rfl, fun _ _ => rfl, fun _ _ => rfl, fun _ h => absurd rfl (h pad), rfl, inv_congr rfl rfl⟩

theorem keeps_di (s : State) : Keeps .di s { s with ime := false, imePending := false } :=
  ⟨fun _ => rfl, fun _ => rfl, fun h => absurd rfl h, fun h => absurd rfl h, fun _ _ => rfl, rfl, inv_congr rfl rfl⟩

theorem keeps_ei (s : State) : Keeps .ei s { s with imePending := true } :=
  ⟨fun _ => rfl, fun _ => rfl, fun _ _ => rfl, fun _ h => absurd rfl h, fun _ _ => rfl, rfl, inv_congr rfl rfl⟩

/-- No region answers page 0xFF, for a read or for a write. -/
theorem highPage_mayRaise :
    (∀ v, FaultClass.readAlways.MayRaise (.addressFault (highPage v) .read)) ∧
      ∀ v, FaultClass.writeAlways.MayRaise (.addressFault (highPage v) .write) := by
  have hpage : ∀ v, 0xFF00 ≤ (highPage v).toNat := fun v => by rw [highPage_toNat]; omega
  exact ⟨fun v => ⟨_, hpage v, rfl⟩, fun v => ⟨_, hpage v, rfl⟩⟩

/-! ## The answer of an instruction -/

/-- The answer is one that the instruction's row of the table allows, and a next state keeps what the instruction does not write. -/
def Sound (i : Instr) (s : State) : Result → Prop
  | .next t => (faultClass i s).MayComplete ∧ Keeps i s t
  | .fault f => (faultClass i s).MayRaise f
  | .refused _ => False

theorem sound_of_next {i : Instr} {s t : State} (hclass : faultClass i s = .none) (hi : exec i s = .next t)
    (h : Keeps i s t) : Sound i s (exec i s) := by
  rw [hi]
  exact ⟨by rw [hclass]; trivial, h⟩

theorem sound_of_fault {i : Instr} {s : State} {f : Fault} (hi : exec i s = .fault f) (h : (faultClass i s).MayRaise f) :
    Sound i s (exec i s) := by
  rw [hi]
  exact h

theorem sound_of_load {i : Instr} {s : State} {x : Word} {g : Byte → State} (hclass : faultClass i s = .read)
    (hi : exec i s = loadByte s x fun v => .next (g v)) (h : ∀ v, Keeps i s (g v)) : Sound i s (exec i s) := by
  rw [hi]
  by_cases hx : Mapped x
  · obtain ⟨v, hv⟩ := (read8_ok_iff s x).mpr hx
    rw [loadByte_ok hv]
    exact ⟨by rw [hclass]; trivial, h v⟩
  · rw [loadByte_unmapped hx, Sound, hclass]
    exact ⟨x, hx, rfl⟩

theorem sound_of_store {i : Instr} {s : State} {x : Word} {v : Byte} {g : State → State} (hclass : faultClass i s = .write)
    (hi : exec i s = storeByte s x v fun t => .next (g t)) (h : ∀ t, Quiet s t → Keeps i s (g t)) :
    Sound i s (exec i s) := by
  rw [hi]
  by_cases hx : InRam x
  · rw [storeByte_ram v hx]
    exact ⟨by rw [hclass]; trivial, h _ (Quiet.store s hx v)⟩
  · rw [storeByte_outside v hx, Sound, hclass]
    exact ⟨x, hx, rfl⟩

theorem sound_of_modify {i : Instr} {s : State} {m : Byte → Byte} {g : Byte → State → State}
    (hclass : faultClass i s = .readOrWrite) (hi : exec i s = modifyAtHl s m fun v t => .next (g v t))
    (h : ∀ v t, Quiet s t → Keeps i s (g v t)) : Sound i s (exec i s) := by
  rw [hi]
  by_cases hread : Mapped (s.pair .hl)
  · obtain ⟨v, hv⟩ := (read8_ok_iff s _).mpr hread
    rw [modifyAtHl, loadByte_ok hv]
    by_cases hwrite : InRam (s.pair .hl)
    · rw [storeByte_ram _ hwrite]
      exact ⟨by rw [hclass]; trivial, h v _ (Quiet.store s hwrite _)⟩
    · rw [storeByte_outside _ hwrite, Sound, hclass]
      exact .inr ⟨_, hwrite, rfl⟩
  · rw [modifyAtHl, loadByte_unmapped hread, Sound, hclass]
    exact .inl ⟨_, hread, rfl⟩

/-- A pop of `sp`'s word: its bytes are read before anything is written. -/
theorem sound_of_pop {i : Instr} {s : State} {g : Word → State → State} (hclass : faultClass i s = .read)
    (hi : exec i s = popWord s fun v t => .next (g v t)) (h : ∀ v t, Quiet s t → Keeps i s (g v t)) :
    Sound i s (exec i s) := by
  rw [hi]
  cases hread : s.read16 s.sp with
  | ok v =>
    rw [popWord_ok hread]
    exact ⟨by rw [hclass]; trivial, h v _ (Quiet.setSp s _)⟩
  | error f =>
    simp only [popWord, loadWord, hread, raise, Sound, hclass]
    exact read16_error hread

/-- A store of a word, perhaps after a move of `sp`. -/
theorem sound_of_storeWord {i : Instr} {s u : State} {x v : Word} {g : State → State} (hclass : faultClass i s = .write)
    (hi : exec i s = storeWord u x v fun t => .next (g t)) (hu : Quiet s u) (h : ∀ t, Quiet s t → Keeps i s (g t)) :
    Sound i s (exec i s) := by
  rw [hi]
  by_cases h1 : InRam x
  · by_cases h2 : InRam (x + 1#16)
    · rw [storeWord_ram v h1 h2]
      exact ⟨by rw [hclass]; trivial, h _ (hu.trans ((Quiet.store u h1 _).trans (Quiet.store _ h2 _)))⟩
    · rw [storeWord_second_outside v h1 h2, Sound, hclass]
      exact ⟨_, h2, rfl⟩
  · rw [storeWord_first_outside v h1, Sound, hclass]
    exact ⟨_, h1, rfl⟩

theorem sound_of_call {i : Instr} {s : State} {target : Word} (hclass : faultClass i s = .write)
    (hi : exec i s = callTo target s) (htransfer : isTransfer i = true) : Sound i s (exec i s) :=
  sound_of_storeWord hclass hi (Quiet.setSp s _) fun _ h => h.keeps_setPc htransfer target

theorem sound_of_return {i : Instr} {s : State} (hclass : faultClass i s = .read) (hi : exec i s = returnTo s)
    (htransfer : isTransfer i = true) : Sound i s (exec i s) :=
  sound_of_pop hclass hi fun v _ h => h.keeps_setPc htransfer v

/-- An instruction under a condition is what it does where the condition holds, or leaves the state. -/
theorem sound_of_whenCond {i : Instr} {cc : Cond} {s : State} {taken : State → Result} (hi : exec i s = whenCond cc s taken)
    (htaken : s.cond cc = true → exec i s = taken s → Sound i s (exec i s))
    (hclass : s.cond cc = false → faultClass i s = .none) : Sound i s (exec i s) := by
  cases hcond : s.cond cc with
  | true => exact htaken hcond (hi.trans (whenCond_true hcond taken))
  | false => exact sound_of_next (hclass hcond) (hi.trans (whenCond_false hcond taken)) ((Quiet.refl s).keeps i)

theorem sound_of_conditionalJump {i : Instr} {cc : Cond} {s : State} {target : State → Word}
    (hclass : faultClass i s = .none) (hi : exec i s = whenCond cc s fun t => .next (t.setPc (target t)))
    (htransfer : isTransfer i = true) : Sound i s (exec i s) :=
  sound_of_whenCond hi (fun _ hi => sound_of_next hclass hi ((Quiet.refl s).keeps_setPc htransfer _)) fun _ => hclass

/-! ## The escape row and its secondary row (spec/47_system.md R245, log 8) -/

theorem exec_prefixCb (bitcode : Byte) (s : State) : exec (.prefixCb bitcode) s = exec (secondary bitcode) s := by
  obtain ⟨bitcode⟩ := bitcode
  fin_cases bitcode <;> rfl

theorem faultClass_prefixCb (bitcode : Byte) (s : State) :
    faultClass (.prefixCb bitcode) s = faultClass (secondary bitcode) s := by
  obtain ⟨bitcode⟩ := bitcode
  fin_cases bitcode <;> rfl

/-- An instruction whose first byte is not the escape is no secondary row. -/
theorem secondary_ne {i : Instr} (h : (encode i).head? ≠ some 0xCB#8) (bitcode : Byte) : secondary bitcode ≠ i := by
  rintro rfl
  rw [encode_secondary] at h
  exact h rfl

theorem isTransfer_secondary (bitcode : Byte) : isTransfer (secondary bitcode) = false := by
  revert bitcode; decide

/-- A secondary row writes none of the parts that some instructions write. -/
theorem Keeps.of_secondary {bitcode : Byte} {s t : State} (h : Keeps (secondary bitcode) s t) (i : Instr) : Keeps i s t :=
  Quiet.keeps ⟨h.pc (isTransfer_secondary bitcode), h.low (secondary_ne (by decide) _),
    h.ime (secondary_ne (by decide) _) (secondary_ne (by decide) _),
    h.pending (secondary_ne (by decide) _) (secondary_ne (by decide) _),
    h.run (secondary_ne (by decide) _) fun pad => secondary_ne (by simp [encode]) _, h.config, h.inv⟩ i

theorem secondary_ne_prefixCb (bitcode b : Byte) : secondary bitcode ≠ .prefixCb b := by
  intro h
  have hwf := secondary_wellFormed bitcode
  rw [h] at hwf
  cases hwf

theorem Sound.of_secondary {bitcode : Byte} {s : State} {r : Result} (h : Sound (secondary bitcode) s r) :
    Sound (.prefixCb bitcode) s r := by
  cases r with
  | next t => exact ⟨faultClass_prefixCb bitcode s ▸ h.1, h.2.of_secondary _⟩
  | fault f => exact (faultClass_prefixCb bitcode s ▸ h : (faultClass (.prefixCb bitcode) s).MayRaise f)
  | refused why => exact h

/-! ## Every instruction -/

/-- Every instruction but the escape row, by the shape of its meaning. -/
theorem exec_sound_of_ne_prefixCb {i : Instr} (hne : ∀ bitcode, i ≠ .prefixCb bitcode) (s : State) :
    Sound i s (exec i s) := by
  cases i
  case prefixCb bitcode => exact absurd rfl (hne bitcode)
  -- spec/40_load8.md
  case ldRR | ldRN8 => exact sound_of_next rfl rfl ((Quiet.setReg s _ _).keeps _)
  case ldRHl r => exact sound_of_load rfl rfl fun v => (Quiet.setReg s r v).keeps _
  case ldABc | ldADe | ldAA16 => exact sound_of_load rfl rfl fun v => (Quiet.setA s v).keeps _
  case ldBcA | ldDeA | ldHlR | ldHlN8 | ldA16A => exact sound_of_store rfl rfl fun _ h => h.keeps _
  case ldAHli | ldAHld =>
    exact sound_of_load rfl rfl fun v => ((Quiet.setA s v).trans (Quiet.setHl _ _)).keeps _
  case ldHliA | ldHldA => exact sound_of_store rfl rfl fun _ h => (h.trans (Quiet.setHl _ _)).keeps _
  case ldhAA8 a8 => exact sound_of_fault (loadReg_highPage .a a8 s) (highPage_mayRaise.1 a8)
  case ldhAC => exact sound_of_fault (loadReg_highPage .a s.c s) (highPage_mayRaise.1 s.c)
  case ldhA8A a8 => exact sound_of_fault (storeTo_highPage a8 s.a s) (highPage_mayRaise.2 a8)
  case ldhCA => exact sound_of_fault (storeTo_highPage s.c s.a s) (highPage_mayRaise.2 s.c)
  -- spec/41_load16_stack.md, spec/43_alu16.md
  case ldRrN16 | incRr | decRr => exact sound_of_next rfl rfl ((Quiet.setVal s _ _).keeps _)
  case ldSpHl => exact sound_of_next rfl rfl ((Quiet.setSp s _).keeps _)
  case addHlRr => exact sound_of_next rfl rfl (((Quiet.setHl s _).trans (Quiet.setNHC _ _ _ _)).keeps _)
  case addSpE8 => exact sound_of_next rfl rfl (((Quiet.setFlags s _ _ _ _).trans (Quiet.setSp _ _)).keeps _)
  case ldHlSpE8 => exact sound_of_next rfl rfl (((Quiet.setFlags s _ _ _ _).trans (Quiet.setHl _ _)).keeps _)
  case ldA16Sp => exact sound_of_storeWord rfl rfl (Quiet.refl s) fun _ h => h.keeps _
  case pushRr => exact sound_of_storeWord rfl rfl (Quiet.setSp s _) fun _ h => h.keeps _
  case popRr p => exact sound_of_pop rfl rfl fun v _ h => h.keeps_pop p v
  -- spec/42_alu8.md
  case addAR | adcAR | subR | sbcAR | andR | xorR | orR | addAN8 | adcAN8 | subN8 | sbcAN8 | andN8 | xorN8 | orN8 =>
    exact sound_of_next rfl rfl (((Quiet.setA s _).trans (Quiet.setFlags _ _ _ _ _)).keeps _)
  case addAHl | adcAHl | subHl | sbcAHl | andHl | xorHl | orHl =>
    exact sound_of_load rfl rfl fun _ => ((Quiet.setA s _).trans (Quiet.setFlags _ _ _ _ _)).keeps _
  case cpR | cpN8 => exact sound_of_next rfl rfl ((Quiet.setFlags s _ _ _ _).keeps _)
  case cpHl => exact sound_of_load rfl rfl fun _ => (Quiet.setFlags s _ _ _ _).keeps _
  case incR | decR => exact sound_of_next rfl rfl (((Quiet.setReg s _ _).trans (Quiet.setZNH _ _ _ _)).keeps _)
  case incHl | decHl => exact sound_of_modify rfl rfl fun _ _ h => (h.trans (Quiet.setZNH _ _ _ _)).keeps _
  case daa =>
    exact sound_of_next rfl rfl ((((Quiet.setA s _).trans (Quiet.setFlag _ .z _)).trans
      (Quiet.setFlag _ .h _)).trans (Quiet.setFlag _ .c _) |>.keeps _)
  case cpl =>
    exact sound_of_next rfl rfl (((Quiet.setA s _).trans (Quiet.setFlag _ .n _)).trans
      (Quiet.setFlag _ .h _) |>.keeps _)
  case scf | ccf => exact sound_of_next rfl rfl ((Quiet.setNHC s _ _ _).keeps _)
  -- spec/44_rotate_shift.md
  case rlca | rrca | rla | rra =>
    exact sound_of_next rfl rfl (((Quiet.setA s _).trans (Quiet.setFlags _ _ _ _ _)).keeps _)
  case rlcR | rrcR | rlR | rrR | slaR | sraR | swapR | srlR =>
    exact sound_of_next rfl rfl (((Quiet.setReg s _ _).trans (Quiet.setFlags _ _ _ _ _)).keeps _)
  case rlcHl | rrcHl | rlHl | rrHl | slaHl | sraHl | swapHl | srlHl =>
    exact sound_of_modify rfl rfl fun _ _ h => (h.trans (Quiet.setFlags _ _ _ _ _)).keeps _
  -- spec/45_bit.md
  case bitBR => exact sound_of_next rfl rfl ((Quiet.setZNH s _ _ _).keeps _)
  case bitBHl => exact sound_of_load rfl rfl fun _ => (Quiet.setZNH s _ _ _).keeps _
  case resBR | setBR => exact sound_of_next rfl rfl ((Quiet.setReg s _ _).keeps _)
  case resBHl | setBHl => exact sound_of_modify rfl rfl fun _ _ h => h.keeps _
  -- spec/46_control.md
  case jpA16 | jrE8 | jpHl => exact sound_of_next rfl rfl ((Quiet.refl s).keeps_setPc rfl _)
  case jpCcA16 a16 => exact sound_of_conditionalJump (target := fun _ => a16) rfl rfl rfl
  case jrCcE8 e8 => exact sound_of_conditionalJump (target := fun t => t.relative e8) rfl rfl rfl
  case callA16 | rstT => exact sound_of_call rfl rfl rfl
  case callCcA16 =>
    exact sound_of_whenCond rfl (fun hcond hi => sound_of_call (if_pos hcond) hi rfl) fun hcond => if_neg (by simp [hcond])
  case ret => exact sound_of_return rfl rfl rfl
  case retCc =>
    exact sound_of_whenCond rfl (fun hcond hi => sound_of_return (if_pos hcond) hi rfl) fun hcond => if_neg (by simp [hcond])
  case reti => exact sound_of_pop rfl rfl fun v _ h => h.keeps_reti v
  -- spec/47_system.md
  case nop => exact sound_of_next rfl rfl ((Quiet.refl s).keeps _)
  case halt => exact sound_of_next rfl rfl (keeps_halt s)
  case stop pad => exact sound_of_next rfl rfl (keeps_stop s pad)
  case di => exact sound_of_next rfl rfl (keeps_di s)
  case ei => exact sound_of_next rfl rfl (keeps_ei s)
  case unknown op => exact sound_of_fault (exec_unknown op s) ⟨_, _, rfl⟩

/-- What every instruction can answer; the escape row answers as its secondary row. -/
theorem exec_sound (i : Instr) (s : State) : Sound i s (exec i s) := by
  by_cases h : ∃ bitcode, i = .prefixCb bitcode
  · obtain ⟨bitcode, rfl⟩ := h
    rw [exec_prefixCb]
    exact (exec_sound_of_ne_prefixCb (secondary_ne_prefixCb bitcode) s).of_secondary
  · exact exec_sound_of_ne_prefixCb (fun bitcode hi => h ⟨bitcode, hi⟩) s

/-! ## The parts of the answer -/

theorem keeps_of_exec_next {i : Instr} {s t : State} (h : exec i s = .next t) : Keeps i s t := by
  have hsound := exec_sound i s
  rw [h] at hsound
  exact hsound.2

theorem mayRaise_of_exec_fault {i : Instr} {s : State} {f : Fault} (h : exec i s = .fault f) :
    (faultClass i s).MayRaise f := by
  have hsound := exec_sound i s
  rw [h] at hsound
  exact hsound

theorem exec_ne_refused (i : Instr) (s : State) (why : Refusal) : exec i s ≠ .refused why := by
  intro h
  have hsound := exec_sound i s
  rw [h] at hsound
  exact hsound

/-- An AddressFault names a byte that no region serves for its kind (R262). -/
def Fault.NamesUnservedByte : Fault → Prop
  | .addressFault x .read => ¬ Mapped x
  | .addressFault x .write => ¬ InRam x
  | .unknownInstructionFault _ _ => True

theorem unserved_of_page_0xFF {x : Word} (h : 0xFF00 ≤ x.toNat) : ¬ Mapped x ∧ ¬ InRam x := by
  simp only [Mapped, InRam]
  omega

theorem FaultClass.MayRaise.namesUnservedByte {k : FaultClass} {f : Fault} (h : k.MayRaise f) : f.NamesUnservedByte := by
  cases k
  case none => cases h
  case read | write => obtain ⟨x, hx, rfl⟩ := h; exact hx
  case readOrWrite => obtain ⟨x, hx, rfl⟩ | ⟨x, hx, rfl⟩ := h <;> exact hx
  case readAlways => obtain ⟨x, hx, rfl⟩ := h; exact (unserved_of_page_0xFF hx).1
  case writeAlways => obtain ⟨x, hx, rfl⟩ := h; exact (unserved_of_page_0xFF hx).2
  case unknownAlways => obtain ⟨bytes, pc0, rfl⟩ := h; trivial

end Sys2Proof.Machine
end

section
/-! What follows for an instruction and for a tick: the fault table, run state, latches, bits 3:0 of F, `pc`, the configuration and the invariant (spec/60_exceptions.md R262, R267, spec/10_state.md R16 to R22, spec/20_memory.md R42, spec/70_reset_and_hazards.md R296). -/

namespace Sys2Proof.Machine

/-! ## An instruction -/

/-- The rows of the table in the statement's words. -/
theorem allowedBy_of_sound {i : Instr} {s : State} {r : Result} (h : Sound i s r) : allowedBy (faultClass i s) r := by
  cases r with
  | refused why => exact h.elim
  | next t =>
    obtain ⟨hcomplete, -⟩ := h
    cases hk : faultClass i s <;> rw [hk] at hcomplete
    case none => exact ⟨t, rfl⟩
    case read | write | readOrWrite => exact .inl ⟨t, rfl⟩
    all_goals exact hcomplete.elim
  | fault f =>
    rw [Sound] at h
    cases hk : faultClass i s <;> rw [hk] at h
    case none => exact h.elim
    case read | write => obtain ⟨x, -, rfl⟩ := h; exact .inr ⟨x, rfl⟩
    case readOrWrite =>
      obtain ⟨x, -, rfl⟩ | ⟨x, -, rfl⟩ := h
      · exact .inr (.inl ⟨x, rfl⟩)
      · exact .inr (.inr ⟨x, rfl⟩)
    case readAlways | writeAlways => obtain ⟨x, hx, rfl⟩ := h; exact ⟨x, hx, rfl⟩
    case unknownAlways => obtain ⟨bytes, pc0, rfl⟩ := h; exact ⟨bytes, pc0, rfl⟩

/-- Settles O19, from what every instruction can answer. -/
theorem faultTableIsSound : Obligations.FaultTableIsSound := fun i s => allowedBy_of_sound (exec_sound i s)

/-- Settles O12: HALT and STOP write `run`, and every other instruction keeps it. -/
theorem onlyHaltAndStopWriteRun : Obligations.OnlyHaltAndStopWriteRun := by
  refine fun i s t h => ⟨fun hi => ?halt, fun pad hi => ?stop, (keeps_of_exec_next h).run⟩
  case halt | stop => subst hi; cases h; rfl

theorem ime_of_exec_reti {s t : State} (h : exec .reti s = .next t) : t.ime = true := by
  obtain ⟨v, -, ht⟩ := (popWord_next (k := fun v t => .next { t.setPc v with ime := true })).mp h
  cases ht
  rfl

/-- Settles O13: every instruction but DI, EI and RETI keeps the latches. -/
theorem latchesAreWrittenByDiEiReti : Obligations.LatchesAreWrittenByDiEiReti := by
  refine fun i s t h => ⟨(keeps_of_exec_next h).ime, (keeps_of_exec_next h).pending, fun hi => ?reti⟩
  case reti => subst hi; exact ime_of_exec_reti h

/-- POP AF loads F from the byte at `sp`, the low one of the word (R137). -/
theorem f_of_exec_popAf {s t : State} (h : exec (.popRr .af) s = .next t) : s.read8 s.sp = .ok t.f := by
  obtain ⟨v, hv, ht⟩ := (popWord_next (k := fun v t => .next (t.setPair .af v))).mp h
  obtain ⟨lo, hi, hlo, -, rfl⟩ := read16_ok hv
  cases ht
  exact hlo.trans (congrArg _ (loByte_wordOf hi lo).symm)

/-- Settles O18: every instruction but POP AF keeps bits 3:0 of F. -/
theorem lowBitsOfFAreStorage : Obligations.LowBitsOfFAreStorage := by
  refine fun i s t h => ⟨(keeps_of_exec_next h).low, fun hi => ?popAf⟩
  case popAf => subst hi; exact f_of_exec_popAf h

/-! ## A tick -/

/-- A tick that answers a next state changed nothing, or ran an instruction and made the transfer of the latch. -/
theorem step_next {s t : State} (h : step s = .next t) :
    t = s ∨ ∃ i n u, decodeFrom s.pull = .ok (i, n) ∧ exec i (s.beginTick n) = .next u ∧ t = commitEi s.imePending i u := by
  cases hrun : s.run with
  | halted => rw [step_halted_or_stopped (.inl hrun)] at h; cases h; exact .inl rfl
  | stopped => rw [step_halted_or_stopped (.inr hrun)] at h; cases h; exact .inl rfl
  | faulted f => rw [step_faulted hrun] at h; cases h
  | running =>
    right
    cases hdecode : decodeFrom s.pull with
    | error f => rw [step_of_decode_error hrun hdecode] at h; cases h
    | ok answer =>
      rw [step_of_decode hrun hdecode] at h
      obtain ⟨u, hu, rfl⟩ := finishTick_next.mp h
      exact ⟨_, _, u, rfl, hu, rfl⟩

theorem finishTick_fault {p : Bool} {i : Instr} {r : Result} {f : Fault} : finishTick p i r = .fault f ↔ r = .fault f := by
  cases r <;> simp [finishTick]

theorem finishTick_refused {p : Bool} {i : Instr} {r : Result} {why : Refusal} :
    finishTick p i r = .refused why ↔ r = .refused why := by
  cases r <;> simp [finishTick]

/-- The fault of a Running machine's tick is that of a pull or of the instruction. -/
theorem step_fault {s : State} {f : Fault} (hrun : s.run = .running) (h : step s = .fault f) : f.NamesUnservedByte := by
  cases hdecode : decodeFrom s.pull with
  | error g =>
    rw [step_of_decode_error hrun hdecode] at h
    cases h
    obtain ⟨k, -, hpull⟩ := decodeFrom_error hdecode
    obtain ⟨hunmapped, rfl⟩ := read8_error s hpull
    exact hunmapped
  | ok answer =>
    rw [step_of_decode hrun hdecode] at h
    exact (mayRaise_of_exec_fault (finishTick_fault.mp h)).namesUnservedByte

theorem step_ne_refused (s : State) (why : Refusal) : step s ≠ .refused why := by
  intro h
  cases hrun : s.run with
  | halted => rw [step_halted_or_stopped (.inl hrun)] at h; cases h
  | stopped => rw [step_halted_or_stopped (.inr hrun)] at h; cases h
  | faulted f => rw [step_faulted hrun] at h; cases h
  | running =>
    cases hdecode : decodeFrom s.pull with
    | error f => rw [step_of_decode_error hrun hdecode] at h; cases h
    | ok answer =>
      rw [step_of_decode hrun hdecode] at h
      exact exec_ne_refused _ _ _ (finishTick_refused.mp h)

/-- Settles O20: a fetch and an instruction fault on an unserved byte alone, and neither is refused. -/
theorem addressFaultsNameAnUnservedByte : Obligations.AddressFaultsNameAnUnservedByte :=
  ⟨fun _ _ => step_fault, fun _ _ => step_fault, step_ne_refused⟩

/-- Settles O10: a straight-line instruction keeps the `pc` that the tick has advanced. -/
theorem pcAdvancesOverStraightLineCode : Obligations.PcAdvancesOverStraightLineCode := by
  intro s t i n hrun hdecode hi h
  rw [step_of_decode hrun hdecode] at h
  obtain ⟨u, hu, rfl⟩ := finishTick_next.mp h
  rw [commitEi_pc, (keeps_of_exec_next hu).pc hi, beginTick_pc]
  simp

/-- The end of a tick after one that ran EI, so with the latch up and taken down again. -/
theorem commitEi_after_ei {i : Instr} {s t : State} (h : exec i s = .next t) (hpending : s.imePending = false) :
    (i ≠ .di → (commitEi true i t).ime = true) ∧ (i = .di → (commitEi true i t).ime = false) ∧
      (commitEi true i t).imePending = decide (i = .ei) := by
  rw [commitEi_ime, commitEi_imePending, cancelsEi_eq_decide]
  refine ⟨fun hi => by simp [hi], fun hi => ?di, ?pending⟩
  case di => subst hi; cases h; rfl
  case pending =>
    by_cases hdi : i = .di
    · subst hdi; cases h; rfl
    by_cases hei : i = .ei
    · subst hei; cases h; rfl
    · rw [(keeps_of_exec_next h).pending hdi hei, hpending, decide_eq_false hei]

/-- Settles O14: the tick of EI leaves the latch up, and the end of the next makes the transfer unless it ran DI. -/
theorem eiTakesEffectAfterTheNextInstruction : Obligations.EiTakesEffectAfterTheNextInstruction := by
  intro s t u n m i hrun hei ht hdecode hu
  rw [step_of_decode hrun hei] at ht
  obtain ⟨t', ht', rfl⟩ := finishTick_next.mp ht
  cases ht'
  rw [step_of_decode (by rw [commitEi_run]; exact hrun) hdecode, commitEi_imePending] at hu
  obtain ⟨u', hu', rfl⟩ := finishTick_next.mp hu
  refine ⟨?ime, commitEi_imePending _ _ _, commitEi_after_ei hu' rfl⟩
  case ime => rw [commitEi_ime, cancelsEi_eq_decide]; simp [Bool.or_comm]

/-- The bytes up to 0x3FFF are those of the configuration (R42, R43). -/
theorem read8_eq_of_config_eq {s t : State} (h : t.config = s.config) {x : Word} (hx : x.toNat ≤ 0x3FFF) :
    t.read8 x = s.read8 x := by
  cases hlive : s.config.bootOverlayLive with
  | false => rw [read8_of_rom hx (.inr hlive), read8_of_rom hx (.inr (h ▸ hlive)), h]
  | true =>
    by_cases hlow : x.toNat ≤ 0x00FF
    · rw [read8_of_boot hlow hlive, read8_of_boot hlow (h ▸ hlive), h]
    · rw [read8_of_rom hx (.inl (by omega)), read8_of_rom hx (.inl (by omega)), h]

/-- Settles O17: no instruction writes the configuration, nor do the two ends of a tick. -/
theorem stepKeepsTheConfiguration : Obligations.StepKeepsTheConfiguration := by
  intro s t h
  have hconfig : t.config = s.config := by
    obtain rfl | ⟨i, n, u, -, hu, rfl⟩ := step_next h
    · rfl
    · rw [commitEi_config, (keeps_of_exec_next hu).config, beginTick_config]
  exact ⟨hconfig, fun x => read8_eq_of_config_eq hconfig⟩

/-- Settles O15: a store goes to RAM and keeps the canonical form, and nothing else in a tick writes a store. -/
theorem stepKeepsTheInvariant : Obligations.StepKeepsTheInvariant := by
  intro s t hinv h
  obtain rfl | ⟨i, n, u, -, hu, rfl⟩ := step_next h
  · exact hinv
  · have hu : u.inv = true := (keeps_of_exec_next hu).inv (inv_congr (beginTick_mem s n) (beginTick_config s n) hinv)
    exact inv_congr (commitEi_mem _ _ _) (commitEi_config _ _ _) hu

end Sys2Proof.Machine
end

section
/-! The escape pair (spec/30_encoding.md R80, R85, spec/47_system.md R245): where a secondary row completes, and that it changes no byte but the one at HL. -/

namespace Sys2Proof.Machine

/-- The instruction completes in `s` and leaves `sp`, `pc`, the run state, the latches, the configuration and every byte but the
one at HL. -/
def CompletesBesideHl (i : Instr) (s : State) : Prop :=
  ∃ t, exec i s = .next t ∧ t.sp = s.sp ∧ t.pc = s.pc ∧ t.run = s.run ∧ t.ime = s.ime ∧
    t.imePending = s.imePending ∧ t.config = s.config ∧ ∀ x, x ≠ s.pair .hl → t.read8 x = s.read8 x

theorem Effect.completesBesideHl {i : Instr} {s : State} {cells : List Cell} {flags : List Flag} {bytes : List Word}
    {post : State → Prop} (h : Effect i s cells flags bytes s.sp s.pc post) (hbytes : bytes ⊆ [s.pair .hl]) :
    CompletesBesideHl i s := by
  obtain ⟨t, hexec, hframe, hsp, hpc, -⟩ := h
  exact ⟨t, hexec, hsp, hpc, hframe.run_same, hframe.ime_same, hframe.pending_same, hframe.config_same,
    fun x hx => hframe.memory_same x fun hmem => hx (List.mem_singleton.mp (hbytes hmem))⟩

theorem shiftBlock_reg_completes (y : Nat) (r : Reg8) (s : State) : CompletesBesideHl (shiftBlock y (.reg r)) s := by
  simp only [shiftBlock]
  split <;> exact (effect_of_exec_setReg_setFlags (r := r) rfl).completesBesideHl (List.nil_subset _)

theorem shiftBlock_atHl_completes (y : Nat) {s : State} {v : Byte} (hv : s.read8 (s.pair .hl) = .ok v)
    (hx : InRam (s.pair .hl)) : CompletesBesideHl (shiftBlock y .atHl) s := by
  simp only [shiftBlock]
  split <;> exact (effect_of_exec_modifyAtHl_setFlags rfl hv hx).completesBesideHl (List.Subset.refl _)

/-- The four groups of the secondary map (R85), on a register and at HL. -/
theorem secondary_of_reg {bitcode : Byte} {r : Reg8} (h : operand8 (lowField bitcode) = .reg r) :
    secondary bitcode = shiftBlock (midField bitcode).toNat (.reg r) ∨ secondary bitcode = .bitBR (midField bitcode) r ∨
      secondary bitcode = .resBR (midField bitcode) r ∨ secondary bitcode = .setBR (midField bitcode) r := by
  simp only [secondary, h]
  split <;> simp_all

theorem secondary_of_atHl {bitcode : Byte} (h : operand8 (lowField bitcode) = .atHl) :
    secondary bitcode = shiftBlock (midField bitcode).toNat .atHl ∨ secondary bitcode = .bitBHl (midField bitcode) ∨
      secondary bitcode = .resBHl (midField bitcode) ∨ secondary bitcode = .setBHl (midField bitcode) := by
  simp only [secondary, h]
  split <;> simp_all

/-- A row on a register completes in every state. -/
theorem secondary_reg_completes {bitcode : Byte} {r : Reg8} (h : operand8 (lowField bitcode) = .reg r) (s : State) :
    CompletesBesideHl (secondary bitcode) s := by
  obtain ⟨hbit, -, -⟩ := bitTest s (midField bitcode)
  obtain ⟨hwrite, -⟩ := bitResetAndSet s (midField bitcode)
  obtain ⟨hres, hset⟩ := hwrite r
  obtain h | h | h | h := secondary_of_reg h <;> rw [h]
  · exact shiftBlock_reg_completes _ r s
  · exact (hbit r).completesBesideHl (List.nil_subset _)
  · exact hres.completesBesideHl (List.nil_subset _)
  · exact hset.completesBesideHl (List.nil_subset _)

/-- A row on `(HL)` completes where the byte is in RAM. -/
theorem secondary_atHl_completes {bitcode : Byte} (h : operand8 (lowField bitcode) = .atHl) {s : State}
    (hx : InRam (s.pair .hl)) : CompletesBesideHl (secondary bitcode) s := by
  obtain ⟨v, hv⟩ := (read8_ok_iff s _).mpr (.inr hx)
  obtain ⟨-, hbit, -⟩ := bitTest s (midField bitcode)
  obtain ⟨-, hwrite, -⟩ := bitResetAndSet s (midField bitcode)
  obtain ⟨hres, hset⟩ := hwrite v hv hx
  obtain h | h | h | h := secondary_of_atHl h <;> rw [h]
  · exact shiftBlock_atHl_completes _ hv hx
  · exact (hbit v hv).completesBesideHl (List.nil_subset _)
  · exact hres.completesBesideHl (List.Subset.refl _)
  · exact hset.completesBesideHl (List.Subset.refl _)

/-- BIT on `(HL)` completes where the byte can be read. -/
theorem bit_atHl_completes {bitcode : Byte} (htop : topField bitcode = 1#2) (h : operand8 (lowField bitcode) = .atHl)
    {s : State} (hx : Mapped (s.pair .hl)) : CompletesBesideHl (secondary bitcode) s := by
  obtain ⟨v, hv⟩ := (read8_ok_iff s _).mpr hx
  obtain ⟨-, hbit, -⟩ := bitTest s (midField bitcode)
  simp only [secondary, h, htop]
  exact (hbit v hv).completesBesideHl (List.nil_subset _)

theorem operand8_eq_atHl_iff (code : BitVec 3) : operand8 code = .atHl ↔ code = 6#3 := by
  revert code; decide

/-- Settles O3: the escape row is its secondary row, which completes on a register, and at HL where its accesses are served. -/
theorem escapePairIsTheSecondaryRow : Obligations.EscapePairIsTheSecondaryRow := by
  refine fun bitcode => ⟨fun rest => ⟨decode_escape rfl bitcode rest, decode_escape rfl bitcode rest⟩,
    exec_prefixCb bitcode, fun s h => ?completes⟩
  case completes =>
    rw [exec_prefixCb]
    cases hoperand : operand8 (lowField bitcode) with
    | reg r => exact secondary_reg_completes hoperand s
    | atHl =>
      obtain hlow | hram | ⟨htop, hmapped⟩ := h
      · exact absurd ((operand8_eq_atHl_iff _).mp hoperand) hlow
      · exact secondary_atHl_completes hoperand hram
      · exact bit_atHl_completes htop hoperand hmapped

end Sys2Proof.Machine
end
